-- ==== Sys2Proof/Word.lean ====
section
/-!
DEFINITION. The two data widths of FFTE (00_scope.md R8): every data word, every register and every
command is 64 bits wide; memory is held byte by byte.
-/

namespace Sys2Proof

/-- A 64-bit word: a binary64 value, a register or a command (R8, R14). -/
abbrev Word := BitVec 64

/-- One byte lane of the host bus (20_memory.md R46). -/
abbrev Byte := BitVec 8

end Sys2Proof
end

