-- ==== Sys2Proof/Config.lean ====
section
/-!
DEFINITION. What an implementation of FFTE fixes (00_scope.md R7), who can make a step, and the values
the spec leaves open (93_implementation_defined.md U1, U2, U4, U5). A free value is a constant with no
body: nothing can be proved about what it is.
-/

namespace Sys2Proof

/-- The parameters of R7 that an implementation fixes. They are readable through the ID register (R26),
so State carries them and no step changes them. TWF, the fourth parameter, is `Machine.twt`. -/
structure Build where
  /-- `LOG2_NMAX`, log2 of the largest plan size. -/
  log2Nmax : Nat
  /-- `NBUF`, the number of buffer banks. -/
  nbuf : Nat
  /-- `BASE`, the bus address of byte 0 of the aperture. -/
  base : Nat
  deriving DecidableEq, Repr

/-- `NMAX = 2^LOG2_NMAX` (R7). -/
def Build.nmax (b : Build) : Nat := 2 ^ b.log2Nmax

/-- `S = 16*NMAX`, the region size in bytes (R7). -/
def Build.regionSize (b : Build) : Nat := 16 * b.nmax

/-- The aperture is `32*S` bytes (R47). -/
def Build.aperture (b : Build) : Nat := 32 * b.regionSize

/-- The legal parameter values of the table of R7. -/
abbrev Build.Legal (b : Build) : Prop :=
  12 ≤ b.log2Nmax ∧ b.log2Nmax ≤ 24 ∧ 2 ≤ b.nbuf ∧ b.nbuf ≤ 16 ∧ b.base % b.aperture = 0

/-- The defaults of R7. `BASE` is OPEN in the spec (D4): 0 is this model's DESIGN CHOICE (log 2), and
every statement about all states holds for every base. -/
def Build.default : Build := { log2Nmax := 12, nbuf := 4, base := 0 }

/-- Who can make a step: the host (or platform) at the port, or the engine (R58, R114, R116). -/
inductive Agent where
  | host
  | engine
  deriving DecidableEq, Repr, Inhabited

/-- FREE VALUE (log 4): the 64-bit value a host read of an unspecified bank word returns, one for each
such read (R50, R126, U1, U2). -/
opaque Config.freeWord : Nat → Word

/-- FREE VALUE (log 5): which agent moves first in the next step if a host access and the completion are
both ready, "either order is allowed" (R116, U4, U5). -/
opaque Config.nextTurn : Nat → Agent

end Sys2Proof
end

