-- ==== Sys2Proof/Syntax.lean ====
section
/-!
DEFINITION. The nine commands of FFTE (30_encoding.md R67), one constructor for each row of the opcode
table. Bank operands are the unsigned numbers of R66.
-/

namespace Sys2Proof

/-- A command. `dst` and `src` are bank numbers (R64, R66); PLAN takes its operand from ARG (R66). -/
inductive Instr where
  /-- 0x00, format F0: no operation (R73). -/
  | nop
  /-- 0x01, format F0: build the plan of size `sint32(ARG[31:0])` (R75). -/
  | plan
  /-- 0x02, format F2: forward complex transform (R100). -/
  | fwd (dst src : Nat)
  /-- 0x03, format F2: inverse complex transform, scaled by 1/N (R101). -/
  | inv (dst src : Nat)
  /-- 0x04, format F2: forward real-input transform (R106). -/
  | rfwd (dst src : Nat)
  /-- 0x05, format F2: real buffer to complex buffer (R85). -/
  | r2c (dst src : Nat)
  /-- 0x06, format F2: complex buffer to real buffer (R86). -/
  | c2r (dst src : Nat)
  /-- 0x07, format F1: zero-fill a complex buffer (R87). -/
  | clr (dst : Nat)
  /-- 0x08, format F1: complete a half-spectrum in place (R88). -/
  | cspec (dst : Nat)
  deriving DecidableEq, Repr

end Sys2Proof
end

