-- ==== Sys2Proof/Machine/State.lean ====
section
/-!
DEFINITION. The state of FFTE as plain data (10_state.md), its reset value (R43), and the reasons a step
could stop. STATUS.BUSY, STATUS.PLAN_VALID, ID, PLAN_N, PLAN_GEOM, the two tables and `irq` are views of
these fields (R26, R28, R33, R34, R37, R42) and are computed where they are read.
-/

namespace Sys2Proof.Machine

/-- The error codes of 60_exceptions.md R109; 7..255 are never produced. -/
inductive ErrCode where
  /-- 0: no error. -/
  | none
  /-- 1: PLAN with a size that is not a power of two above 1. -/
  | invalidSize
  /-- 2: FWD, INV or RFWD with DST = SRC. -/
  | aliasing
  /-- 3: PLAN with a valid size above NMAX. -/
  | sizeUnsupported
  /-- 4: a command other than NOP and PLAN while PV = 0. -/
  | noPlan
  /-- 5: a bank operand that is not below NBUF. -/
  | badBuffer
  /-- 6: an ILLEGAL command word. -/
  | illegalCommand
  deriving DecidableEq, Repr

/-- `ctx.op` of R40: the commands that run, that is all but NOP. -/
inductive Op where
  | plan
  | fwd
  | inv
  | rfwd
  | r2c
  | c2r
  | clr
  | cspec
  deriving DecidableEq, Repr

/-- The direction of a transform, `ctx.inv` of R40: +1.0 or -1.0. -/
inductive Direction where
  /-- +1.0 -/
  | forward
  /-- -1.0 -/
  | inverse
  deriving DecidableEq, Repr

/-- The call context of R40. -/
structure Ctx where
  op : Op
  dst : Nat
  src : Nat
  inv : Direction
  /-- The size latched from ARG (PLAN only; 0 in the others, log 7). -/
  n : Nat
  deriving DecidableEq, Repr

/-- The command a context was made from. -/
def Ctx.instr (c : Ctx) : Instr :=
  match c.op with
  | .plan => .plan
  | .fwd => .fwd c.dst c.src
  | .inv => .inv c.dst c.src
  | .rfwd => .rfwd c.dst c.src
  | .r2c => .r2c c.dst c.src
  | .c2r => .c2r c.dst c.src
  | .clr => .clr c.dst
  | .cspec => .cspec c.dst

/-- `SEQ` of R40. -/
inductive Seq where
  | idle
  | running (ctx : Ctx)
  deriving DecidableEq, Repr

/-- What reaches the port from outside: bus accesses at a bus address, of a size in bytes (R44, R45), and
the platform's power-on reset (R122). -/
inductive Input where
  | read (addr size : Nat)
  | write (addr size : Nat) (value : Word)
  | powerOn
  deriving DecidableEq, Repr

/-- The response to an access (R44): OKAY with data, OKAY, or BUSERR. -/
inductive Reply where
  | data (value : Word)
  | okay
  | busError
  /-- The address is outside the aperture: the access "does not reach FFTE" (R44, log 6). -/
  | outside
  deriving DecidableEq, Repr

/-- The bytes of the bank words, at their byte offsets in the aperture (R38, R47): addresses strictly
rising (`Memory.wf`), and a byte that is not listed has no value (R39, log 8). -/
abbrev Memory := List Host.Cell

/-- The whole state of FFTE (R43). -/
structure State where
  /-- LOG2_NMAX and NBUF of ID (R26), and BASE (R7). No step changes them. -/
  build : Build
  /-- CTRL.IRQ_EN (R27). -/
  irqEn : Bool
  /-- STATUS.DONE, ERR, OVERRUN and HAZARD (R28). -/
  done : Bool
  err : Bool
  overrun : Bool
  hazard : Bool
  /-- STATUS.ERRCODE (R28, R109). -/
  errcode : ErrCode
  /-- STATUS.LASTOP (R28). -/
  lastop : BitVec 8
  /-- ARG[31:0] (R31). -/
  arg : BitVec 32
  /-- The plan store (R35): PV and PN. -/
  pv : Bool
  pn : Nat
  /-- The sequencer (R40). -/
  seq : Seq
  /-- The buffer banks (R38). -/
  mem : Memory
  /-- What has reached the port and is not served yet, oldest first (R58). The model's own (log 3). -/
  inputs : List Input
  /-- The responses given so far, newest first (R44). The model's own (log 3). -/
  replies : List Reply
  /-- The agent whose step this is or, if both are ready, would be (R116). The model's own (log 5). -/
  turn : Agent
  /-- How often the free values of log 5 and of log 4 have been drawn. The model's own. -/
  turnDraws : Nat
  readDraws : Nat
  deriving DecidableEq, Repr

/-- The reasons FFTE stops with a fault: there are none. FFTE "raises no floating-point exception, ... and
never traps on a value" (R19), an error is a rejection recorded in STATUS (R113, R117), and BUSERR is a
response (R110). -/
inductive Fault where
  deriving DecidableEq, Repr

/-- The reasons the model refuses an instruction. -/
inductive Refusal where
  /-- Raised by an arm of `exec` that has no meaning yet; no arm does. Safe: a refused step proves
  nothing about the hardware. -/
  | notModelled (mnemonic : String)
  deriving DecidableEq, Repr

/-- The state right after power-on reset of an implementation with the parameters `b`: the column "after
power-on reset" of R43, and the model's own fields (log 3, 4, 5). -/
def State.resetOf (b : Build) : State where
  build := b
  irqEn := false
  done := false
  err := false
  overrun := false
  hazard := false
  errcode := .none
  lastop := 0
  arg := 0
  pv := false
  pn := 0
  seq := .idle
  mem := []
  inputs := []
  replies := []
  turn := .host
  turnDraws := 0
  readDraws := 0

/-- The state right after power-on reset, with the default parameters of R7 (log 2). -/
def State.reset : State := State.resetOf Build.default

end Sys2Proof.Machine
end

