-- ==== Sys2Proof/Machine/Float.lean ====
section
/-!
DEFINITION. The binary64 primitives of 00_scope.md R14 to R19. A finite value is an integer number of
units of 2^-1074, the smallest subnormal, so each operation is computed exactly on integers and narrowed
once, by `roundMag`. PRESUMED (log 10): where R15 says "IEEE 754", the results are those of that standard.
-/

namespace Sys2Proof.Machine

/-- The fields of a binary64 word (R14). -/
def signBit (w : Word) : Bool := w.msb
def expField (w : Word) : Nat := w.toNat / 2 ^ 52 % 2 ^ 11
def fracField (w : Word) : Nat := w.toNat % 2 ^ 52

def isNaN (w : Word) : Bool := expField w == 2047 && fracField w != 0
def isInf (w : Word) : Bool := expField w == 2047 && fracField w == 0

/-- `CNAN` of R15, `+0` of R19, and the two values of `INV` of R17. -/
def cnan : Word := 0x7FF8000000000000
def plusZero : Word := 0x0000000000000000
def plusOne : Word := 0x3FF0000000000000
def minusOne : Word := 0xBFF0000000000000

/-- The magnitude of a finite word, in units of 2^-1074. -/
def magUnits (w : Word) : Nat :=
  if expField w = 0 then fracField w else (2 ^ 52 + fracField w) * 2 ^ (expField w - 1)

/-- A finite word as a signed number of units of 2^-1074. -/
def units (w : Word) : Int := if signBit w then -(magUnits w : Int) else (magUnits w : Int)

/-- The magnitude bits (bits 62:0) of an infinity. -/
def infMag : Nat := 2047 * 2 ^ 52

/-- Bits 62:0 of the binary64 value nearest to the nonnegative number `p / q` units, ties to even (R15,
R18). `sh` is the number of units' bits below the last place kept; the biased exponent and the fraction
are then one number, `sh * 2^52` plus the rounded significand, and a carry out of the significand goes
into the exponent. A result above the largest finite value is an infinity. -/
def roundMag (p q : Nat) : Nat :=
  let k := p / q
  let sh := if k < 2 ^ 53 then 0 else Nat.log2 k - 52
  let d := q * 2 ^ sh
  let r := p / d
  let t := 2 * (p % d)
  let r' := if d < t ∨ (t = d ∧ r % 2 = 1) then r + 1 else r
  min (sh * 2 ^ 52 + r') infMag

/-- A word from its sign and its magnitude bits. -/
def pack (neg : Bool) (mag : Nat) : Word := BitVec.ofNat 64 ((if neg then 2 ^ 63 else 0) + mag)

/-- `fneg` (R16): bit 63 inverted, every other bit unchanged. -/
def fneg (a : Word) : Word := a ^^^ 0x8000000000000000

/-- `fadd` (R15). An exact sum of zero is `+0`, but `(-0) + (-0) = -0`. -/
def fadd (a b : Word) : Word :=
  if isNaN a || isNaN b then cnan
  else if isInf a then (if isInf b && signBit a != signBit b then cnan else a)
  else if isInf b then b
  else
    let z := units a + units b
    if z = 0 then pack (signBit a && signBit b) 0
    else pack (decide (z < 0)) (roundMag z.natAbs 1)

/-- `fsub` (R15): the sum with the second operand's sign flipped. -/
def fsub (a b : Word) : Word := fadd a (fneg b)

/-- `fmul` (R15). The sign of a product is the XOR of the operand signs. -/
def fmul (a b : Word) : Word :=
  let neg := signBit a != signBit b
  if isNaN a || isNaN b then cnan
  else if isInf a then (if isInf b || magUnits b != 0 then pack neg infMag else cnan)
  else if isInf b then (if magUnits a != 0 then pack neg infMag else cnan)
  else pack neg (roundMag (magUnits a * magUnits b) (2 ^ 1074))

/-- `fdiv` (R15). The sign of a quotient is the XOR of the operand signs. -/
def fdiv (a b : Word) : Word :=
  let neg := signBit a != signBit b
  if isNaN a || isNaN b then cnan
  else if isInf a then (if isInf b then cnan else pack neg infMag)
  else if isInf b then pack neg 0
  else if magUnits b = 0 then (if magUnits a = 0 then cnan else pack neg infMag)
  else pack neg (roundMag (magUnits a * 2 ^ 1074) (magUnits b))

/-- `RN(n)` of a natural number (R18). -/
def natWord (n : Nat) : Word := pack false (roundMag (n * 2 ^ 1074) 1)

end Sys2Proof.Machine
end

