-- ==== Sys2Proof/Machine/Tables.lean ====
section
/-!
DEFINITION. The derived quantities of a plan (10_state.md R36), the twiddle-factor ROM (40_plan_and_control.md
R77, R80) and the bit-reversal unit (R82), all functions of the plan size.
-/

namespace Sys2Proof.Machine

/-- The derived quantities of R36. -/
def csize (N : Nat) : Nat := 2 * N
def power (N : Nat) : Nat := Nat.log2 N
def width (N : Nat) : Nat := if power N % 2 = 0 then power N - 1 else power N
def len0 (N : Nat) : Nat := ((2 * N) >>> width N) <<< 1
def npass (N : Nat) : Nat := (width N - 1) / 2

/-! ### Bit reversal (R82) -/

/-- `BRT[j]` for a plan of the given WIDTH (R82): the 2-bit digits of `j` reversed above the single
leftover top bit. -/
def brtOfWidth (wd j : Nat) : Nat :=
  (List.range ((wd - 1) / 2)).foldl
    (fun acc g => acc ||| (((j >>> (2 * g)) &&& 3) <<< (wd - 2 - 2 * g)))
    ((j >>> (wd - 1)) &&& 1)

/-- `BR(t)` at plan size `N` (R82). -/
def brt (N t : Nat) : Nat := brtOfWidth (width N) t

/-! ### Twiddle factors (R77)

R77 gives each table entry as the correctly rounded value of an exact cosine or sine. They are computed
here from the half-angle and angle-sum formulas in fixed point with `fixBits` bits after the binary point,
and rounded once. That this precision is enough for correct rounding at every legal size is log 9. -/

/-- Bits after the binary point. -/
def fixBits : Nat := 192

/-- 1.0 in fixed point. -/
def fixOne : Nat := 2 ^ fixBits

/-- One Newton step towards the square root of `n`, repeated while it falls and fuel lasts. -/
def sqrtFrom (n : Nat) : Nat → Nat → Nat
  | 0, x => x
  | fuel + 1, x =>
    let y := (x + n / x) / 2
    if y < x then sqrtFrom n fuel y else x

/-- The integer square root of `n`, from a start above it. -/
def fixSqrt (n : Nat) : Nat := sqrtFrom n 16 (2 ^ (Nat.log2 n / 2 + 1))

/-- A point of the unit circle in the first quadrant: its cosine and sine in fixed point. -/
structure CirclePt where
  cos : Nat
  sin : Nat
  deriving DecidableEq, Repr

/-- The point at half the angle: `cos(a/2) = sqrt((1 + cos a)/2)`, `sin(a/2) = sin a / (2 cos(a/2))`. -/
def CirclePt.halve (p : CirclePt) : CirclePt :=
  let c := fixSqrt ((fixOne + p.cos) * 2 ^ (fixBits - 1))
  { cos := c, sin := p.sin * fixOne / (2 * c) }

/-- The point at the sum of two angles. -/
def CirclePt.turn (p q : CirclePt) : CirclePt :=
  { cos := (p.cos * q.cos - p.sin * q.sin) / fixOne
    sin := (p.sin * q.cos + p.cos * q.sin) / fixOne }

/-- The point at angle 0, and the point at a quarter turn. -/
def CirclePt.start : CirclePt := { cos := fixOne, sin := 0 }
def CirclePt.quarter : CirclePt := { cos := 0, sin := fixOne }

/-- Turn `acc` by the low `m` bits of `r`, where bit `m` stands for the angle of `unit`: the bits are taken
from the top, each standing for half the angle of the one before. -/
def rotate (r : Nat) : Nat → CirclePt → CirclePt → CirclePt
  | 0, _, acc => acc
  | m + 1, unit, acc =>
    let half := unit.halve
    rotate r m half (if r.testBit m then acc.turn half else acc)

/-- The point at angle `pi * r / 2^p` in the first octant, `r <= 2^p / 4`. -/
def octantPt (p r : Nat) : CirclePt := rotate r (p - 1) .quarter .start

/-- The point at angle `pi * r / 2^p` in the first quadrant, `r < 2^p / 2`; the second octant is the mirror
image of the first. -/
def quadrantPt (p r : Nat) : CirclePt :=
  if 4 * r ≤ 2 ^ p then octantPt p r
  else
    let q := octantPt p (2 ^ p / 2 - r)
    { cos := q.sin, sin := q.cos }

/-- `RN` of a signed fixed-point number; `RN(0) = +0` (R18). -/
def fixWord (neg : Bool) (v : Nat) : Word :=
  let m := roundMag (v * 2 ^ (1074 - fixBits)) 1
  pack (neg && m != 0) m

/-- `RN(cos(pi*i/N))` and `RN(sin(pi*i/N))` for `0 <= i < 2N`: the quadrant of the angle gives the signs. -/
def roundedCosSin (N i : Nat) : Word × Word :=
  let p := quadrantPt (power N) (i % (N / 2))
  match i * 2 / N with
  | 0 => (fixWord false p.cos, fixWord false p.sin)
  | 1 => (fixWord true p.sin, fixWord false p.cos)
  | 2 => (fixWord true p.cos, fixWord true p.sin)
  | _ => (fixWord false p.sin, fixWord true p.cos)

/-- `(TWT[i], TWT[i+1])` for even `i` (R77): the minus of the sine is the sign flip of the rounded sine. -/
def twPair (N i : Nat) : Word × Word :=
  let e := roundedCosSin N i
  (e.1, fneg e.2)

/-- `TWT[i]`, word `i` of the twiddle table at plan size `N` (R77). -/
def twt (N i : Nat) : Word :=
  if i % 2 = 0 then (twPair N i).1 else (twPair N (i - 1)).2

/-- The twiddle lookup unit `TW(k)` (R80). -/
def tw (N k : Nat) : Word × Word := (twt N (k % (2 * N)), twt N (k % (2 * N) + 1))

end Sys2Proof.Machine
end

