-- ==== Sys2Proof/Machine/Flags.lean ====
section
/-!
DEFINITION. The registers as the host reads them (10_state.md R26 to R34), the STATUS updates of R28 and R29,
and the interrupt output (R42, R115).
-/

namespace Sys2Proof.Machine

/-- The code of R109. -/
def ErrCode.code : ErrCode → BitVec 8
  | .none => 0
  | .invalidSize => 1
  | .aliasing => 2
  | .sizeUnsupported => 3
  | .noPlan => 4
  | .badBuffer => 5
  | .illegalCommand => 6

/-- STATUS.BUSY is 1 exactly when SEQ is RUNNING (R40). -/
def State.busy (s : State) : Bool :=
  match s.seq with
  | .idle => false
  | .running _ => true

/-- `irq = CTRL.IRQ_EN AND STATUS.DONE` (R42, R115). -/
def State.irq (s : State) : Bool := s.irqEn && s.done

/-! ### Register views -/

/-- ID (R26). -/
def State.idReg (s : State) : Word :=
  0#24 ++ BitVec.ofNat 8 s.build.nbuf ++ BitVec.ofNat 8 s.build.log2Nmax ++ 0x01#8 ++ 0xFF7E#16

/-- CTRL (R27): SOFT_RESET reads 0. -/
def State.ctrlReg (s : State) : Word := 0#63 ++ BitVec.ofBool s.irqEn

/-- STATUS (R28), from bit 63 down to bit 0. -/
def State.statusReg (s : State) : Word :=
  0#40 ++ s.lastop ++ s.errcode.code ++ 0#2 ++ BitVec.ofBool s.hazard ++ BitVec.ofBool s.overrun
    ++ BitVec.ofBool s.pv ++ BitVec.ofBool s.err ++ BitVec.ofBool s.done ++ BitVec.ofBool s.busy

/-- ARG (R31). -/
def State.argReg (s : State) : Word := 0#32 ++ s.arg

/-- PLAN_N (R33). -/
def State.planNReg (s : State) : Word := if s.pv then 0#32 ++ BitVec.ofNat 32 s.pn else 0

/-- PLAN_GEOM (R34). -/
def State.planGeomReg (s : State) : Word :=
  if s.pv then
    0#32 ++ BitVec.ofNat 8 (npass s.pn) ++ BitVec.ofNat 8 (len0 s.pn) ++ BitVec.ofNat 8 (width s.pn)
      ++ BitVec.ofNat 8 (power s.pn)
  else 0

/-- The register at byte offset `a` of region 0, or 0 where the offset is reserved (R24, R25, R52). CMD
reads 0 (R32). -/
def State.readRegister (s : State) (a : Nat) : Word :=
  match a with
  | 0x00 => s.idReg
  | 0x08 => s.ctrlReg
  | 0x10 => s.statusReg
  | 0x18 => s.argReg
  | 0x20 => 0
  | 0x28 => s.planNReg
  | 0x30 => s.planGeomReg
  | _ => 0

/-! ### STATUS updates -/

/-- A host write of `w` to STATUS (R29). -/
def State.writeStatus (s : State) (w : Word) : State :=
  { s with
    done := s.done && !w.getLsbD 1
    err := s.err && !w.getLsbD 2
    errcode := if w.getLsbD 2 then .none else s.errcode
    overrun := s.overrun && !w.getLsbD 4
    hazard := s.hazard && !w.getLsbD 5 }

/-- A host write of `w` to ARG: bits 63:32 are ignored (R31). -/
def State.writeArg (s : State) (w : Word) : State := { s with arg := w.setWidth 32 }

/-- What every CMD write while idle does before the checks (R28, R111). -/
def State.beginCheck (s : State) (op : BitVec 8) : State :=
  { s with lastop := op, done := false, err := false, errcode := .none }

/-- A CMD write while busy (R127). -/
def State.setOverrun (s : State) : State := { s with overrun := true }

/-- A data-window access while busy (R54). -/
def State.setHazard (s : State) : State := { s with hazard := true }

end Sys2Proof.Machine
end

