-- ==== Sys2Proof/Machine/Memory.lean ====
section
/-!
DEFINITION. The byte store that holds the buffer banks: reading a byte, and storing a run of bytes, on the
canonical form; 64-bit words in it, little-endian (20_memory.md R46). A word may be unspecified
(10_state.md R39), so words are read and stored as `Option Word`.
-/

namespace Sys2Proof.Machine

/-- The canonical form: addresses strictly rising. No entry can equal what an unlisted address reads as,
because that is no value. -/
abbrev Memory.wf (m : Memory) : Prop := m.Pairwise (fun a b => a.1 < b.1)

/-- What a byte that is not listed reads as: no value (R39, log 8). -/
def Memory.unlisted : Option Byte := none

/-- The byte at offset `a`. -/
def Memory.readByte (m : Memory) (a : Nat) : Option Byte :=
  match m.find? (fun c => c.1 == a) with
  | some c => some c.2
  | none => Memory.unlisted

/-- The cells of a run of bytes from offset `a` on; a byte with no value has no cell. -/
def cellsFrom : Nat → List (Option Byte) → Memory
  | _, [] => []
  | a, none :: bs => cellsFrom (a + 1) bs
  | a, some b :: bs => (a, b) :: cellsFrom (a + 1) bs

/-- Store a run of bytes at offset `a`: the cells below, the run's cells, the cells above. -/
def Memory.store (m : Memory) (a : Nat) (bs : List (Option Byte)) : Memory :=
  m.filter (fun c => decide (c.1 < a)) ++ cellsFrom a bs
    ++ m.filter (fun c => decide (a + bs.length ≤ c.1))

/-- Byte `j` of a word carries bits `8j+7 : 8j` (R46). -/
def bytesOfWord (w : Word) : List Byte := (List.range 8).map fun j => w.extractLsb' (8 * j) 8

/-- The word whose bytes are given, the lowest address first (R46). -/
def wordOfBytes (bs : List Byte) : Word :=
  BitVec.ofNat 64 (bs.foldr (fun b n => b.toNat + 2 ^ 8 * n) 0)

/-- The bytes of a word to store; an unspecified word has 8 bytes with no value. -/
def optBytes : Option Word → List (Option Byte)
  | some w => (bytesOfWord w).map some
  | none => List.replicate 8 none

/-- The list of the values, where all of them are there. -/
def allSome {α : Type} : List (Option α) → Option (List α)
  | [] => some []
  | none :: _ => none
  | some x :: xs => (allSome xs).map (x :: ·)

/-- The word at offset `a`, or no value. -/
def Memory.readWord (m : Memory) (a : Nat) : Option Word :=
  (allSome ((List.range 8).map fun j => m.readByte (a + j))).map wordOfBytes

/-- Store a run of words at offset `a`, one after another. -/
def Memory.storeWords (m : Memory) (a : Nat) (ws : List (Option Word)) : Memory :=
  m.store a (ws.flatMap optBytes)

end Sys2Proof.Machine
end

