-- ==== Sys2Proof/WellFormed.lean ====
section
/-!
DEFINITION. Which commands a command word can hold: every bank operand fits its 4-bit field
(30_encoding.md R64, R66). That a bank number is below NBUF is no matter of form: it is checked at
acceptance (60_exceptions.md R111).
-/

namespace Sys2Proof

/-- A bank operand fits the fields DST = w[11:8] and SRC = w[15:12]. -/
def bankFits (b : Nat) : Bool := decide (b < 16)

/-- Every operand of the command fits its field. -/
def Instr.wellFormed : Instr → Bool
  | .nop => true
  | .plan => true
  | .fwd d s => bankFits d && bankFits s
  | .inv d s => bankFits d && bankFits s
  | .rfwd d s => bankFits d && bankFits s
  | .r2c d s => bankFits d && bankFits s
  | .c2r d s => bankFits d && bankFits s
  | .clr d => bankFits d
  | .cspec d => bankFits d

end Sys2Proof
end

