-- ==== Sys2Proof/Decode.lean ====
section
/-!
DEFINITION. Decoding a command word (30_encoding.md R64, R65, R67, R68), total on all 2^64 words, and
the encoder after it (R70).
-/

namespace Sys2Proof

/-- The fields of a command word (R64). -/
def opField (w : Word) : BitVec 8 := w.extractLsb' 0 8
def dstField (w : Word) : Nat := (w.extractLsb' 8 4).toNat
def srcField (w : Word) : Nat := (w.extractLsb' 12 4).toNat
def rsvdField (w : Word) : BitVec 48 := w.extractLsb' 16 48

/-- Why a word is ILLEGAL, the three cases of R68. -/
inductive DecodeError where
  /-- OP is in 0x09..0xFF. -/
  | reservedOpcode
  /-- Bits 63:16 are not all 0. -/
  | reservedBits
  /-- A field the opcode's format does not use is not 0 (R65). -/
  | unusedField
  deriving DecidableEq, Repr

/-- Format F0 uses neither DST nor SRC (R65). -/
def formatF0 (i : Instr) (d s : Nat) : Except DecodeError Instr :=
  if d ≠ 0 ∨ s ≠ 0 then .error .unusedField else .ok i

/-- Format F1 uses DST only (R65). -/
def formatF1 (i : Nat → Instr) (d s : Nat) : Except DecodeError Instr :=
  if s ≠ 0 then .error .unusedField else .ok (i d)

/-- The decoder of R67. -/
def decode (w : Word) : Except DecodeError Instr :=
  let d := dstField w
  let s := srcField w
  if rsvdField w ≠ 0 then .error .reservedBits
  else match (opField w).toNat with
    | 0x00 => formatF0 .nop d s
    | 0x01 => formatF0 .plan d s
    | 0x02 => .ok (.fwd d s)
    | 0x03 => .ok (.inv d s)
    | 0x04 => .ok (.rfwd d s)
    | 0x05 => .ok (.r2c d s)
    | 0x06 => .ok (.c2r d s)
    | 0x07 => formatF1 .clr d s
    | 0x08 => formatF1 .cspec d s
    | _ => .error .reservedOpcode

/-- The opcode of a command (R67). -/
def Instr.opcode : Instr → BitVec 8
  | .nop => 0x00
  | .plan => 0x01
  | .fwd _ _ => 0x02
  | .inv _ _ => 0x03
  | .rfwd _ _ => 0x04
  | .r2c _ _ => 0x05
  | .c2r _ _ => 0x06
  | .clr _ => 0x07
  | .cspec _ => 0x08

/-- The encodings of R70: `zext_64({S[3:0], D[3:0], OP[7:0]})`, an unused field 0. -/
def encodeFields (op : BitVec 8) (d s : Nat) : Word :=
  BitVec.setWidth 64 (BitVec.ofNat 4 s ++ BitVec.ofNat 4 d ++ op)

/-- The word of a well-formed command (R70). -/
def encode (i : Instr) : Word :=
  match i with
  | .nop => encodeFields i.opcode 0 0
  | .plan => encodeFields i.opcode 0 0
  | .fwd d s => encodeFields i.opcode d s
  | .inv d s => encodeFields i.opcode d s
  | .rfwd d s => encodeFields i.opcode d s
  | .r2c d s => encodeFields i.opcode d s
  | .c2r d s => encodeFields i.opcode d s
  | .clr d => encodeFields i.opcode d 0
  | .cspec d => encodeFields i.opcode d 0

/-- The decoder's answer on the instruction whose bits are `w`, numbered as the opcode table numbers
them. Every command is one 64-bit word (R69), so nothing is laid out but the word itself. -/
def decodeTableWord (nbits w : Nat) : Option Instr :=
  if nbits ≤ 64 then (decode (BitVec.ofNat 64 (w % 2 ^ nbits))).toOption else none

end Sys2Proof
end

