-- ==== Sys2Proof/Machine/Operands.lean ====
section
/-!
DEFINITION. The operands of a command: its bank numbers (30_encoding.md R65, R66), PLAN's size
(40_plan_and_control.md R74), and the call context made from them (10_state.md R40).
-/

namespace Sys2Proof.Machine

/-- The DST operand, for a format that uses it (R65). -/
def dstOf : Instr → Option Nat
  | .nop => none
  | .plan => none
  | .fwd d _ => some d
  | .inv d _ => some d
  | .rfwd d _ => some d
  | .r2c d _ => some d
  | .c2r d _ => some d
  | .clr d => some d
  | .cspec d => some d

/-- The SRC operand, for a format that uses it (R65). -/
def srcOf : Instr → Option Nat
  | .nop => none
  | .plan => none
  | .fwd _ s => some s
  | .inv _ s => some s
  | .rfwd _ s => some s
  | .r2c _ s => some s
  | .c2r _ s => some s
  | .clr _ => none
  | .cspec _ => none

/-- Every command other than NOP and PLAN needs a plan (R111, D43). -/
def needsPlan : Instr → Bool
  | .nop => false
  | .plan => false
  | .fwd _ _ => true
  | .inv _ _ => true
  | .rfwd _ _ => true
  | .r2c _ _ => true
  | .c2r _ _ => true
  | .clr _ => true
  | .cspec _ => true

/-- The commands that require distinct banks (R111): FWD, INV and RFWD. -/
def isTransform : Instr → Bool
  | .nop => false
  | .plan => false
  | .fwd _ _ => true
  | .inv _ _ => true
  | .rfwd _ _ => true
  | .r2c _ _ => false
  | .c2r _ _ => false
  | .clr _ => false
  | .cspec _ => false

/-- `n = sint32(ARG[31:0])` (R31). -/
def sizeOperand (s : State) : Int := s.arg.toInt

/-- `valid_size(n)` of R74, on the 32-bit two's-complement pattern of `n`: `n > 1` and `n & (n-1) = 0`. -/
def validSize (arg : BitVec 32) : Bool := decide (1 < arg.toInt) && (arg &&& (arg - 1)) == 0

/-- `ctx.op` of a command; NOP never runs (R40). -/
def opOf : Instr → Option Op
  | .nop => none
  | .plan => some .plan
  | .fwd _ _ => some .fwd
  | .inv _ _ => some .inv
  | .rfwd _ _ => some .rfwd
  | .r2c _ _ => some .r2c
  | .c2r _ _ => some .c2r
  | .clr _ => some .clr
  | .cspec _ => some .cspec

/-- The context a command runs with: `dst` and `src` are the fields of its word, `inv` is -1.0 for INV and
+1.0 for every other command, and `n` is latched from ARG for PLAN (R40, R111, log 7). -/
def ctxOf (op : Op) (i : Instr) (s : State) : Ctx where
  op := op
  dst := (dstOf i).getD 0
  src := (srcOf i).getD 0
  inv := if op = .inv then .inverse else .forward
  n := if op = .plan then (sizeOperand s).toNat else 0

end Sys2Proof.Machine
end

