-- ==== Sys2Proof/Machine/Ops.lean ====
section
/-!
DEFINITION. The shared operations of the machine: the buffer banks (10_state.md R38), the acceptance of a
command and its rejection with an error, which is FFTE's way of taking an exception (60_exceptions.md
R111 to R113), the completion (R114), the footprints (70_reset_and_hazards.md R125), soft reset (R123) and
power-on reset (R122). FFTE has no trap entry and no return from one (R117, R118).
-/

namespace Sys2Proof.Machine

/-! ### Buffer banks -/

/-- The offset of word `i` of bank `b`: `(4+b)S + 8i` (R47). -/
def bankAddr (bd : Build) (b i : Nat) : Nat := (4 + b) * bd.regionSize + 8 * i

/-- `BUF[b][i]`, or no value where the word is unspecified (R38, R39). -/
def State.bankWord (s : State) (b i : Nat) : Option Word := s.mem.readWord (bankAddr s.build b i)

/-- `snapshot(b, 0, n)` (R13): the first `n` words of bank `b`. -/
def State.snapshot (s : State) (b n : Nat) : List (Option Word) := (List.range n).map (s.bankWord b)

/-- `BUF[b][lo], BUF[b][lo+1], ... <- ws`. -/
def State.storeBank (s : State) (b lo : Nat) (ws : List (Option Word)) : State :=
  { s with mem := s.mem.storeWords (bankAddr s.build b lo) ws }

/-! ### Acceptance and rejection -/

/-- The acceptance checks on a decoded command, in the order of R111 and R112: the first condition that
holds is the error reported. -/
def acceptError (i : Instr) (s : State) : Option ErrCode :=
  if needsPlan i && !s.pv then some .noPlan
  else if (dstOf i).any (fun d => decide (s.build.nbuf ≤ d)) then some .badBuffer
  else if (srcOf i).any (fun x => decide (s.build.nbuf ≤ x)) then some .badBuffer
  else if isTransform i && dstOf i == srcOf i then some .aliasing
  else if i = .plan ∧ validSize s.arg = false then some .invalidSize
  else if i = .plan ∧ (s.build.nmax : Int) < sizeOperand s then some .sizeUnsupported
  else none

/-- `raise Error(c)` (R113): ends the acceptance; SEQ stays IDLE. -/
def State.raiseError (s : State) (c : ErrCode) : State := { s with err := true, errcode := c, done := true }

/-- `accept(w)` of R111 for a word that decodes to `i`. -/
def State.accept (s : State) (i : Instr) : State :=
  let s1 := s.beginCheck i.opcode
  match acceptError i s with
  | some c => s1.raiseError c
  | none =>
    match opOf i with
    | none => { s1 with done := true }
    | some op => { s1 with seq := .running (ctxOf op i s) }

/-- A CMD write of a word that decodes to `i` (R32): accepted or rejected while idle, discarded while busy. -/
def State.issue (s : State) (i : Instr) : State := if s.busy then s.setOverrun else s.accept i

/-- A CMD write of a word that is ILLEGAL (R68, R111, R127). -/
def State.issueIllegal (s : State) (w : Word) : State :=
  if s.busy then s.setOverrun else (s.beginCheck (opField w)).raiseError .illegalCommand

/-! ### Completion -/

/-- What every completion does after the command's own pseudocode (R114). -/
def State.finish (s : State) : State := { s with seq := .idle, done := true }

/-- `complete()` of R114 for the command `i`, whose pseudocode is `body`: enabled while SEQ is RUNNING with
the context of `i`; otherwise the engine has no step to make (log 14). -/
def State.complete (s : State) (i : Instr) (body : Ctx → State → State) : State :=
  match s.seq with
  | .idle => s
  | .running c => if c.instr = i then (body c s).finish else s

/-- The two steps of every command (40_plan_and_control.md; log 1): the host's step issues it, the engine's
step completes it. -/
def command (i : Instr) (body : Ctx → State → State) (s : State) : Host.Outcome State Fault Refusal :=
  match s.turn with
  | .host => .next (s.issue i)
  | .engine => .next (s.complete i body)

/-! ### Footprints and resets -/

/-- A run of words of a bank: bank, first word, number of words. -/
structure Span where
  bank : Nat
  lo : Nat
  len : Nat
  deriving DecidableEq, Repr

/-- The bank words a running command writes, with `N = PN` (R125). PLAN writes none. -/
def writeSpan (c : Ctx) (N : Nat) : Span :=
  match c.op with
  | .plan => { bank := c.dst, lo := 0, len := 0 }
  | .fwd => { bank := c.dst, lo := 0, len := 2 * N }
  | .inv => { bank := c.dst, lo := 0, len := 2 * N }
  | .rfwd => { bank := c.dst, lo := 0, len := 2 * N }
  | .r2c => { bank := c.dst, lo := 0, len := 2 * N }
  | .c2r => { bank := c.dst, lo := 0, len := N }
  | .clr => { bank := c.dst, lo := 0, len := 2 * N }
  | .cspec => { bank := c.dst, lo := N + 2, len := N - 2 }

/-- The write footprint of an aborted command becomes unspecified (R123). -/
def State.abortWrites (s : State) : State :=
  match s.seq with
  | .idle => s
  | .running c =>
    let f := writeSpan c s.pn
    s.storeBank f.bank f.lo (List.replicate f.len none)

/-- `soft_reset()` (R123). -/
def State.softReset (s : State) : State :=
  { s.abortWrites with
    seq := .idle
    irqEn := false
    done := false
    err := false
    overrun := false
    hazard := false
    errcode := .none
    lastop := 0
    arg := 0
    pv := false
    pn := 0 }

/-- A host write of `w` to CTRL (R27). -/
def State.writeCtrl (s : State) (w : Word) : State :=
  if w.getLsbD 1 then s.softReset else { s with irqEn := w.getLsbD 0 }

/-- Power-on reset (R122): every piece of the spec's state takes its reset value. What the port has given
and still holds, and the counters of the free values, are the model's own and stay (log 12). -/
def State.powerOn (s : State) : State :=
  { State.resetOf s.build with
    inputs := s.inputs
    replies := s.replies
    turn := s.turn
    turnDraws := s.turnDraws
    readDraws := s.readDraws }

end Sys2Proof.Machine
end

