-- ==== Sys2Proof/Machine/Control.lean ====
section
/-!
DEFINITION. NOP and PLAN (40_plan_and_control.md §1).
-/

namespace Sys2Proof.Machine

/-- NOP (R73): completes at acceptance, so the engine never has a step of it to make. -/
def execNop (s : State) : Host.Outcome State Fault Refusal :=
  command .nop (fun _ s => s) s

/-- PLAN, completion (R75): `PN <- ctx.n; PV <- 1`. -/
def planBody (c : Ctx) (s : State) : State := { s with pn := c.n, pv := true }

/-- PLAN (R75). -/
def execPlan (s : State) : Host.Outcome State Fault Refusal :=
  command .plan planBody s

end Sys2Proof.Machine
end

