-- ==== Sys2Proof/Machine/Engine.lean ====
section
/-!
DEFINITION. The butterfly engine: the kernels, the first phase and the combining phase
(42_complex_engine.md R90 to R98, 43_real_engine.md R103 to R105). They are written once over a structure
of arithmetic operations: FFTE runs them with the binary64 operations (`binary64`); the spec also says
what they compute in exact arithmetic (R102).
-/

namespace Sys2Proof.Machine

/-- The operations the engine uses. -/
structure Arith (α : Type) where
  add : α → α → α
  sub : α → α → α
  mul : α → α → α
  neg : α → α
  zero : α

/-- FFTE's arithmetic (R15, R16, R19). -/
def binary64 : Arith Word :=
  { add := fadd, sub := fsub, mul := fmul, neg := fneg, zero := plusZero }

/-- `inv` as a word (R40). -/
def Direction.word : Direction → Word
  | .forward => plusOne
  | .inverse => minusOne

section Kernels

variable {α : Type} (A : Arith α)

/-- RADIX2 (R92): left = even + odd, right = even - odd. -/
def radix2 (even odd : α × α) : List α :=
  [A.add even.1 odd.1, A.add even.2 odd.2, A.sub even.1 odd.1, A.sub even.2 odd.2]

/-- The four complex outputs of the radix-4 kernel, in the order they are written. -/
structure Quad (α : Type) where
  fa : α × α
  fb : α × α
  fc : α × α
  fd : α × α

/-- The eight words of the outputs (R93). -/
def Quad.words (k : Quad α) : List α :=
  [k.fa.1, k.fa.2, k.fb.1, k.fb.2, k.fc.1, k.fc.2, k.fd.1, k.fd.2]

/-- RADIX4 (R93). -/
def radix4 (a b c d : α × α) (inv : α) : Quad α :=
  let t0r := A.add a.1 c.1
  let t0i := A.add a.2 c.2
  let t1r := A.sub a.1 c.1
  let t1i := A.sub a.2 c.2
  let t2r := A.add b.1 d.1
  let t2i := A.add b.2 d.2
  let t3r := A.mul inv (A.sub b.1 d.1)
  let t3i := A.mul inv (A.sub b.2 d.2)
  { fa := (A.add t0r t2r, A.add t0i t2i)
    fb := (A.add t1r t3i, A.sub t1i t3r)
    fc := (A.sub t0r t2r, A.sub t0i t2i)
    fd := (A.sub t1r t3i, A.add t1i t3r) }

/-- RADIX2R (R103). -/
def radix2r (e o : α) : List α := [A.add e o, A.zero, A.sub e o, A.zero]

/-- RADIX4R (R104). -/
def radix4r (a b c d inv : α) : List α :=
  let t0 := A.add a c
  let t1 := A.sub a c
  let t2 := A.add b d
  let t3 := A.mul inv (A.sub b d)
  [A.add t0 t2, A.zero, t1, A.neg t3, A.sub t0 t2, A.zero, t1, t3]

/-- CMUL (R95); `tw` is the twiddle lookup of R80. -/
def cmul (tw : Nat → α × α) (x : α × α) (k : Nat) (inv : α) : α × α :=
  let tr := (tw k).1
  let ti := A.mul inv (tw k).2
  (A.sub (A.mul x.1 tr) (A.mul x.2 ti), A.add (A.mul x.1 ti) (A.mul x.2 tr))

end Kernels

section Phases

variable {α : Type} (A : Arith α)

/-- Word `i` of a buffer held as the list of its words. -/
def wordOf (Y : List α) (i : Nat) : α := Y.getD i A.zero

/-- The complex sample whose words are `Y[i]` and `Y[i+1]` (R20). -/
def sampleOf (Y : List α) (i : Nat) : α × α := (wordOf A Y i, wordOf A Y (i + 1))

/-- PHASE1 (R94) on the input words `X`. Group `t` writes `Y[t*len .. t*len + len - 1]`, so the words of `Y`
in rising order are the groups' words one after another. -/
def phase1 (N : Nat) (inv : α) (X : List α) : List α :=
  let step := 2 ^ width N
  (List.range (2 ^ (width N - 1))).flatMap fun t =>
    let off := brt N t
    if len0 N = 4 then radix2 A (sampleOf A X off) (sampleOf A X (off + step))
    else (radix4 A (sampleOf A X off) (sampleOf A X (off + step)) (sampleOf A X (off + 2 * step))
      (sampleOf A X (off + 3 * step)) inv).words

/-- PHASE1R (R105) on the real input words `X`; the stride is `h = step >> 1` with `step = 2^WIDTH`. -/
def phase1r (N : Nat) (inv : α) (X : List α) : List α :=
  let h := (2 ^ width N) >>> 1
  (List.range (2 ^ (width N - 1))).flatMap fun t =>
    let off := brt N t >>> 1
    if len0 N = 4 then radix2r A (wordOf A X off) (wordOf A X (off + h))
    else radix4r A (wordOf A X off) (wordOf A X (off + h)) (wordOf A X (off + 2 * h))
      (wordOf A X (off + 3 * h)) inv

/-- `Y[i] <- re; Y[i+1] <- im`. -/
def putSample (Y : List α) (i : Nat) (z : α × α) : List α := (Y.set i z.1).set (i + 1) z.2

/-- One position of a combining pass (R96): the block starts at word `outOff`, a quarter of it is `q` words,
the position is the block's sample `m`, so `k = s * m`. -/
def butterfly (tw : Nat → α × α) (inv : α) (s q outOff : Nat) (Y : List α) (m : Nat) : List α :=
  let a := outOff + 2 * m
  let b := a + q
  let c := b + q
  let d := c + q
  let k := s * m
  let mb := cmul A tw (sampleOf A Y b) k inv
  let mc := cmul A tw (sampleOf A Y c) (2 * k) inv
  let md := cmul A tw (sampleOf A Y d) (3 * k) inv
  let f := radix4 A (sampleOf A Y a) mb mc md inv
  putSample (putSample (putSample (putSample Y a f.fa) b f.fb) c f.fc) d f.fd

/-- One combining pass with stride `s` (R91, R96): every position of every block, in place. -/
def pass (tw : Nat → α × α) (inv : α) (N : Nat) (Y : List α) (s : Nat) : List α :=
  let len := 2 * N / s * 2
  (List.range (2 * N / len)).foldl
    (fun Y blk => (List.range (len / 8)).foldl (butterfly A tw inv s (len / 4) (blk * len)) Y) Y

/-- The strides of the combining passes, `2^WIDTH / 4^m` for `m = 1 .. NPASS` (R91). -/
def strides (N : Nat) : List Nat := (List.range (npass N)).map fun m => 2 ^ width N / 4 ^ (m + 1)

/-- PHASE2 (R96). -/
def phase2 (tw : Nat → α × α) (inv : α) (N : Nat) (Y : List α) : List α :=
  (strides N).foldl (pass A tw inv N) Y

/-- ENGINE (R98): the words `Y[0 .. 2N-1]` from the words `X[0 .. 2N-1]`. -/
def engine (tw : Nat → α × α) (N : Nat) (inv : α) (X : List α) : List α :=
  phase2 A tw inv N (phase1 A N inv X)

/-- The two phases of RFWD (R106): the words `Y[0 .. 2N-1]` from the real words `X[0 .. N-1]`. -/
def engineR (tw : Nat → α × α) (N : Nat) (inv : α) (X : List α) : List α :=
  phase2 A tw inv N (phase1r A N inv X)

end Phases

end Sys2Proof.Machine
end

