-- ==== Sys2Proof/Machine/Transforms.lean ====
section
/-!
DEFINITION. The transforms FWD and INV (42_complex_engine.md R100, R101) and RFWD (43_real_engine.md R106).
`N = PN`, `X` is bank `ctx.src`, `Y` is bank `ctx.dst`.
-/

namespace Sys2Proof.Machine

/-- Run a transform `f` on the first `nIn` words of `X` and store its `2N` words in `Y`. If one of the words
read is unspecified, every word written becomes unspecified (R126). -/
def transform (c : Ctx) (s : State) (nIn : Nat) (f : List Word → List Word) : State :=
  match allSome (s.snapshot c.src nIn) with
  | some X => s.storeBank c.dst 0 ((f X).map some)
  | none => s.storeBank c.dst 0 (List.replicate (2 * s.pn) none)

/-- FWD on words: `ENGINE(inv)` (R98, R100). -/
def fwdWords (N : Nat) (inv : Word) (X : List Word) : List Word := engine binary64 (tw N) N inv X

/-- INV on words: `ENGINE(inv)`, then `Y[i] <- fdiv(Y[i], RN(N))` (R101). -/
def invWords (N : Nat) (inv : Word) (X : List Word) : List Word :=
  (engine binary64 (tw N) N inv X).map fun y => fdiv y (natWord N)

/-- RFWD on words: `PHASE1R(inv)`, `PHASE2(inv)` (R106). -/
def rfwdWords (N : Nat) (inv : Word) (X : List Word) : List Word := engineR binary64 (tw N) N inv X

/-- FWD, completion (R100). -/
def fwdBody (c : Ctx) (s : State) : State := transform c s (2 * s.pn) (fwdWords s.pn c.inv.word)

/-- FWD (R100). -/
def execFwd (dst src : Nat) (s : State) : Host.Outcome State Fault Refusal :=
  command (.fwd dst src) fwdBody s

/-- INV, completion (R101). -/
def invBody (c : Ctx) (s : State) : State := transform c s (2 * s.pn) (invWords s.pn c.inv.word)

/-- INV (R101). -/
def execInv (dst src : Nat) (s : State) : Host.Outcome State Fault Refusal :=
  command (.inv dst src) invBody s

/-- RFWD, completion (R106). -/
def rfwdBody (c : Ctx) (s : State) : State := transform c s s.pn (rfwdWords s.pn c.inv.word)

/-- RFWD (R106). -/
def execRfwd (dst src : Nat) (s : State) : Host.Outcome State Fault Refusal :=
  command (.rfwd dst src) rfwdBody s

end Sys2Proof.Machine
end

