-- ==== Sys2Proof/Machine/Utilities.lean ====
section
/-!
DEFINITION. The buffer converters, the zero-fill and the spectrum completion (41_buffer_utilities.md). They
copy words bit-exactly, unspecified words included (70_reset_and_hazards.md R126), write `+0.0`, or flip a
sign bit. `N = PN`.
-/

namespace Sys2Proof.Machine

/-- R2C, completion (R85): `BUF[dst][2k] <- R[k]; BUF[dst][2k+1] <- +0.0`. -/
def r2cBody (c : Ctx) (s : State) : State :=
  s.storeBank c.dst 0 ((s.snapshot c.src s.pn).flatMap fun r => [r, some plusZero])

/-- R2C (R85). -/
def execR2c (dst src : Nat) (s : State) : Host.Outcome State Fault Refusal :=
  command (.r2c dst src) r2cBody s

/-- C2R, completion (R86): `BUF[dst][k] <- C[2k]`. -/
def c2rBody (c : Ctx) (s : State) : State :=
  let C := s.snapshot c.src (2 * s.pn)
  s.storeBank c.dst 0 ((List.range s.pn).map fun k => C.getD (2 * k) none)

/-- C2R (R86). -/
def execC2r (dst src : Nat) (s : State) : Host.Outcome State Fault Refusal :=
  command (.c2r dst src) c2rBody s

/-- CLR, completion (R87): `BUF[dst][i] <- +0.0` for `i < 2N`. -/
def clrBody (c : Ctx) (s : State) : State :=
  s.storeBank c.dst 0 (List.replicate (2 * s.pn) (some plusZero))

/-- CLR (R87). -/
def execClr (dst : Nat) (s : State) : Host.Outcome State Fault Refusal :=
  command (.clr dst) clrBody s

/-- CSPEC, completion (R88): for `i = 2, 4, .., N-2`, word `2N-i` takes word `i` and word `2N-i+1` takes
`fneg` of word `i+1`. Only words below `N` are read and only words `N+2 .. 2N-1` are written, so the
written words are given here in rising order: `i = N-2` first, `i = 2` last. -/
def cspecBody (c : Ctx) (s : State) : State :=
  let D := s.snapshot c.dst s.pn
  s.storeBank c.dst (s.pn + 2) ((List.range (s.pn / 2 - 1)).flatMap fun t =>
    let i := s.pn - 2 - 2 * t
    [D.getD i none, (D.getD (i + 1) none).map fneg])

/-- CSPEC (R88). -/
def execCspec (dst : Nat) (s : State) : Host.Outcome State Fault Refusal :=
  command (.cspec dst) cspecBody s

end Sys2Proof.Machine
end

