-- ==== Sys2Proof/Machine/Dispatch.lean ====
section
/-!
DEFINITION. One arm for each command, each a direct call of its meaning.
-/

namespace Sys2Proof.Machine

def exec (i : Instr) (s : State) : Host.Outcome State Fault Refusal :=
  match i with
  | .nop => Sys2Proof.Machine.execNop s
  | .plan => Sys2Proof.Machine.execPlan s
  | .fwd dst src => Sys2Proof.Machine.execFwd dst src s
  | .inv dst src => Sys2Proof.Machine.execInv dst src s
  | .rfwd dst src => Sys2Proof.Machine.execRfwd dst src s
  | .r2c dst src => Sys2Proof.Machine.execR2c dst src s
  | .c2r dst src => Sys2Proof.Machine.execC2r dst src s
  | .clr dst => Sys2Proof.Machine.execClr dst s
  | .cspec dst => Sys2Proof.Machine.execCspec dst s

end Sys2Proof.Machine
end

