-- ==== Sys2Proof/Machine/Bus.lean ====
section
/-!
DEFINITION. The host bus: where an access lands (20_memory.md R44, R45, R47), the read and write dispatch
(R52, R53), and the busy rule of the data windows (R54).
-/

namespace Sys2Proof.Machine

/-- Where an access lands. -/
inductive Place where
  /-- Not in `[BASE, BASE + 32*S)` (R44). -/
  | outside
  /-- Misaligned, or not 8 bytes wide (R45). -/
  | busError
  /-- A whole aligned word at byte offset `a` of the aperture. -/
  | word (a : Nat)
  deriving DecidableEq, Repr

/-- Where an access of `size` bytes at bus address `addr` lands. -/
def placeOf (b : Build) (addr size : Nat) : Place :=
  if addr < b.base ∨ b.base + b.aperture ≤ addr then .outside
  else if size ≠ 8 ∨ (addr - b.base) % 8 ≠ 0 then .busError
  else .word (addr - b.base)

/-- The kinds of word the aperture holds (R47). -/
inductive Window where
  /-- Region 0: the register block and its reserved rest. -/
  | register (a : Nat)
  /-- Region 1, word `i`. -/
  | twiddle (i : Nat)
  /-- Region 2, word `j < NMAX`. -/
  | bitReversal (j : Nat)
  /-- Region `4 + b`, word `i` of bank `b < NBUF`. -/
  | bank (b i : Nat)
  /-- Every other offset. -/
  | reserved
  deriving DecidableEq, Repr

/-- The window of the word at offset `a` (R47, R52). -/
def windowOf (b : Build) (a : Nat) : Window :=
  let region := a / b.regionSize
  let w := a % b.regionSize / 8
  if region = 0 then .register a
  else if region = 1 then .twiddle w
  else if region = 2 then (if b.nmax ≤ w then .reserved else .bitReversal w)
  else if 4 ≤ region ∧ region < 4 + b.nbuf then .bank (region - 4) w
  else .reserved

/-- The port gives a response (R44). -/
def State.reply (s : State) (r : Reply) : State := { s with replies := r :: s.replies }

/-- The twiddle window, word `i` (R48). -/
def State.twiddleWindow (s : State) (i : Nat) : Word := if s.pv ∧ i < 2 * s.pn then twt s.pn i else 0

/-- The bit-reversal window, word `j` (R49). -/
def State.bitReversalWindow (s : State) (j : Nat) : Word :=
  if s.pv ∧ j < 2 ^ width s.pn then BitVec.ofNat 64 (brt s.pn j) else 0

/-- A read of bank word `i` of bank `b`: the 64 bits stored or, if the word is unspecified, a free value, a
new one for each such read (R50, R126, log 4). -/
def State.readBank (s : State) (b i : Nat) : State :=
  match s.bankWord b i with
  | some w => s.reply (.data w)
  | none => { s with readDraws := s.readDraws + 1 }.reply (.data (Config.freeWord s.readDraws))

/-- A read of a data window while busy: refused with 0, and HAZARD is set (R54). -/
def State.refuseRead (s : State) : State := s.setHazard.reply (.data 0)

/-- `MemRead(a, 8)` (R52). -/
def State.memRead (s : State) (a : Nat) : State :=
  match windowOf s.build a with
  | .register r => s.reply (.data (s.readRegister r))
  | .twiddle i => if s.busy then s.refuseRead else s.reply (.data (s.twiddleWindow i))
  | .bitReversal j => if s.busy then s.refuseRead else s.reply (.data (s.bitReversalWindow j))
  | .bank b i => if s.busy then s.refuseRead else s.readBank b i
  | .reserved => s.reply (.data 0)

/-- A host write of `w` to CMD (R32): the command it decodes to, or the rejection of an ILLEGAL word. -/
def writeCmd (w : Word) (s : State) : Host.Outcome State Fault Refusal :=
  match decode w with
  | .ok i => exec i s
  | .error _ => .next (s.issueIllegal w)

/-- A write to offset `a` of region 0 (R53): any other offset is read-only or reserved, and ignored (R25). -/
def writeRegister (a : Nat) (v : Word) (s : State) : Host.Outcome State Fault Refusal :=
  match a with
  | 0x08 => .next (s.writeCtrl v)
  | 0x10 => .next (s.writeStatus v)
  | 0x18 => .next (s.writeArg v)
  | 0x20 => writeCmd v s
  | _ => .next s

/-- `MemWrite(a, 8, v)` (R53). -/
def memWrite (a : Nat) (v : Word) (s : State) : Host.Outcome State Fault Refusal :=
  match windowOf s.build a with
  | .register r => writeRegister r v s
  | .twiddle _ => .next (if s.busy then s.setHazard else s)
  | .bitReversal _ => .next (if s.busy then s.setHazard else s)
  | .bank b i => .next (if s.busy then s.setHazard else s.storeBank b i [some v])
  | .reserved => .next s

/-- Serve one input at the port. -/
def serve (i : Input) (s : State) : Host.Outcome State Fault Refusal :=
  match i with
  | .powerOn => .next s.powerOn
  | .read addr size =>
    match placeOf s.build addr size with
    | .outside => .next (s.reply .outside)
    | .busError => .next (s.reply .busError)
    | .word a => .next (s.memRead a)
  | .write addr size v =>
    match placeOf s.build addr size with
    | .outside => .next (s.reply .outside)
    | .busError => .next (s.reply .busError)
    | .word a => memWrite a v (s.reply .okay)

end Sys2Proof.Machine
end

