-- ==== Sys2Proof/Machine/Arbiter.lean ====
section
/-!
DEFINITION. Who makes the next step (60_exceptions.md R116), the two agents' steps, and the placing of a
command where the next step takes it.
-/

namespace Sys2Proof.Machine

/-- The steps that can be next. -/
inductive Move where
  /-- Nothing waits and nothing runs: "an idle FFTE does nothing until the next host access" (R121). -/
  | rest
  /-- The host's oldest input is served; `waiting` are the others. -/
  | host (input : Input) (waiting : List Input)
  /-- The running command completes. -/
  | engine (ctx : Ctx)
  deriving DecidableEq, Repr

/-- Whose step is next: if a host access and the completion are both ready, the agent `turn` names (R116,
log 5). -/
def State.move (s : State) : Move :=
  match s.inputs, s.seq with
  | [], .idle => .rest
  | i :: rest, .idle => .host i rest
  | [], .running c => .engine c
  | i :: rest, .running c =>
    match s.turn with
    | .host => .host i rest
    | .engine => .engine c

/-- After a step, which agent goes first next time is drawn anew (R116, log 5). -/
def State.settle (s : State) : State :=
  { s with turn := Config.nextTurn s.turnDraws, turnDraws := s.turnDraws + 1 }

/-- `State.settle` on the next state of an outcome. -/
def settleOutcome : Host.Outcome State Fault Refusal → Host.Outcome State Fault Refusal
  | .next s => .next s.settle
  | .fault r => .fault r
  | .refused r => .refused r

/-- `s` at the host's step: its oldest input taken from the port. -/
def State.atHost (s : State) (waiting : List Input) : State := { s with inputs := waiting, turn := .host }

/-- `s` at the engine's step. -/
def State.atEngine (s : State) : State := { s with turn := .engine }

/-- The host's step: its oldest input is served (R58). -/
def hostStep (i : Input) (waiting : List Input) (s : State) : Host.Outcome State Fault Refusal :=
  serve i (s.atHost waiting)

/-- The engine's step: the running command completes (R114). -/
def engineStep (c : Ctx) (s : State) : Host.Outcome State Fault Refusal := exec c.instr s.atEngine

/-- The bus address of CMD (R24). -/
def cmdAddr (b : Build) : Nat := b.base + 0x20

/-- The input that issues the command word `w`: an aligned 64-bit write of `w` to CMD. -/
def issueInput (b : Build) (w : Word) : Input := .write (cmdAddr b) 8 w

/-- `s` with a command word as the oldest input at the port, and the host to go first (log 3). -/
def State.placeCommand (s : State) (w : Word) : State :=
  { s with inputs := issueInput s.build w :: s.inputs, turn := .host }

end Sys2Proof.Machine
end

