-- ==== Sys2Proof/Machine/Step.lean ====
section
/-!
DEFINITION. One step of FFTE, and the placing of a command word for the host's checks.
-/

namespace Sys2Proof.Machine

/-- One step: an input at the port is served, or the running command completes, or nothing is to do. -/
def step (s : State) : Host.Outcome State Fault Refusal :=
  match s.move with
  | .rest => .next s
  | .host i waiting => settleOutcome (hostStep i waiting s)
  | .engine c => settleOutcome (engineStep c s)

/-- `s` with the command of the given bits written to CMD by the next step (log 3). -/
def State.withFetchWord (s : State) (nbits w : Nat) : State :=
  s.placeCommand (BitVec.ofNat 64 (w % 2 ^ nbits))

end Sys2Proof.Machine
end

