-- ==== Sys2Proof/Safety.lean ====
section
/-!
DEFINITION. The terms the claims use: which states a run can be in, what a step may leave alone, what a
binary64 word means as a number, and exact arithmetic. Nothing here is run by the machine.
-/

namespace Sys2Proof.Machine

/-! ### The states of a run -/

/-- A size a plan can have: `2^p` with `1 <= p <= LOG2_NMAX` (R9). -/
abbrev legalSize (b : Build) (n : Nat) : Prop := n = 2 ^ power n ∧ 1 ≤ power n ∧ power n ≤ b.log2Nmax

/-- The contexts acceptance makes (R40, R111), under a plan store with `PV = pv`. -/
abbrev Ctx.Legal (b : Build) (pv : Bool) (c : Ctx) : Prop :=
  (c.inv = .inverse ↔ c.op = .inv) ∧
  (c.op = .plan → legalSize b c.n) ∧
  (c.op ≠ .plan → pv = true ∧ c.dst < b.nbuf ∧ c.src < b.nbuf) ∧
  (isTransform c.instr = true → c.dst ≠ c.src)

/-- Every byte of memory is a byte of a bank word (R38), and the bytes of a word are all there or all
missing: the port and the engine move whole words (R45, R57). -/
abbrev Memory.InBanks (b : Build) (m : Memory) : Prop :=
  ∀ c ∈ m, bankAddr b 0 0 ≤ c.1 ∧ c.1 < bankAddr b b.nbuf 0 ∧
    ∀ j < 8, (m.readByte (c.1 / 8 * 8 + j)).isSome = true

/-- What holds in every state of a run: legal parameters; memory in canonical form, holding bank words; the
STATUS relations of R30; a plan store that is empty or holds a legal size (R35); a legal context. -/
structure State.Inv (s : State) : Prop where
  buildLegal : s.build.Legal
  memWf : s.mem.wf
  memInBanks : s.mem.InBanks s.build
  busyNoOutcome : s.busy = true → s.done = false ∧ s.err = false
  errHasCode : s.err = false ↔ s.errcode = .none
  planStore : (s.pv = false ∧ s.pn = 0) ∨ (s.pv = true ∧ legalSize s.build s.pn)
  context : ∀ c, s.seq = .running c → c.Legal s.build s.pv

/-- A run is over: no access waits and no command is in flight (R130). -/
abbrev State.Over (s : State) : Prop := s.inputs = [] ∧ s.seq = .idle

/-! ### Frames -/

/-- No byte outside words `lo .. lo + len - 1` of bank `b` differs between `s` and `t`. -/
def KeepsBytesOutside (s t : State) (b lo len : Nat) : Prop :=
  ∀ a, (a < bankAddr s.build b lo ∨ bankAddr s.build b (lo + len) ≤ a) →
    t.mem.readByte a = s.mem.readByte a

/-- `t` is `s` after a completion that wrote no register and no plan: SEQ and DONE are as R114 says, memory
is the command's own, and every other field is as it was. -/
def CompletedFrom (s t : State) : Prop := t = { s with seq := .idle, done := true, mem := t.mem }

/-- A completion whose only other effect is on words `lo .. lo + len - 1` of bank `b`. -/
def CompletedWriting (s t : State) (b lo len : Nat) : Prop :=
  CompletedFrom s t ∧ KeepsBytesOutside s t b lo len

/-! ### binary64 words as numbers -/

/-- Neither an infinity nor a NaN. -/
def finiteWord (w : Word) : Bool := expField w != 2047

/-- The number a finite word stands for (R14). -/
def wordValue (w : Word) : ℚ := (units w : ℚ) / 2 ^ 1074

/-- `+0` or `-0`. -/
def isZeroWord (w : Word) : Bool := w.toNat % 2 ^ 63 == 0

/-- `w` is the binary64 value nearest to `x`, ties to even; from the midpoint above the largest finite value
on, the infinity of the sign of `x` (R15, R18). The sign of a zero is not said. -/
def IsNearestEven (x : ℝ) (w : Word) : Prop :=
  if |x| < 2 ^ 1024 - 2 ^ 970 then
    finiteWord w = true ∧
    (∀ v, finiteWord v = true → |(wordValue w : ℝ) - x| ≤ |(wordValue v : ℝ) - x|) ∧
    (∀ v, finiteWord v = true → wordValue v ≠ wordValue w →
      |(wordValue v : ℝ) - x| = |(wordValue w : ℝ) - x| → w.toNat % 2 = 0)
  else w = pack w.msb infMag ∧ (w.msb = true ↔ x < 0)

/-- "Equal as numbers" (R108): both NaN, or neither and the same value; the two zeros are equal. -/
def sameNumber (a b : Word) : Prop :=
  (isNaN a = true ∧ isNaN b = true) ∨
  (isNaN a = false ∧ isNaN b = false ∧ (a = b ∨ (isZeroWord a = true ∧ isZeroWord b = true)))

/-! ### Exact arithmetic -/

/-- The engine's operations without rounding (R102). -/
def exactArith (R : Type) [CommRing R] : Arith R where
  add := (· + ·)
  sub := (· - ·)
  mul := (· * ·)
  neg := (- ·)
  zero := 0

/-- The base-4 digit reversal of `t` over `q` digits (R83). -/
def rev4 : Nat → Nat → Nat
  | 0, _ => 0
  | q + 1, t => (t % 4) * 4 ^ q + rev4 q (t / 4)

end Sys2Proof.Machine
end

