-- ==== Sys2Proof/Certificates/Slice0/Obligations.lean ====
section
/-!
DEFINITION. The statements about FFTE that the provers settle. Each docstring names the rule of spec/ it
formalises; where a clause rests on a choice of the model, it names the log entry.
-/

open Sys2Proof Sys2Proof.Machine Host.Outcome

/-! ## Encoding -/

/-- The eleven words of the assembler table (95_test_vectors.md V3.1, 30_encoding.md R70) and the eight ILLEGAL
words of V3.2 decode as the spec says. -/
def Obligations.DecodesTheSpecsWords : Prop :=
  decode 0x0000000000000000 = .ok .nop ∧ decode 0x0000000000000001 = .ok .plan ∧
  decode 0x0000000000000102 = .ok (.fwd 1 0) ∧ decode 0x0000000000001203 = .ok (.inv 2 1) ∧
  decode 0x0000000000000104 = .ok (.rfwd 1 0) ∧ decode 0x0000000000000305 = .ok (.r2c 3 0) ∧
  decode 0x0000000000002006 = .ok (.c2r 0 2) ∧ decode 0x0000000000000307 = .ok (.clr 3) ∧
  decode 0x0000000000000108 = .ok (.cspec 1) ∧ decode 0x000000000000EF02 = .ok (.fwd 15 14) ∧
  decode 0x0000000000002205 = .ok (.r2c 2 2) ∧
  decode 0x0000000000000009 = .error .reservedOpcode ∧ decode 0x00000000000000FF = .error .reservedOpcode ∧
  decode 0x0000000000010102 = .error .reservedBits ∧ decode 0x8000000000000002 = .error .reservedBits ∧
  decode 0x0000000000000100 = .error .unusedField ∧ decode 0x0000000000001001 = .error .unusedField ∧
  decode 0x0000000000001007 = .error .unusedField ∧ decode 0x0000000000002308 = .error .unusedField

/-- Every well-formed command, with every operand its fields admit, is read back from its own word. -/
def Obligations.DecodeOfEncode : Prop := ∀ i : Instr, i.wellFormed = true → decode (encode i) = .ok i

/-- Every word that decodes is the encoding of what it decodes to: no bit of a legal word is dropped, "no
other bit position carries meaning" (R64). -/
def Obligations.EncodeOfDecode : Prop :=
  ∀ (w : Word) (i : Instr), decode w = .ok i → encode i = w ∧ i.wellFormed = true

/-- R68: a word is ILLEGAL exactly when its OP is reserved, a reserved bit is set, or a field its format does
not use is not 0; written to CMD while idle it is rejected with ILLEGAL_COMMAND and has no other effect. The
all-zero word is NOP. -/
def Obligations.IllegalWordsAreRejected : Prop :=
  (∀ w : Word, (∀ i, decode w ≠ .ok i) ↔
    (9 ≤ w.toNat % 256 ∨ w.toNat / 65536 ≠ 0 ∨
      (w.toNat % 256 ≤ 1 ∧ w.toNat / 256 % 256 ≠ 0) ∨
      ((w.toNat % 256 = 7 ∨ w.toNat % 256 = 8) ∧ w.toNat / 4096 % 16 ≠ 0))) ∧
  decode 0 = .ok .nop ∧
  (∀ (s : State) (w : Word), s.build.Legal → s.seq = .idle → (∀ i, decode w ≠ .ok i) →
    serve (issueInput s.build w) s = next { s with
      lastop := BitVec.ofNat 8 w.toNat, done := true, err := true, errcode := .illegalCommand
      replies := .okay :: s.replies })

/-! ## Steps -/

/-- When the oldest input is a CMD write of a word that decodes to `i` (R32, R58), and it is the host's step, the
step is `exec i` with the input taken, its OKAY response given and, after it, the next turn drawn; the same
for the placing the host's checks use. The queue of inputs, the record of responses and `withFetchWord` are
the model's choice (log 3), and so are the turn and its redrawing (log 5). -/
def Obligations.StepRunsTheIssuedCommand : Prop :=
  (∀ (s : State) (w : Word) (i : Instr) (rest : List Input), s.build.Legal →
    s.inputs = issueInput s.build w :: rest → (s.busy = false ∨ s.turn = .host) → decode w = .ok i →
    step s = settleOutcome (exec i { s with
      inputs := rest, turn := .host, replies := .okay :: s.replies })) ∧
  (∀ (s : State) (i : Instr), s.build.Legal → i.wellFormed = true →
    step (s.withFetchWord 64 (encode i).toNat) = settleOutcome (exec i { s with
      turn := .host, replies := .okay :: s.replies }))

/-- When a command runs, and no access waits or the engine goes first, the step is the completion of that
command (R114): `exec` of it at the engine's turn. That the completion comes at once when no access waits is
the model's choice (log 13), and so are the turn and its redrawing (log 5): R114 and R116 allow the
completion at any moment and force it at none. -/
def Obligations.StepCompletesTheRunningCommand : Prop :=
  ∀ (s : State) (c : Ctx), s.seq = .running c → (s.inputs = [] ∨ s.turn = .engine) →
    step s = settleOutcome (exec c.instr { s with turn := .engine })

/-- No step stops: FFTE never traps (R19, R117), whatever the state. -/
def Obligations.EveryStepAnswersNext : Prop := ∀ s : State, ∃ t, step s = next t

/-- R131, fairness: a running command ends after at most one step more than the inputs that wait. The steps
that pass are those of the model's queue (log 13). -/
def Obligations.RunningCommandEnds : Prop :=
  ∀ s : State, s.busy = true → ∃ k ≤ s.inputs.length + 1, ∃ t,
    Host.Core.run Sys2Proof.core k s = next t ∧ t.seq = .idle

/-! ## Reset and invariants -/

/-- R122: power-on reset puts every piece of state at its reset value, and ID keeps its constant. -/
def Obligations.PowerOnResetState : Prop :=
  (∀ s : State, s.build.Legal → ∃ t, serve .powerOn s = next t ∧
    (∀ a ∈ [0x08, 0x10, 0x18, 0x20, 0x28, 0x30], t.readRegister a = 0) ∧
    t.readRegister 0x00 = s.readRegister 0x00 ∧
    t.pv = false ∧ t.pn = 0 ∧ t.seq = .idle ∧ t.irq = false ∧ t.irqEn = false ∧
    (∀ b i, t.bankWord b i = none)) ∧
  (∀ a ∈ [0x08, 0x10, 0x18, 0x20, 0x28, 0x30], State.reset.readRegister a = 0) ∧
  State.reset.readRegister 0x00 = 0x000000040C01FF7E ∧
  State.reset.pv = false ∧ State.reset.pn = 0 ∧ State.reset.seq = .idle ∧ State.reset.irq = false ∧
  State.reset.irqEn = false ∧ (∀ b i, State.reset.bankWord b i = none)

/-- The invariant holds right after reset. -/
def Obligations.ResetMeetsTheInvariant : Prop := State.reset.Inv

/-- Every step from a state of the invariant leads to a state of the invariant: canonical memory of whole bank
words, the STATUS relations of R30, a legal plan store, a legal context. -/
def Obligations.StepKeepsTheInvariant : Prop :=
  ∀ s t : State, s.Inv → step s = next t → t.Inv

/-- R30, in every state reached from a state of the invariant: BUSY excludes DONE and ERR, and ERR = 0 has
ERRCODE = 0; a rejection sets ERR and DONE together, and the host can clear either alone. -/
def Obligations.StatusRelations : Prop :=
  (∀ (k : Nat) (s t : State), s.Inv → Host.Core.run Sys2Proof.core k s = next t →
    (t.busy = true → t.done = false ∧ t.err = false) ∧ (t.err = false → t.errcode = .none)) ∧
  (∀ s t : State, ∀ i : Instr, s.turn = .host → s.seq = .idle → acceptError i s ≠ none →
    exec i s = next t → t.err = true ∧ t.done = true) ∧
  (∀ (s : State) (w : Word), s.build.Legal → s.seq = .idle → (∀ i, decode w ≠ .ok i) →
    ∃ t, serve (issueInput s.build w) s = next t ∧ t.err = true ∧ t.done = true) ∧
  (∀ s : State, s.build.Legal → s.err = true → s.done = true →
    (∃ t, serve (.write (s.build.base + 0x10) 8 2) s = next t ∧ t.err = true ∧ t.done = false) ∧
    (∃ t, serve (.write (s.build.base + 0x10) 8 4) s = next t ∧ t.err = false ∧ t.done = true))

/-! ## Acceptance -/

/-- A command none of whose conditions fails is accepted at the host's step (R111): LASTOP is its opcode, the
old outcome is cleared, and SEQ is RUNNING with its context; nothing else changes. (`n = 0` in a context
that is not PLAN's is log 7.) -/
def Obligations.AcceptedCommandRuns : Prop :=
  ∀ s : State, s.turn = .host → s.seq = .idle →
    (∀ p, 1 ≤ p → p ≤ s.build.log2Nmax → s.arg.toInt = 2 ^ p →
      exec .plan s = next { s with
        lastop := 0x01, done := false, err := false, errcode := .none
        seq := .running ⟨.plan, 0, 0, .forward, 2 ^ p⟩ }) ∧
    (s.pv = true → ∀ d x, d < s.build.nbuf → x < s.build.nbuf →
      (d ≠ x → exec (.fwd d x) s = next { s with
        lastop := 0x02, done := false, err := false, errcode := .none
        seq := .running ⟨.fwd, d, x, .forward, 0⟩ }) ∧
      (d ≠ x → exec (.inv d x) s = next { s with
        lastop := 0x03, done := false, err := false, errcode := .none
        seq := .running ⟨.inv, d, x, .inverse, 0⟩ }) ∧
      (d ≠ x → exec (.rfwd d x) s = next { s with
        lastop := 0x04, done := false, err := false, errcode := .none
        seq := .running ⟨.rfwd, d, x, .forward, 0⟩ }) ∧
      exec (.r2c d x) s = next { s with
        lastop := 0x05, done := false, err := false, errcode := .none
        seq := .running ⟨.r2c, d, x, .forward, 0⟩ } ∧
      exec (.c2r d x) s = next { s with
        lastop := 0x06, done := false, err := false, errcode := .none
        seq := .running ⟨.c2r, d, x, .forward, 0⟩ } ∧
      exec (.clr d) s = next { s with
        lastop := 0x07, done := false, err := false, errcode := .none
        seq := .running ⟨.clr, d, 0, .forward, 0⟩ } ∧
      exec (.cspec d) s = next { s with
        lastop := 0x08, done := false, err := false, errcode := .none
        seq := .running ⟨.cspec, d, 0, .forward, 0⟩ })

/-- `t` is `s` after a rejection with code `e` of a word whose OP is `op` (R113): LASTOP, ERR, ERRCODE and
DONE, and no bank word, plan-store field, ARG, CTRL or other STATUS bit. -/
def RejectedWith (s t : State) (op : BitVec 8) (e : ErrCode) : Prop :=
  t = { s with lastop := op, done := true, err := true, errcode := e }

/-- The size of R74: a power of two above 1. -/
def IsPlanSize (n : Int) : Prop := ∃ p : Nat, 1 ≤ p ∧ n = 2 ^ p

/-- R112, R113: of several conditions the one reported is the first in the order ILLEGAL_COMMAND, NO_PLAN,
BAD_BUFFER, ALIASING, INVALID_SIZE, SIZE_UNSUPPORTED; exactly that code is recorded, and the rejected command
changes nothing else. -/
def Obligations.FirstFailedCheckIsReported : Prop :=
  (∀ (s : State) (w : Word), s.build.Legal → s.seq = .idle → (∀ i, decode w ≠ .ok i) →
    ∃ t, serve (issueInput s.build w) s = next t ∧
      RejectedWith (s.reply .okay) t (BitVec.ofNat 8 w.toNat) .illegalCommand) ∧
  ∀ (s : State), s.turn = .host → s.seq = .idle →
    (∀ i, i ≠ .nop → i ≠ .plan → s.pv = false →
      ∃ t, exec i s = next t ∧ RejectedWith s t i.opcode .noPlan) ∧
    (∀ d x, s.pv = true → (s.build.nbuf ≤ d ∨ s.build.nbuf ≤ x) →
      ∀ i ∈ [Instr.fwd d x, Instr.inv d x, Instr.rfwd d x, Instr.r2c d x, Instr.c2r d x],
        ∃ t, exec i s = next t ∧ RejectedWith s t i.opcode .badBuffer) ∧
    (∀ d, s.pv = true → s.build.nbuf ≤ d → ∀ i ∈ [Instr.clr d, Instr.cspec d],
        ∃ t, exec i s = next t ∧ RejectedWith s t i.opcode .badBuffer) ∧
    (∀ d, s.pv = true → d < s.build.nbuf → ∀ i ∈ [Instr.fwd d d, Instr.inv d d, Instr.rfwd d d],
        ∃ t, exec i s = next t ∧ RejectedWith s t i.opcode .aliasing) ∧
    (¬ IsPlanSize s.arg.toInt → ∃ t, exec .plan s = next t ∧ RejectedWith s t 0x01 .invalidSize) ∧
    (IsPlanSize s.arg.toInt → (s.build.nmax : Int) < s.arg.toInt →
      ∃ t, exec .plan s = next t ∧ RejectedWith s t 0x01 .sizeUnsupported)

/-- R74: the sizes that pass are exactly `2^p` for `1 <= p <= 30`. -/
def Obligations.ValidSizesArePowersOfTwo : Prop :=
  ∀ n : BitVec 32, validSize n = true ↔ ∃ p : Nat, 1 ≤ p ∧ p ≤ 30 ∧ n.toInt = 2 ^ p

/-- R127: a CMD write while busy, of any word, is discarded and sets OVERRUN; nothing else changes but the
port's queue and response. -/
def Obligations.OverrunDiscardsTheCommand : Prop :=
  ∀ (s : State) (w : Word), s.build.Legal → s.busy = true → s.turn = .host →
    serve (issueInput s.build w) s = next { s with
      overrun := true, replies := .okay :: s.replies }

/-! ## NOP and PLAN -/

/-- R73: NOP completes at acceptance, with or without a plan, changing only LASTOP and the outcome bits, so
with IRQ_EN = 1 `irq` is raised at once; its word is the all-zero word, and any other word with OP 0x00 is
ILLEGAL. -/
def Obligations.NopCompletesAtAcceptance : Prop :=
  (∀ s : State, s.turn = .host → s.seq = .idle →
    ∃ t, exec .nop s = next t ∧
      t = { s with lastop := 0x00, err := false, errcode := .none, done := true } ∧
      (s.irqEn = true → t.irq = true)) ∧
  (∀ w : Word, w.toNat % 256 = 0 → (decode w = .ok .nop ↔ w = 0) ∧
    (w ≠ 0 → ∀ s : State, s.build.Legal → s.seq = .idle → ∃ t, serve (issueInput s.build w) s = next t ∧
      RejectedWith (s.reply .okay) t 0x00 .illegalCommand))

/-- PLAN completes (R75): PN is the latched size and PV is 1, whatever ARG has become; SEQ and DONE as R114
says; no bank word, no other register changes. PLAN_N then reads the size (R33) and PLAN_GEOM the geometry
of R34 and R36. -/
def Obligations.PlanCompletes : Prop :=
  ∀ (s : State) (c : Ctx), s.turn = .engine → s.seq = .running c → c.op = .plan →
    ∃ t, exec .plan s = next t ∧
      t = { s with pn := c.n, pv := true, seq := .idle, done := true } ∧
      ∀ p, 1 ≤ p → p ≤ 24 → c.n = 2 ^ p →
        (t.readRegister 0x28).toNat = 2 ^ p ∧
        (t.readRegister 0x30).toNat =
          p + 2 ^ 8 * (if p % 2 = 0 then p - 1 else p) + 2 ^ 16 * (if p % 2 = 0 then 8 else 4)
            + 2 ^ 24 * ((p - 1) / 2)

/-- R36 for every size `2^p`: WIDTH is odd, LEN0 is 8 exactly when the size is a power of four and 4
otherwise, and the groups of the first phase tile the `2N` words. -/
def Obligations.PlanGeometry : Prop :=
  ∀ p, 1 ≤ p →
    csize (2 ^ p) = 2 * 2 ^ p ∧ power (2 ^ p) = p ∧
    width (2 ^ p) = (if p % 2 = 0 then p - 1 else p) ∧ width (2 ^ p) % 2 = 1 ∧
    (len0 (2 ^ p) = 8 ↔ ∃ q, 2 ^ p = 4 ^ q) ∧ (len0 (2 ^ p) = 8 ∨ len0 (2 ^ p) = 4) ∧
    npass (2 ^ p) = (width (2 ^ p) - 1) / 2 ∧ 2 ^ (width (2 ^ p) - 1) * len0 (2 ^ p) = 2 * 2 ^ p

/-! ## The buffer utilities -/

/-- R2C completes (R85): sample `k` of the destination is (word `k` of the source, +0.0), bit for bit and
unspecified where the source word is; also in place. Nothing else changes. -/
def Obligations.R2cCompletes : Prop :=
  ∀ (s : State) (c : Ctx) (d x : Nat), s.turn = .engine → s.seq = .running c → c.instr = .r2c d x →
    ∃ t, exec (.r2c d x) s = next t ∧ CompletedWriting s t d 0 (2 * s.pn) ∧
      ∀ k < s.pn, t.bankWord d (2 * k) = s.bankWord x k ∧
        t.bankWord d (2 * k + 1) = some 0x0000000000000000

/-- C2R completes (R86): word `k` of the destination is the real part of sample `k` of the source; words from
`N` on keep their contents; also in place. Nothing else changes. -/
def Obligations.C2rCompletes : Prop :=
  ∀ (s : State) (c : Ctx) (d x : Nat), s.turn = .engine → s.seq = .running c → c.instr = .c2r d x →
    ∃ t, exec (.c2r d x) s = next t ∧ CompletedWriting s t d 0 s.pn ∧
      ∀ k < s.pn, t.bankWord d k = s.bankWord x (2 * k)

/-- CLR completes (R87): words `0 .. 2N-1` are +0.0, also those that were unspecified. Nothing else
changes. -/
def Obligations.ClrCompletes : Prop :=
  ∀ (s : State) (c : Ctx) (d : Nat), s.turn = .engine → s.seq = .running c → c.instr = .clr d →
    ∃ t, exec (.clr d) s = next t ∧ CompletedWriting s t d 0 (2 * s.pn) ∧
      ∀ i < 2 * s.pn, t.bankWord d i = some 0x0000000000000000

/-- CSPEC completes (R88): for `m = 1 .. N/2 - 1`, bin `N-m` becomes the complex conjugate of bin `m`, by a
sign flip of the imaginary word; bins 0 and N/2 and every word from `2N` on are not touched. -/
def Obligations.CspecCompletes : Prop :=
  ∀ (s : State) (c : Ctx) (d : Nat), s.turn = .engine → s.seq = .running c → c.instr = .cspec d →
    s.pn % 2 = 0 → 2 ≤ s.pn →
    ∃ t, exec (.cspec d) s = next t ∧ CompletedWriting s t d (s.pn + 2) (s.pn - 2) ∧
      ∀ m, 1 ≤ m → m < s.pn / 2 →
        t.bankWord d (2 * (s.pn - m)) = s.bankWord d (2 * m) ∧
        t.bankWord d (2 * (s.pn - m) + 1) =
          (s.bankWord d (2 * m + 1)).map (fun w => w ^^^ 0x8000000000000000)

/-- R88: applied twice, CSPEC gives the same bank as applied once. -/
def Obligations.CspecTwiceIsOnce : Prop :=
  ∀ (s t u : State) (c : Ctx) (d : Nat), s.turn = .engine → s.seq = .running c → c.instr = .cspec d →
    s.pn % 2 = 0 → 2 ≤ s.pn → exec (.cspec d) s = next t →
    exec (.cspec d) { t with seq := .running c } = next u → ∀ i, u.bankWord d i = t.bankWord d i

/-! ## The transforms -/

/-- FWD completes (R98, R100): if the `2N` words read are there, the `2N` words of the destination are those
of ENGINE(+1.0) on them; the source bank, the words from `2N` on and everything else keep their values. -/
def Obligations.FwdCompletes : Prop :=
  ∀ (s : State) (c : Ctx) (d x p : Nat) (X : List Word), s.turn = .engine → s.seq = .running c →
    c.instr = .fwd d x → c.inv = .forward → 1 ≤ p → s.pn = 2 ^ p → X.length = 2 * s.pn →
    (∀ i (h : i < X.length), s.bankWord x i = some X[i]) →
    ∃ t, exec (.fwd d x) s = next t ∧ CompletedWriting s t d 0 (2 * s.pn) ∧
      ∀ i < 2 * s.pn, t.bankWord d i = (engine binary64 (tw s.pn) s.pn 0x3FF0000000000000 X)[i]?

/-- INV completes (R101): as FWD with ENGINE(-1.0), and then every word is divided by `N`. -/
def Obligations.InvCompletes : Prop :=
  ∀ (s : State) (c : Ctx) (d x p : Nat) (X : List Word), s.turn = .engine → s.seq = .running c →
    c.instr = .inv d x → c.inv = .inverse → 1 ≤ p → s.pn = 2 ^ p → X.length = 2 * s.pn →
    (∀ i (h : i < X.length), s.bankWord x i = some X[i]) →
    ∃ t, exec (.inv d x) s = next t ∧ CompletedWriting s t d 0 (2 * s.pn) ∧
      ∀ i < 2 * s.pn, t.bankWord d i =
        (engine binary64 (tw s.pn) s.pn 0xBFF0000000000000 X)[i]?.map (fun y => fdiv y (natWord s.pn))

/-- RFWD completes (R106): only words `0 .. N-1` of the source are read, and all `2N` words of the destination
are written, by PHASE1R(+1.0) and the unmodified PHASE2(+1.0) (R107). -/
def Obligations.RfwdCompletes : Prop :=
  ∀ (s : State) (c : Ctx) (d x p : Nat) (X : List Word), s.turn = .engine → s.seq = .running c →
    c.instr = .rfwd d x → c.inv = .forward → 1 ≤ p → s.pn = 2 ^ p → X.length = s.pn →
    (∀ i (h : i < X.length), s.bankWord x i = some X[i]) →
    ∃ t, exec (.rfwd d x) s = next t ∧ CompletedWriting s t d 0 (2 * s.pn) ∧
      ∀ i < 2 * s.pn, t.bankWord d i =
        (phase2 binary64 (tw s.pn) 0x3FF0000000000000 s.pn
          (phase1r binary64 s.pn 0x3FF0000000000000 X))[i]?

/-- R126 on the transforms: if one word of the read footprint is unspecified, the completion still happens
and every word of the write footprint is unspecified; otherwise all of them are there. -/
def Obligations.UnspecifiedInputSpreads : Prop :=
  ∀ (s : State) (c : Ctx) (d x p : Nat) (i : Instr) (nIn : Nat), s.turn = .engine →
    s.seq = .running c → c.instr = i → 1 ≤ p → s.pn = 2 ^ p →
    ((i = .fwd d x ∧ nIn = 2 * s.pn) ∨ (i = .inv d x ∧ nIn = 2 * s.pn) ∨ (i = .rfwd d x ∧ nIn = s.pn)) →
    ∃ t, exec i s = next t ∧ CompletedWriting s t d 0 (2 * s.pn) ∧
      ((∃ k < nIn, s.bankWord x k = none) → ∀ k < 2 * s.pn, t.bankWord d k = none) ∧
      ((∀ k < nIn, s.bankWord x k ≠ none) → ∀ k < 2 * s.pn, t.bankWord d k ≠ none)

/-- R99: a transform's result does not depend on what the destination held: two states that agree on the
plan and on the source words read give the same destination words. -/
def Obligations.DestinationContentsDoNotMatter : Prop :=
  ∀ (s s' t t' : State) (c : Ctx) (d x p : Nat) (i : Instr),
    (i = .fwd d x ∨ i = .inv d x ∨ i = .rfwd d x) → c.instr = i → 1 ≤ p → s.pn = 2 ^ p →
    s.turn = .engine → s'.turn = .engine → s.seq = .running c → s'.seq = .running c → s'.pn = s.pn →
    (∀ k < 2 * s.pn, s'.bankWord x k = s.bankWord x k) →
    exec i s = next t → exec i s' = next t' →
    ∀ k < 2 * s.pn, t'.bankWord d k = t.bankWord d k

/-- R108: RFWD on real words and FWD on the same words made complex by R2C give equal numbers; the only bit
differences are the sign of a zero and, at N = 4, the sign bit of a NaN. -/
def Obligations.RfwdAgreesWithFwd : Prop :=
  ∀ (p : Nat) (r : List Word), 1 ≤ p → p ≤ 24 → r.length = 2 ^ p →
    ∀ (i : Nat) (a b : Word), i < 2 * 2 ^ p →
      (engineR binary64 (tw (2 ^ p)) (2 ^ p) plusOne r)[i]? = some a →
      (engine binary64 (tw (2 ^ p)) (2 ^ p) plusOne (r.flatMap fun x => [x, plusZero]))[i]? = some b →
      sameNumber a b ∧
      (a = b ∨ (isZeroWord a = true ∧ isZeroWord b = true) ∨
        (p = 2 ∧ a = 0xFFF8000000000000 ∧ b = 0x7FF8000000000000))

/-- R102: in exact arithmetic, with the exact twiddle factors, the engine computes the discrete Fourier
transform, for every plan size and both directions (INV before its scaling by 1/N). -/
def Obligations.ExactEngineIsDft : Prop :=
  ∀ (p : ℕ) (X : List ℝ) (dir : ℝ) (tw : ℕ → ℝ × ℝ), 1 ≤ p → X.length = 2 * 2 ^ p → (dir = 1 ∨ dir = -1) →
    (∀ j : ℕ, tw j = (Real.cos (Real.pi * j / 2 ^ p), - Real.sin (Real.pi * j / 2 ^ p))) →
    ∀ (k : ℕ) (re im : ℝ), k < 2 ^ p →
      (engine (exactArith ℝ) tw (2 ^ p) dir X)[2 * k]? = some re →
      (engine (exactArith ℝ) tw (2 ^ p) dir X)[2 * k + 1]? = some im →
      (⟨re, im⟩ : ℂ) = ∑ n ∈ Finset.range (2 ^ p), (⟨X.getD (2 * n) 0, X.getD (2 * n + 1) 0⟩ : ℂ) *
        Complex.exp (((- dir * (2 * Real.pi * n * k / 2 ^ p) : ℝ) : ℂ) * Complex.I)

/-- R100, R102: all words +0 in gives all words +0 out, in both directions, at every legal size. -/
def Obligations.ZeroInGivesZeroOut : Prop :=
  ∀ (p : Nat) (inv : Word), 1 ≤ p → p ≤ 24 → (inv = plusOne ∨ inv = minusOne) →
    engine binary64 (tw (2 ^ p)) (2 ^ p) inv (List.replicate (2 * 2 ^ p) plusZero)
      = List.replicate (2 * 2 ^ p) plusZero ∧
    invWords (2 ^ p) inv (List.replicate (2 * 2 ^ p) plusZero) = List.replicate (2 * 2 ^ p) plusZero

/-- R97: in a pass of stride `s` the index `k = s * m` runs up to `N/2 - s`; every twiddle index the engine
asks for (`k`, `2k`, `3k`) is even and no word it reads is beyond `TWT[3N/2 - 5]`, which is inside the table
and is read at the last position of the pass of stride 2; sizes 2 and 4 read none. So the engine, in any
arithmetic, gives the same words with any two lookups that agree inside that bound, and at sizes 2 and 4 with
any two lookups; and inside it the reduction `mod 2N` of the lookup unit (R80) changes no index. -/
def Obligations.TwiddleIndexBound : Prop :=
  (∀ p, 3 ≤ p → ∀ s ∈ strides (2 ^ p), ∀ m < 2 * 2 ^ p / s * 2 / 8, ∀ f ∈ [1, 2, 3],
    f * (s * m) % 2 = 0 ∧ f * (s * m) + 1 ≤ 3 * 2 ^ p / 2 - 5 ∧ 3 * 2 ^ p / 2 - 5 < 2 * 2 ^ p ∧
    s * (2 * 2 ^ p / s * 2 / 8 - 1) = 2 ^ p / 2 - s) ∧
  (∀ p, 3 ≤ p → 2 ∈ strides (2 ^ p) ∧
    3 * (2 * (2 * 2 ^ p / 2 * 2 / 8 - 1)) + 1 = 3 * 2 ^ p / 2 - 5) ∧
  strides 2 = [] ∧ strides 4 = [] ∧
  (∀ (α : Type) (A : Arith α) (p : Nat) (inv : α) (X : List α) (tw tw' : Nat → α × α), 1 ≤ p →
    (3 ≤ p → ∀ k, k % 2 = 0 → k + 1 ≤ 3 * 2 ^ p / 2 - 5 → tw k = tw' k) →
    engine A tw (2 ^ p) inv X = engine A tw' (2 ^ p) inv X ∧
    engineR A tw (2 ^ p) inv X = engineR A tw' (2 ^ p) inv X) ∧
  (∀ p, 3 ≤ p → ∀ k, k + 1 ≤ 3 * 2 ^ p / 2 - 5 → tw (2 ^ p) k = (twt (2 ^ p) k, twt (2 ^ p) (k + 1)))

/-! ## The tables -/

/-- R77 at every plan size up to the default NMAX = 4096: each even entry of the twiddle table is the correctly
rounded cosine, and each odd entry the sign flip of the correctly rounded sine. That the model's fixed-point
computation is precise enough for this is log 9. -/
def Obligations.TwiddlesAreCorrectlyRounded : Prop :=
  ∀ p, 1 ≤ p → p ≤ 12 → ∀ m < 2 ^ p, ∃ c s : Word,
    IsNearestEven (Real.cos (Real.pi * (2 * m : ℕ) / 2 ^ p)) c ∧
    IsNearestEven (Real.sin (Real.pi * (2 * m : ℕ) / 2 ^ p)) s ∧
    (isZeroWord c = true → c = plusZero) ∧ (isZeroWord s = true → s = plusZero) ∧
    twt (2 ^ p) (2 * m) = c ∧ twt (2 ^ p) (2 * m + 1) = fneg s

/-- R79, properties 2 to 5, at every legal size: nesting, mirror, half-turn and quarter-wave symmetry. -/
def Obligations.TwiddleSymmetries : Prop :=
  ∀ p, 1 ≤ p → p ≤ 24 → ∀ i, i % 2 = 0 →
    (i < 2 * 2 ^ p → twt (2 ^ p) i = twt (2 ^ (p + 1)) (2 * i) ∧
      twt (2 ^ p) (i + 1) = twt (2 ^ (p + 1)) (2 * i + 1)) ∧
    (0 < i → i < 2 * 2 ^ p → i ≠ 2 ^ p →
      twt (2 ^ p) (2 * 2 ^ p - i) = twt (2 ^ p) i ∧
      twt (2 ^ p) (2 * 2 ^ p - i + 1) = fneg (twt (2 ^ p) (i + 1))) ∧
    (i < 2 ^ p → (twt (2 ^ p) i ≠ plusZero → twt (2 ^ p) (i + 2 ^ p) = fneg (twt (2 ^ p) i)) ∧
      (twt (2 ^ p) (i + 1) ≠ 0x8000000000000000 →
        twt (2 ^ p) (i + 2 ^ p + 1) = fneg (twt (2 ^ p) (i + 1)))) ∧
    (2 ≤ p → i ≤ 2 ^ p / 2 → twt (2 ^ p) (2 ^ p / 2 - i) = fneg (twt (2 ^ p) (i + 1)))

/-- The table of R78: the entries whose exact value is 0 or 1 or -1, at every legal size. -/
def Obligations.TwiddleExactEntries : Prop :=
  ∀ p, 1 ≤ p → p ≤ 24 →
    (twt (2 ^ p) 0 = 0x3FF0000000000000 ∧ twt (2 ^ p) 1 = 0x8000000000000000) ∧
    (twt (2 ^ p) (2 ^ p) = 0xBFF0000000000000 ∧ twt (2 ^ p) (2 ^ p + 1) = 0x8000000000000000) ∧
    (2 ≤ p → twt (2 ^ p) (2 ^ p / 2) = 0x0000000000000000 ∧
      twt (2 ^ p) (2 ^ p / 2 + 1) = 0xBFF0000000000000 ∧
      twt (2 ^ p) (3 * 2 ^ p / 2) = 0x0000000000000000 ∧
      twt (2 ^ p) (3 * 2 ^ p / 2 + 1) = 0x3FF0000000000000)

/-- R83: for the indexes the engine uses, `BRT[t]` is even, below `2^WIDTH`, and half of it is the base-4 digit
reversal of `t`; that is a permutation, so the first phase reads each input position exactly once. The entries
the engine does not use, which the host can read (R82), are those of the lower half with the top bit moved to
bit 0, so they are odd. -/
def Obligations.BitReversalReadsEachPositionOnce : Prop :=
  ∀ p, 1 ≤ p →
    (∀ t < 2 ^ (width (2 ^ p) - 1),
      brt (2 ^ p) t % 2 = 0 ∧ brt (2 ^ p) t < 2 ^ width (2 ^ p) ∧
      brt (2 ^ p) t / 2 = rev4 ((width (2 ^ p) - 1) / 2) t) ∧
    Set.BijOn (rev4 ((width (2 ^ p) - 1) / 2)) (Set.Iio (2 ^ (width (2 ^ p) - 1)))
      (Set.Iio (2 ^ (width (2 ^ p) - 1))) ∧
    (∀ x < 2 ^ p, ∃! r : Nat × Nat, r.1 < 2 ^ (width (2 ^ p) - 1) ∧ r.2 < len0 (2 ^ p) / 2 ∧
      brt (2 ^ p) r.1 + r.2 * 2 ^ width (2 ^ p) = 2 * x) ∧
    (∀ j, 2 ^ (width (2 ^ p) - 1) ≤ j → j < 2 ^ width (2 ^ p) →
      brt (2 ^ p) j % 2 = 1 ∧ brt (2 ^ p) j = brt (2 ^ p) (j - 2 ^ (width (2 ^ p) - 1)) + 1)

/-! ## binary64 -/

/-- R15 on finite operands: `fadd` and `fsub` are the exact sum and difference, rounded once to nearest even;
an exact zero sum is +0, unless both addends are -0. Where overflow begins (`IsNearestEven`) is IEEE 754's
rule (log 10, PRESUMED). Infinite operands: `InfiniteOperandResults`. -/
def Obligations.AddAndSubAreRounded : Prop :=
  ∀ a b : Word, finiteWord a = true → finiteWord b = true →
    IsNearestEven (((wordValue a + wordValue b : ℚ)) : ℝ) (fadd a b) ∧
    IsNearestEven (((wordValue a - wordValue b : ℚ)) : ℝ) (fsub a b) ∧
    (wordValue a + wordValue b = 0 → fadd a b =
      if a = 0x8000000000000000 ∧ b = 0x8000000000000000 then 0x8000000000000000 else 0x0000000000000000) ∧
    (wordValue a - wordValue b = 0 → fsub a b =
      if a = 0x8000000000000000 ∧ b = 0x0000000000000000 then 0x8000000000000000 else 0x0000000000000000)

/-- R15 on finite operands: `fmul` and `fdiv` are the exact product and quotient, rounded once to nearest even,
and the sign of the result is the XOR of the operand signs. Where overflow begins (`IsNearestEven`) is IEEE
754's rule (log 10, PRESUMED). Infinite operands and a zero divisor: `InfiniteOperandResults`. -/
def Obligations.MulAndDivAreRounded : Prop :=
  ∀ a b : Word, finiteWord a = true → finiteWord b = true →
    IsNearestEven (((wordValue a * wordValue b : ℚ)) : ℝ) (fmul a b) ∧
    (fmul a b).msb = (a.msb ^^ b.msb) ∧
    (wordValue b ≠ 0 → IsNearestEven (((wordValue a / wordValue b : ℚ)) : ℝ) (fdiv a b) ∧
      (fdiv a b).msb = (a.msb ^^ b.msb))

/-- R15: whatever the operands, a NaN result of the four operations is CNAN; and the result is a NaN exactly
with a NaN operand, for `inf - inf` in a sum or difference, for `0 * inf`, and for `0 / 0` and `inf / inf`
(these two are IEEE 754's: log 10, PRESUMED). -/
def Obligations.NanResultsAreCanonical : Prop :=
  ∀ a b : Word,
    (∀ r ∈ [fadd a b, fsub a b, fmul a b, fdiv a b],
      (isNaN a = true ∨ isNaN b = true → r = 0x7FF8000000000000) ∧
      (isNaN r = true → r = 0x7FF8000000000000)) ∧
    (isNaN a = false → isNaN b = false →
      (isNaN (fadd a b) = true ↔ isInf a = true ∧ isInf b = true ∧ a.msb ≠ b.msb) ∧
      (isNaN (fsub a b) = true ↔ isInf a = true ∧ isInf b = true ∧ a.msb = b.msb) ∧
      (isNaN (fmul a b) = true ↔
        (isInf a = true ∧ isZeroWord b = true) ∨ (isZeroWord a = true ∧ isInf b = true)) ∧
      (isNaN (fdiv a b) = true ↔
        (isInf a = true ∧ isInf b = true) ∨ (isZeroWord a = true ∧ isZeroWord b = true)))

/-- The infinity or the zero whose sign is the XOR of the signs of `a` and `b`. -/
def xorInf (a b : Word) : Word := if (a.msb ^^ b.msb) = true then 0xFFF0000000000000 else 0x7FF0000000000000
def xorZero (a b : Word) : Word := if (a.msb ^^ b.msb) = true then 0x8000000000000000 else 0x0000000000000000

/-- The four operations with an infinite operand, and division by zero. R15 states `inf - inf` and `0 * inf`
and the sign of a product or quotient; the other results are IEEE 754's (log 10, PRESUMED). -/
def Obligations.InfiniteOperandResults : Prop :=
  (∀ a b : Word, isInf a = true → isInf b = true →
    fadd a b = (if a.msb = b.msb then a else 0x7FF8000000000000) ∧
    fsub a b = (if a.msb = b.msb then 0x7FF8000000000000 else a) ∧
    fmul a b = xorInf a b ∧ fdiv a b = 0x7FF8000000000000) ∧
  (∀ a b : Word, isInf a = true → finiteWord b = true →
    fadd a b = a ∧ fadd b a = a ∧ fsub a b = a ∧ fsub b a = a ^^^ 0x8000000000000000 ∧
    fmul a b = (if isZeroWord b = true then 0x7FF8000000000000 else xorInf a b) ∧
    fmul b a = (if isZeroWord b = true then 0x7FF8000000000000 else xorInf a b) ∧
    fdiv a b = xorInf a b ∧ fdiv b a = xorZero a b) ∧
  (∀ a b : Word, finiteWord a = true → isZeroWord b = true →
    fdiv a b = (if isZeroWord a = true then 0x7FF8000000000000 else xorInf a b))

/-- R17: `fmul(INV, x)` is `x` or `fneg(x)` for a non-NaN `x`, and CNAN for a NaN. -/
def Obligations.DirectionMultiply : Prop :=
  ∀ x : Word,
    (isNaN x = false → fmul 0x3FF0000000000000 x = x ∧
      fmul 0xBFF0000000000000 x = x ^^^ 0x8000000000000000) ∧
    (isNaN x = true → fmul 0x3FF0000000000000 x = 0x7FF8000000000000 ∧
      fmul 0xBFF0000000000000 x = 0x7FF8000000000000)

/-- R101: dividing by `RN(N)`, which is `N` exactly, and multiplying by `RN(1/N)` give the same bits in every
case, at every legal size. -/
def Obligations.InverseScalingIsAMultiplication : Prop :=
  ∀ (p : Nat) (y : Word), 1 ≤ p → p ≤ 24 →
    wordValue (natWord (2 ^ p)) = 2 ^ p ∧
    fdiv y (natWord (2 ^ p)) = fmul y (pack false ((1023 - p) * 2 ^ 52))

/-! ## The host port -/

/-- R45, R110: an access that is not 8 bytes wide or not aligned gets BUSERR and changes no state: nothing but
the response is recorded. -/
def Obligations.BusErrorHasNoEffect : Prop :=
  ∀ (s : State) (a size : Nat) (v : Word), a < s.build.aperture → (size ≠ 8 ∨ a % 8 ≠ 0) →
    serve (.read (s.build.base + a) size) s = next { s with replies := .busError :: s.replies } ∧
    serve (.write (s.build.base + a) size v) s = next { s with replies := .busError :: s.replies }

/-- The byte offsets of the data windows (R47, R54). -/
def IsDataWindow (b : Build) (a : Nat) : Prop :=
  (b.regionSize ≤ a ∧ a < 2 * b.regionSize) ∨
  (2 * b.regionSize ≤ a ∧ a < 2 * b.regionSize + 8 * b.nmax) ∨
  (4 * b.regionSize ≤ a ∧ a < (4 + b.nbuf) * b.regionSize)

/-- R54: while busy, an access to a data window is refused, in every bank: a read returns 0, a write changes
nothing, and both set HAZARD. Register and reserved accesses are never refused: a read returns its register
or 0, a write has the effect its register has (R53) or none, and neither sets HAZARD. -/
def Obligations.BusyDataWindowsAreRefused : Prop :=
  ∀ (s : State) (a : Nat) (v : Word), s.build.Legal → s.busy = true → a < s.build.aperture → a % 8 = 0 →
    (IsDataWindow s.build a →
      serve (.read (s.build.base + a) 8) s = next { s with hazard := true, replies := .data 0 :: s.replies } ∧
      serve (.write (s.build.base + a) 8 v) s = next { s with hazard := true, replies := .okay :: s.replies }) ∧
    (¬ IsDataWindow s.build a →
      serve (.read (s.build.base + a) 8) s = next { s with
        replies := .data (if a < s.build.regionSize then s.readRegister a else 0) :: s.replies } ∧
      serve (.write (s.build.base + a) 8 v) s =
        (if a < s.build.regionSize then writeRegister a v (s.reply .okay) else next (s.reply .okay)) ∧
      ∀ t, serve (.write (s.build.base + a) 8 v) s = next t → s.hazard = false → t.hazard = false)

/-- R51: the reserved offsets read 0 and ignore writes, with OKAY and no other effect, busy or not. -/
def Obligations.ReservedOffsetsDoNothing : Prop :=
  ∀ (s : State) (a : Nat) (v : Word), s.build.Legal → a < s.build.aperture → a % 8 = 0 →
    ((0x38 ≤ a ∧ a < s.build.regionSize) ∨
      (2 * s.build.regionSize + 8 * s.build.nmax ≤ a ∧ a < 4 * s.build.regionSize) ∨
      (4 + s.build.nbuf) * s.build.regionSize ≤ a) →
    serve (.read (s.build.base + a) 8) s = next { s with replies := .data 0 :: s.replies } ∧
    serve (.write (s.build.base + a) 8 v) s = next { s with replies := .okay :: s.replies }

/-- The numbers of the error codes (R109). -/
def errCodeNumber : ErrCode → Nat
  | .none => 0
  | .invalidSize => 1
  | .aliasing => 2
  | .sizeUnsupported => 3
  | .noPlan => 4
  | .badBuffer => 5
  | .illegalCommand => 6

/-- The register block as the host reads it: each register at its offset of R24, and CMD reads 0; a register
read has no side effect (R55). ID has the fields of R26 and STATUS those of R28, with ERRCODE as R109
numbers the errors; PLAN_N and PLAN_GEOM read 0
without a plan, and with one they have the fields of R33 and R34, idle or busy (so while a PLAN runs they
show the previous plan: R75). -/
def Obligations.RegisterReads : Prop :=
  ∀ s : State, s.build.Legal →
    (∀ a < 0x38, a % 8 = 0 → serve (.read (s.build.base + a) 8) s =
      next { s with replies := .data (s.readRegister a) :: s.replies }) ∧
    (s.readRegister 0x00).toNat =
      0xFF7E + 2 ^ 16 * 0x01 + 2 ^ 24 * s.build.log2Nmax + 2 ^ 32 * s.build.nbuf ∧
    (s.readRegister 0x08).toNat = s.irqEn.toNat ∧
    (s.readRegister 0x10).toNat =
      s.busy.toNat + 2 * s.done.toNat + 2 ^ 2 * s.err.toNat + 2 ^ 3 * s.pv.toNat + 2 ^ 4 * s.overrun.toNat
        + 2 ^ 5 * s.hazard.toNat + 2 ^ 8 * errCodeNumber s.errcode + 2 ^ 16 * s.lastop.toNat ∧
    (s.readRegister 0x18).toNat = s.arg.toNat ∧ s.readRegister 0x20 = 0 ∧
    (s.pv = false → s.readRegister 0x28 = 0 ∧ s.readRegister 0x30 = 0) ∧
    (∀ p, 1 ≤ p → p ≤ 24 → s.pv = true → s.pn = 2 ^ p →
      (s.readRegister 0x28).toNat = 2 ^ p ∧
      (s.readRegister 0x30).toNat =
        p + 2 ^ 8 * (if p % 2 = 0 then p - 1 else p) + 2 ^ 16 * (if p % 2 = 0 then 8 else 4)
          + 2 ^ 24 * ((p - 1) / 2))

/-- R29: a write of `w` to STATUS clears DONE, ERR with ERRCODE, OVERRUN and HAZARD, each by its own bit, and
every other bit is unchanged; it is legal at any time, busy or not. -/
def Obligations.StatusWriteClears : Prop :=
  ∀ (s : State) (w : Word), s.build.Legal →
    ∃ t, serve (.write (s.build.base + 0x10) 8 w) s = next t ∧
      t = { s with
        done := t.done, err := t.err, errcode := t.errcode, overrun := t.overrun, hazard := t.hazard
        replies := .okay :: s.replies } ∧
      t.done = (if w.toNat / 2 % 2 = 1 then false else s.done) ∧
      t.err = (if w.toNat / 4 % 2 = 1 then false else s.err) ∧
      t.errcode = (if w.toNat / 4 % 2 = 1 then .none else s.errcode) ∧
      t.overrun = (if w.toNat / 16 % 2 = 1 then false else s.overrun) ∧
      t.hazard = (if w.toNat / 32 % 2 = 1 then false else s.hazard)

/-- A write to ARG stores bits 31:0 and ignores bits 63:32, also while a PLAN runs, whose context keeps the
size it latched (R31). A write to ID, PLAN_N or PLAN_GEOM is ignored (R25). -/
def Obligations.ArgAndReadOnlyWrites : Prop :=
  ∀ (s : State) (v : Word), s.build.Legal →
    serve (.write (s.build.base + 0x18) 8 v) s = next { s with
      arg := BitVec.ofNat 32 v.toNat, replies := .okay :: s.replies } ∧
    ∀ a ∈ [0x00, 0x28, 0x30],
      serve (.write (s.build.base + a) 8 v) s = next { s with replies := .okay :: s.replies }

/-- R27, the case of bit 1 = 0, at any time: only IRQ_EN changes, to bit 0 of the word written. -/
def Obligations.CtrlWriteSetsIrqEnable : Prop :=
  ∀ (s : State) (w : Word), s.build.Legal → w.toNat / 2 % 2 = 0 →
    serve (.write (s.build.base + 0x08) 8 w) s = next { s with
      irqEn := decide (w.toNat % 2 = 1), replies := .okay :: s.replies }

/-- R123: a CTRL write with bit 1 = 1 resets every register field, the plan and SEQ, whatever bit 0 is; of the
banks it leaves every word but those of an aborted command's write footprint (R125), which become
unspecified; after it every command but NOP and PLAN is rejected with NO_PLAN. No other host access stops a
running command. -/
def Obligations.SoftReset : Prop :=
  ∀ (s : State) (w : Word), s.build.Legal → w.toNat / 2 % 2 = 1 →
    ∃ t, serve (.write (s.build.base + 0x08) 8 w) s = next t ∧
      t = { s with
        seq := .idle, irqEn := false, done := false, err := false, overrun := false, hazard := false
        errcode := .none, lastop := 0, arg := 0, pv := false, pn := 0, mem := t.mem
        replies := .okay :: s.replies } ∧
      (s.seq = .idle → t.mem = s.mem) ∧
      (∀ c, s.seq = .running c →
        (c.op = .plan → ∀ a, t.mem.readByte a = s.mem.readByte a) ∧
        (c.op ∈ [.fwd, .inv, .rfwd, .r2c, .clr] → KeepsBytesOutside s t c.dst 0 (2 * s.pn) ∧
          ∀ i < 2 * s.pn, t.bankWord c.dst i = none) ∧
        (c.op = .c2r → KeepsBytesOutside s t c.dst 0 s.pn ∧ ∀ i < s.pn, t.bankWord c.dst i = none) ∧
        (c.op = .cspec → KeepsBytesOutside s t c.dst (s.pn + 2) (s.pn - 2) ∧
          ∀ i, s.pn + 2 ≤ i → i < s.pn + 2 + (s.pn - 2) → t.bankWord c.dst i = none)) ∧
      (∀ i, i ≠ .nop → i ≠ .plan → ∃ u, exec i { t with turn := .host } = next u ∧
        u.err = true ∧ u.errcode = .noPlan ∧ u.seq = .idle) ∧
      (∀ (i : Input) (c : Ctx) (u : State), s.seq = .running c → s.turn = .host → i ≠ .powerOn →
        (∀ w' : Word, w'.toNat / 2 % 2 = 1 → i ≠ .write (s.build.base + 0x08) 8 w') →
        serve i s = next u → u.seq = .running c)

/-- R48 and R49 while idle: the table windows read the table inside the plan's range and 0 beyond it or with no
plan, and ignore writes with OKAY. -/
def Obligations.TableWindows : Prop :=
  ∀ (s : State) (v : Word), s.build.Legal → s.seq = .idle →
    (∀ i < 2 * s.build.nmax,
      serve (.read (s.build.base + s.build.regionSize + 8 * i) 8) s = next { s with
        replies := .data (if s.pv = true ∧ i < 2 * s.pn then twt s.pn i else 0) :: s.replies } ∧
      serve (.write (s.build.base + s.build.regionSize + 8 * i) 8 v) s = next { s with
        replies := .okay :: s.replies }) ∧
    (∀ j < s.build.nmax,
      serve (.read (s.build.base + 2 * s.build.regionSize + 8 * j) 8) s = next { s with
        replies := .data (if s.pv = true ∧ j < 2 ^ width s.pn then BitVec.ofNat 64 (brt s.pn j) else 0)
          :: s.replies } ∧
      serve (.write (s.build.base + 2 * s.build.regionSize + 8 * j) 8 v) s = next { s with
        replies := .okay :: s.replies })

/-- R50 while idle: a bank write of `v` is read back as the same 64 bits, changes no other byte and nothing
else; a read returns the word stored and changes nothing, or draws some value where the word is unspecified
(whatever that value is: log 4). Every word of every bank is reachable, whatever the plan. -/
def Obligations.BankWindowReadsBack : Prop :=
  ∀ (s : State) (b i : Nat) (v : Word), s.build.Legal → s.seq = .idle → b < s.build.nbuf →
    i < 2 * s.build.nmax →
    (∃ t, serve (.write (s.build.base + ((4 + b) * s.build.regionSize + 8 * i)) 8 v) s = next t ∧
      t = { s with mem := t.mem, replies := .okay :: s.replies } ∧ t.bankWord b i = some v ∧
      (∀ a, (a < (4 + b) * s.build.regionSize + 8 * i ∨ (4 + b) * s.build.regionSize + 8 * i + 8 ≤ a) →
        t.mem.readByte a = s.mem.readByte a) ∧
      serve (.read (s.build.base + ((4 + b) * s.build.regionSize + 8 * i)) 8) t = next { t with
        replies := .data v :: t.replies }) ∧
    (∀ w, s.bankWord b i = some w →
      serve (.read (s.build.base + ((4 + b) * s.build.regionSize + 8 * i)) 8) s = next { s with
        replies := .data w :: s.replies }) ∧
    (s.bankWord b i = none → ∃ w : Word,
      serve (.read (s.build.base + ((4 + b) * s.build.regionSize + 8 * i)) 8) s = next { s with
        replies := .data w :: s.replies, readDraws := s.readDraws + 1 })

/-! ## Rules about the whole machine -/

/-- R35: only the completion of PLAN and reset write PV and PN. -/
def Obligations.OnlyPlanAndResetWriteThePlan : Prop :=
  ∀ s t : State, s.build.Legal → step s = next t → (t.pv ≠ s.pv ∨ t.pn ≠ s.pn) →
    (∃ c, s.seq = .running c ∧ c.op = .plan ∧ t.pv = true ∧ t.pn = c.n ∧ t.seq = .idle) ∨
    (∃ rest, s.inputs = .powerOn :: rest ∧ t.pv = false ∧ t.pn = 0) ∨
    (∃ rest w, s.inputs = .write (s.build.base + 0x08) 8 w :: rest ∧ w.toNat / 2 % 2 = 1 ∧
      t.pv = false ∧ t.pn = 0)

/-- R115: `irq` rises only by a completion, a rejection, the acceptance of NOP, or setting IRQ_EN while
DONE = 1; OVERRUN, HAZARD, ERR alone and BUSERR never raise it. -/
def Obligations.IrqRisesOnlyBy : Prop :=
  ∀ s t : State, s.build.Legal → step s = next t → s.irq = false → t.irq = true →
    (∃ c, s.seq = .running c ∧ t.seq = .idle ∧ t.done = true ∧ (s.inputs = [] ∨ s.turn = .engine)) ∨
    (∃ rest w, s.inputs = issueInput s.build w :: rest ∧ s.seq = .idle ∧ t.seq = .idle ∧ t.done = true ∧
      (t.err = true ∨ decode w = .ok .nop)) ∨
    (∃ rest w, s.inputs = .write (s.build.base + 0x08) 8 w :: rest ∧ w.toNat / 2 % 2 = 0 ∧
      w.toNat % 2 = 1 ∧ s.done = true)

/-- R42: `irq` is IRQ_EN AND DONE, as CTRL and STATUS show them, in every state, and 0 after reset. R115: it
falls only by a W1C of DONE, the acceptance of the next command, a CTRL write that clears IRQ_EN, or a
reset. -/
def Obligations.IrqIsEnableAndDone : Prop :=
  (∀ s : State, s.irq = true ↔
    (s.readRegister 0x08).toNat % 2 = 1 ∧ (s.readRegister 0x10).toNat / 2 % 2 = 1) ∧
  State.reset.irq = false ∧
  (∀ s t : State, s.build.Legal → step s = next t → s.irq = true → t.irq = false →
    (∃ rest w, s.inputs = .write (s.build.base + 0x10) 8 w :: rest ∧ w.toNat / 2 % 2 = 1) ∨
    (∃ rest w c, s.inputs = issueInput s.build w :: rest ∧ s.seq = .idle ∧ t.seq = .running c) ∨
    (∃ rest w, s.inputs = .write (s.build.base + 0x08) 8 w :: rest ∧
      (w.toNat / 2 % 2 = 1 ∨ w.toNat % 2 = 0)) ∨
    (∃ rest, s.inputs = .powerOn :: rest))

/-- R39, R57, R59: a byte of a bank changes only by the completion of a command that has it in its write
footprint, by a host write to its word while idle, by the abort of such a command, or by power-on reset. -/
def Obligations.BankBytesChangeOnlyBy : Prop :=
  ∀ (s t : State) (a : Nat), s.build.Legal → (s.pv = true → legalSize s.build s.pn) →
    (∀ c, s.seq = .running c → c.Legal s.build s.pv) →
    step s = next t → t.mem.readByte a ≠ s.mem.readByte a →
    (∃ c, s.seq = .running c ∧ t.seq = .idle ∧
      bankAddr s.build c.dst (writeSpan c s.pn).lo ≤ a ∧
      a < bankAddr s.build c.dst ((writeSpan c s.pn).lo + (writeSpan c s.pn).len)) ∨
    (∃ rest b i v, s.seq = .idle ∧ s.inputs = .write (s.build.base + bankAddr s.build b i) 8 v :: rest ∧
      b < s.build.nbuf ∧ i < 2 * s.build.nmax ∧ bankAddr s.build b i ≤ a ∧ a < bankAddr s.build b i + 8) ∨
    (∃ rest, s.inputs = .powerOn :: rest)

/-- R59, R129: nothing the host does while a command runs changes the command, its operands or the plan,
except a soft reset (or the platform's power-on reset): the banks, PV, PN, SEQ are as they were. -/
def Obligations.HostCannotDisturbARunningCommand : Prop :=
  ∀ (s t : State) (c : Ctx) (i : Input), s.build.Legal → s.seq = .running c → s.turn = .host →
    i ≠ .powerOn →
    (∀ w : Word, w.toNat / 2 % 2 = 1 → i ≠ .write (s.build.base + 0x08) 8 w) →
    serve i s = next t →
    t.seq = .running c ∧ t.mem = s.mem ∧ t.pv = s.pv ∧ t.pn = s.pn ∧ t.build = s.build

/-- ID is constant (R26): no step changes the parameters. -/
def Obligations.ParametersNeverChange : Prop :=
  ∀ s t : State, step s = next t → t.build = s.build ∧ t.readRegister 0x00 = s.readRegister 0x00
end

