-- ==== Sys2Proof/Laws/Tables.lean ====
section
/-!
SUPPORT. The derived quantities of a plan of size `2^p` (10_state.md R36).
-/

namespace Sys2Proof.Machine

@[simp] theorem power_two_pow (p : Nat) : power (2 ^ p) = p := Nat.log2_two_pow

theorem width_two_pow (p : Nat) : width (2 ^ p) = if p % 2 = 0 then p - 1 else p := by
  simp [width]

/-- The group length of the first phase (R36): 8 for a power of four, else 4. -/
theorem len0_two_pow {p : Nat} (hp : 1 ≤ p) : len0 (2 ^ p) = if p % 2 = 0 then 8 else 4 := by
  rw [len0, width_two_pow, Nat.shiftRight_eq_div_pow, Nat.shiftLeft_eq, ← pow_succ']
  split
  · rw [Nat.pow_div (by omega) (by norm_num), show p + 1 - (p - 1) = 2 by omega]
  · rw [Nat.pow_div (by omega) (by norm_num), show p + 1 - p = 1 by omega]

theorem npass_two_pow {p : Nat} (hp : 1 ≤ p) : npass (2 ^ p) = (p - 1) / 2 := by
  rw [npass, width_two_pow]
  split <;> omega

/-- The groups of the first phase tile the `2N` words of the output (R94). -/
theorem groups_mul_len0 {p : Nat} (hp : 1 ≤ p) :
    2 ^ (width (2 ^ p) - 1) * len0 (2 ^ p) = 2 * 2 ^ p := by
  rw [len0_two_pow hp, width_two_pow]
  split
  · rw [show (8 : Nat) = 2 ^ 3 by norm_num, ← pow_add, ← pow_succ']
    congr 1
    omega
  · rw [show (4 : Nat) = 2 ^ 2 by norm_num, ← pow_add, ← pow_succ']
    congr 1
    omega

end Sys2Proof.Machine
end

