-- ==== Sys2Proof/Laws/Engine.lean ====
section
/-!
SUPPORT. Every phase of the engine makes or keeps the `2N` words of the output buffer, and each position of a
combining pass changes only the eight words it names (42_complex_engine.md R96).
-/

namespace Sys2Proof.Machine

variable {α : Type} (A : Arith α)

@[simp] theorem radix2_length (e o : α × α) : (radix2 A e o).length = 4 := rfl
@[simp] theorem radix2r_length (e o : α) : (radix2r A e o).length = 4 := rfl
@[simp] theorem radix4r_length (a b c d inv : α) : (radix4r A a b c d inv).length = 8 := rfl
@[simp] theorem quad_words_length (k : Quad α) : k.words.length = 8 := rfl

theorem flatMap_length_const {β γ : Type} (xs : List β) (f : β → List γ) (k : Nat)
    (h : ∀ x, (f x).length = k) : (xs.flatMap f).length = xs.length * k := by
  induction xs with
  | nil => simp
  | cons x xs ih => simp [ih, h]; ring

theorem phase1_length {p : Nat} (hp : 1 ≤ p) (inv : α) (X : List α) :
    (phase1 A (2 ^ p) inv X).length = 2 * 2 ^ p := by
  rw [← groups_mul_len0 hp]
  refine (flatMap_length_const _ _ (len0 (2 ^ p)) fun t => ?_).trans (by simp)
  have := len0_two_pow hp
  by_cases h : p % 2 = 0 <;> simp_all

/-- The stride of the real first phase, half of `step = 2^WIDTH` (R105). -/
theorem phase1r_stride {p : Nat} (hp : 1 ≤ p) :
    (2 ^ width (2 ^ p)) >>> 1 = 2 ^ (width (2 ^ p) - 1) := by
  have hw : 1 ≤ width (2 ^ p) := by rw [width_two_pow]; split <;> omega
  rw [Nat.shiftRight_eq_div_pow, Nat.pow_div hw (by norm_num)]

theorem phase1r_length {p : Nat} (hp : 1 ≤ p) (inv : α) (X : List α) :
    (phase1r A (2 ^ p) inv X).length = 2 * 2 ^ p := by
  rw [← groups_mul_len0 hp]
  refine (flatMap_length_const _ _ (len0 (2 ^ p)) fun t => ?_).trans (by simp)
  have := len0_two_pow hp
  by_cases h : p % 2 = 0 <;> simp_all

@[simp] theorem putSample_length (Y : List α) (i : Nat) (z : α × α) :
    (putSample Y i z).length = Y.length := by simp [putSample]

@[simp] theorem butterfly_length (tw : Nat → α × α) (inv : α) (s q outOff : Nat) (Y : List α) (m : Nat) :
    (butterfly A tw inv s q outOff Y m).length = Y.length := by simp [butterfly]

/-- A fold keeps a property of its state that each of its steps keeps. -/
theorem foldl_keeps {β γ : Type} (P : β → Prop) (f : β → γ → β) (hf : ∀ b c, P b → P (f b c))
    (xs : List γ) (b : β) (hb : P b) : P (xs.foldl f b) := by
  induction xs generalizing b with
  | nil => exact hb
  | cons x xs ih => exact ih _ (hf b x hb)

@[simp] theorem pass_length (tw : Nat → α × α) (inv : α) (N : Nat) (Y : List α) (s : Nat) :
    (pass A tw inv N Y s).length = Y.length := by
  refine foldl_keeps (fun Z : List α => Z.length = Y.length) _ (fun Z blk hZ => ?_) _ _ rfl
  exact foldl_keeps (fun W : List α => W.length = Y.length) _ (fun W m hW => by simpa using hW) _ _ hZ

@[simp] theorem phase2_length (tw : Nat → α × α) (inv : α) (N : Nat) (Y : List α) :
    (phase2 A tw inv N Y).length = Y.length :=
  foldl_keeps (fun Z : List α => Z.length = Y.length) _ (fun Z s hZ => by simpa using hZ) _ _ rfl

theorem engine_length {p : Nat} (hp : 1 ≤ p) (tw : Nat → α × α) (inv : α) (X : List α) :
    (engine A tw (2 ^ p) inv X).length = 2 * 2 ^ p := by
  rw [engine, phase2_length, phase1_length A hp]

theorem engineR_length {p : Nat} (hp : 1 ≤ p) (tw : Nat → α × α) (inv : α) (X : List α) :
    (engineR A tw (2 ^ p) inv X).length = 2 * 2 ^ p := by
  rw [engineR, phase2_length, phase1r_length A hp]

theorem fwdWords_length {p : Nat} (hp : 1 ≤ p) (inv : Word) (X : List Word) :
    (fwdWords (2 ^ p) inv X).length = 2 * 2 ^ p := engine_length _ hp _ _ _

theorem invWords_length {p : Nat} (hp : 1 ≤ p) (inv : Word) (X : List Word) :
    (invWords (2 ^ p) inv X).length = 2 * 2 ^ p := by
  rw [invWords, List.length_map, engine_length _ hp]

theorem rfwdWords_length {p : Nat} (hp : 1 ≤ p) (inv : Word) (X : List Word) :
    (rfwdWords (2 ^ p) inv X).length = 2 * 2 ^ p := engineR_length _ hp _ _ _

/-- One position asks the lookup for three indexes, `k`, `2k` and `3k` with `k = s * m` (R96). -/
theorem butterfly_lookup_congr {tw tw' : Nat → α × α} {s m : Nat}
    (h : ∀ f ∈ [1, 2, 3], tw (f * (s * m)) = tw' (f * (s * m))) (inv : α) (q outOff : Nat) (Y : List α) :
    butterfly A tw inv s q outOff Y m = butterfly A tw' inv s q outOff Y m := by
  have h1 := h 1 (by decide)
  rw [Nat.one_mul] at h1
  simp only [butterfly, cmul, h1, h 2 (by decide), h 3 (by decide)]

/-- The combining phase asks the lookup for no other index than those of its positions (R91, R96). -/
theorem phase2_lookup_congr {tw tw' : Nat → α × α} {N : Nat}
    (h : ∀ s ∈ strides N, ∀ m < 2 * N / s * 2 / 8, ∀ f ∈ [1, 2, 3], tw (f * (s * m)) = tw' (f * (s * m)))
    (inv : α) (Y : List α) : phase2 A tw inv N Y = phase2 A tw' inv N Y := by
  refine List.foldl_ext _ _ _ fun Z s hs => List.foldl_ext _ _ _ fun Z' blk _ => ?_
  exact List.foldl_ext _ _ _ fun Z'' m hm =>
    butterfly_lookup_congr A (h s hs m (List.mem_range.mp hm)) inv _ _ Z''

/-- A word that is not one of the two of the sample written keeps its value. -/
theorem putSample_getElem?_ne (Y : List α) (i x : Nat) (z : α × α) (h : x ≠ i ∧ x ≠ i + 1) :
    (putSample Y i z)[x]? = Y[x]? := by
  simp [putSample, h.1.symm, h.2.symm]

/-- The frame of one position (R96): a word that is not one of its eight keeps its value. -/
theorem butterfly_frame (tw : Nat → α × α) (inv : α) (s q outOff : Nat) (Y : List α) (m x : Nat)
    (h : ∀ r < 4, x ≠ outOff + 2 * m + r * q ∧ x ≠ outOff + 2 * m + r * q + 1) :
    (butterfly A tw inv s q outOff Y m)[x]? = Y[x]? := by
  have h0 := h 0 (by decide)
  have h1 := h 1 (by decide)
  have h2 := h 2 (by decide)
  have h3 := h 3 (by decide)
  simp only [butterfly]
  rw [putSample_getElem?_ne _ _ _ _ (by omega), putSample_getElem?_ne _ _ _ _ (by omega),
    putSample_getElem?_ne _ _ _ _ (by omega), putSample_getElem?_ne _ _ _ _ (by omega)]

end Sys2Proof.Machine
end

