-- ==== Sys2Proof/Laws/Word.lean ====
section
/-!
SUPPORT. Bytes and words (20_memory.md R46), and the all-or-nothing reading of a list of optional values.
-/

namespace Sys2Proof.Machine

@[simp] theorem bytesOfWord_length (w : Word) : (bytesOfWord w).length = 8 := by simp [bytesOfWord]

/-- A word is the word of its own bytes. -/
@[simp] theorem wordOfBytes_bytesOfWord (w : Word) : wordOfBytes (bytesOfWord w) = w := by
  have h : (List.range 8) = [0, 1, 2, 3, 4, 5, 6, 7] := by decide
  have hw := w.isLt
  apply BitVec.eq_of_toNat_eq
  simp only [bytesOfWord, h, List.map, wordOfBytes, List.foldr, BitVec.toNat_ofNat,
    BitVec.extractLsb'_toNat, Nat.shiftRight_eq_div_pow]
  omega

@[simp] theorem optBytes_length (w : Option Word) : (optBytes w).length = 8 := by
  cases w <;> simp [optBytes]

theorem flatMap_optBytes_length (ws : List (Option Word)) :
    (ws.flatMap optBytes).length = 8 * ws.length := by
  induction ws with
  | nil => rfl
  | cons w ws ih => simp [ih]; omega

/-- Byte `j` of word `i` of a run of words. -/
theorem flatMap_optBytes_getElem? (ws : List (Option Word)) (i j : Nat) (hj : j < 8) :
    (ws.flatMap optBytes)[8 * i + j]? = (ws[i]?).bind fun w => (optBytes w)[j]? := by
  induction ws generalizing i with
  | nil => simp
  | cons w ws ih =>
    cases i with
    | zero => simp [List.getElem?_append, hj]
    | succ i =>
      rw [List.flatMap_cons, List.getElem?_append_right (by simp; omega)]
      have : 8 * (i + 1) + j - (optBytes w).length = 8 * i + j := by simp; omega
      rw [this, ih]
      simp

theorem allSome_map_some {α : Type} (xs : List α) : allSome (xs.map some) = some xs := by
  induction xs with
  | nil => rfl
  | cons x xs ih => simp [allSome, ih]

theorem allSome_eq_some {α : Type} {os : List (Option α)} {xs : List α} :
    allSome os = some xs ↔ os = xs.map some := by
  constructor
  · intro h
    induction os generalizing xs with
    | nil => simp [allSome] at h; simp [← h]
    | cons o os ih =>
      cases o with
      | none => simp [allSome] at h
      | some x =>
        simp only [allSome, Option.map_eq_some_iff] at h
        obtain ⟨ys, hys, rfl⟩ := h
        simp [ih hys]
  · rintro rfl
    exact allSome_map_some xs

/-- One value missing is enough, and is needed, for the whole list to be missing. -/
theorem allSome_eq_none {α : Type} {os : List (Option α)} : allSome os = none ↔ none ∈ os := by
  induction os with
  | nil => simp [allSome]
  | cons o os ih => cases o <;> simp [allSome, ih]

end Sys2Proof.Machine
end

