-- ==== Sys2Proof/Laws/Memory.lean ====
section
/-!
SUPPORT. What the byte store does: a store is read back inside its run and changes nothing outside, and it
keeps the canonical form.
-/

namespace Sys2Proof.Machine

@[simp] theorem Memory.readByte_nil (a : Nat) : Memory.readByte [] a = none := rfl

theorem Memory.readByte_cons (c : Host.Cell) (m : Memory) (a : Nat) :
    Memory.readByte (c :: m) a = if c.1 = a then some c.2 else Memory.readByte m a := by
  by_cases h : c.1 = a <;> simp [Memory.readByte, h]

theorem Memory.readByte_append (m n : Memory) (a : Nat) :
    Memory.readByte (m ++ n) a = (Memory.readByte m a).or (Memory.readByte n a) := by
  induction m with
  | nil => simp
  | cons c m ih =>
    rw [List.cons_append, Memory.readByte_cons, Memory.readByte_cons, ih]
    split <;> simp

/-- A filter on addresses hides the addresses it drops and keeps the others. -/
theorem Memory.readByte_filter (p : Nat → Bool) (m : Memory) (a : Nat) :
    Memory.readByte (m.filter fun c => p c.1) a = if p a then Memory.readByte m a else none := by
  induction m with
  | nil => simp
  | cons c m ih =>
    by_cases hp : p c.1
    · rw [List.filter_cons_of_pos (by simpa using hp), Memory.readByte_cons, Memory.readByte_cons, ih]
      split
      · next h => subst h; simp [hp]
      · rfl
    · rw [List.filter_cons_of_neg (by simpa using hp), ih, Memory.readByte_cons]
      split
      · split
        · next h => subst h; simp_all
        · rfl
      · rfl

theorem readByte_cellsFrom (a : Nat) (bs : List (Option Byte)) (x : Nat) :
    Memory.readByte (cellsFrom a bs) x = if a ≤ x then (bs[x - a]?).join else none := by
  induction bs generalizing a with
  | nil => simp [cellsFrom]
  | cons b bs ih =>
    cases b with
    | none =>
      simp only [cellsFrom, ih]
      by_cases h1 : a + 1 ≤ x
      · have : x - a = (x - (a + 1)) + 1 := by omega
        simp [h1, this, show a ≤ x by omega]
      · by_cases h2 : a ≤ x
        · have : x = a := by omega
          subst this; simp
        · simp [h1, h2]
    | some b =>
      simp only [cellsFrom, Memory.readByte_cons, ih]
      by_cases h0 : a = x
      · subst h0; simp
      · by_cases h1 : a + 1 ≤ x
        · have : x - a = (x - (a + 1)) + 1 := by omega
          simp [h0, h1, this, show a ≤ x by omega]
        · simp [h0, h1, show ¬ a ≤ x by omega]

/-- A byte after a store: the stored one inside the run, the old one outside. -/
theorem Memory.readByte_store (m : Memory) (a : Nat) (bs : List (Option Byte)) (x : Nat) :
    (m.store a bs).readByte x =
      if a ≤ x ∧ x < a + bs.length then (bs[x - a]?).join else m.readByte x := by
  simp only [Memory.store, Memory.readByte_append, readByte_cellsFrom,
    Memory.readByte_filter (fun n => decide (n < a)),
    Memory.readByte_filter (fun n => decide (a + bs.length ≤ n)), decide_eq_true_eq]
  by_cases h1 : x < a
  · simp [h1, show ¬ a ≤ x by omega, show ¬ a + bs.length ≤ x by omega]
  · by_cases h2 : x < a + bs.length
    · simp [h1, h2, show a ≤ x by omega, show ¬ a + bs.length ≤ x by omega]
    · have : bs[x - a]? = none := List.getElem?_eq_none (by omega)
      simp [h1, h2, show a ≤ x by omega, show a + bs.length ≤ x by omega, this]

/-- Two memories that read the same everywhere below and inside 8 bytes give the same word. -/
theorem Memory.readWord_congr {m n : Memory} {a b : Nat}
    (h : ∀ j < 8, m.readByte (a + j) = n.readByte (b + j)) : m.readWord a = n.readWord b := by
  have : (List.range 8).map (fun j => m.readByte (a + j)) = (List.range 8).map (fun j => n.readByte (b + j)) := by
    apply List.map_congr_left
    intro j hj
    exact h j (List.mem_range.mp hj)
  rw [Memory.readWord, Memory.readWord, this]

theorem Memory.readWord_of_bytes {m : Memory} {a : Nat} {w : Option Word}
    (h : ∀ j < 8, m.readByte (a + j) = ((optBytes w)[j]?).join) : m.readWord a = w := by
  have h8 : (List.range 8).map (fun j => m.readByte (a + j)) = optBytes w := by
    apply List.ext_getElem
    · simp
    · intro j h1 h2
      simp only [List.getElem_map, List.getElem_range]
      rw [h j (by simpa using h1), List.getElem?_eq_getElem h2]
      rfl
  rw [Memory.readWord, h8]
  cases w with
  | none => simp [optBytes, allSome, List.replicate]
  | some w => simp [optBytes, allSome_map_some]

/-- Byte-exact effect of storing a run of words. -/
theorem Memory.readByte_storeWords (m : Memory) (a : Nat) (ws : List (Option Word)) (x : Nat) :
    (m.storeWords a ws).readByte x =
      if a ≤ x ∧ x < a + 8 * ws.length then ((ws.flatMap optBytes)[x - a]?).join else m.readByte x := by
  rw [Memory.storeWords, Memory.readByte_store, flatMap_optBytes_length]

/-- Outside the run nothing changes. -/
theorem Memory.readByte_storeWords_outside {m : Memory} {a : Nat} {ws : List (Option Word)} {x : Nat}
    (h : x < a ∨ a + 8 * ws.length ≤ x) : (m.storeWords a ws).readByte x = m.readByte x := by
  rw [Memory.readByte_storeWords, if_neg (by omega)]

/-- Word `i` of the run is read back. -/
theorem Memory.readWord_storeWords (m : Memory) (a : Nat) (ws : List (Option Word)) (i : Nat)
    (hi : i < ws.length) : (m.storeWords a ws).readWord (a + 8 * i) = ws[i] := by
  apply Memory.readWord_of_bytes
  intro j hj
  rw [Memory.readByte_storeWords, if_pos (by omega),
    show a + 8 * i + j - a = 8 * i + j by omega, flatMap_optBytes_getElem? ws i j hj,
    List.getElem?_eq_getElem hi]
  simp

/-- A word outside the run keeps its value. -/
theorem Memory.readWord_storeWords_outside {m : Memory} {a : Nat} {ws : List (Option Word)} {x : Nat}
    (h : x + 8 ≤ a ∨ a + 8 * ws.length ≤ x) : (m.storeWords a ws).readWord x = m.readWord x :=
  Memory.readWord_congr fun j _ => Memory.readByte_storeWords_outside (by omega)

theorem cellsFrom_mem {a : Nat} {bs : List (Option Byte)} {c : Host.Cell} (h : c ∈ cellsFrom a bs) :
    a ≤ c.1 ∧ c.1 < a + bs.length := by
  induction bs generalizing a with
  | nil => simp [cellsFrom] at h
  | cons b bs ih =>
    cases b with
    | none => have := ih h; simp; omega
    | some b =>
      simp only [cellsFrom, List.mem_cons] at h
      rcases h with rfl | h
      · simp
      · have := ih h; simp; omega

theorem cellsFrom_wf (a : Nat) (bs : List (Option Byte)) : Memory.wf (cellsFrom a bs) := by
  induction bs generalizing a with
  | nil => exact List.Pairwise.nil
  | cons b bs ih =>
    cases b with
    | none => exact ih (a + 1)
    | some b =>
      refine List.Pairwise.cons (fun c hc => ?_) (ih (a + 1))
      have := (cellsFrom_mem hc).1
      exact this

/-- Every store keeps the canonical form. -/
theorem Memory.store_wf {m : Memory} (h : m.wf) (a : Nat) (bs : List (Option Byte)) :
    (m.store a bs).wf := by
  refine List.pairwise_append.mpr ⟨List.pairwise_append.mpr ⟨h.filter _, cellsFrom_wf a bs, ?_⟩, h.filter _, ?_⟩
  · intro x hx y hy
    have h1 := (List.mem_filter.mp hx).2
    have h2 := (cellsFrom_mem hy).1
    simp only [decide_eq_true_eq] at h1
    omega
  · intro x hx y hy
    have h2 := (List.mem_filter.mp hy).2
    simp only [decide_eq_true_eq] at h2
    rcases List.mem_append.mp hx with hx | hx
    · have h1 := (List.mem_filter.mp hx).2
      simp only [decide_eq_true_eq] at h1
      omega
    · have h1 := (cellsFrom_mem hx).2
      omega

theorem Memory.storeWords_wf {m : Memory} (h : m.wf) (a : Nat) (ws : List (Option Word)) :
    (m.storeWords a ws).wf := Memory.store_wf h a _

/-- Memories in canonical form that read the same are the same. -/
theorem Memory.eq_of_readByte {m n : Memory} (hm : m.wf) (hn : n.wf)
    (h : ∀ a, m.readByte a = n.readByte a) : m = n := by
  have key : ∀ {k : Memory}, k.wf → ∀ {c : Host.Cell}, c ∈ k → k.readByte c.1 = some c.2 := by
    intro k hk c hc
    induction k with
    | nil => simp at hc
    | cons d k ih =>
      rw [Memory.readByte_cons]
      rcases List.mem_cons.mp hc with rfl | hc'
      · simp
      · have := (List.pairwise_cons.mp hk).1 c hc'
        rw [if_neg (by omega), ih (List.pairwise_cons.mp hk).2 hc']
  have mem : ∀ {k : Memory} {a : Nat} {b : Byte}, k.readByte a = some b → (a, b) ∈ k := by
    intro k a b hb
    induction k with
    | nil => simp at hb
    | cons d k ih =>
      rw [Memory.readByte_cons] at hb
      split at hb
      · next hd => cases hb; subst hd; simp
      · exact List.mem_cons_of_mem _ (ih hb)
  refine List.Perm.eq_of_pairwise (le := fun a b => a.1 < b.1) (fun a b _ _ h1 h2 => by omega) hm hn ?_
  refine (List.perm_ext_iff_of_nodup ?_ ?_).mpr fun c => ⟨fun hc => ?_, fun hc => ?_⟩
  · exact hm.imp fun h => by rintro rfl; omega
  · exact hn.imp fun h => by rintro rfl; omega
  · exact mem ((h c.1).symm.trans (key hm hc))
  · exact mem ((h c.1).trans (key hn hc))

end Sys2Proof.Machine
end

