-- ==== Sys2Proof/Laws/State.lean ====
section
/-!
SUPPORT. One lemma for each field of each named update of State, so that no proof unfolds a record update.
-/

namespace Sys2Proof.Machine

variable (s : State)

@[simp] theorem State.beginCheck_build (op : BitVec 8) : (s.beginCheck op).build = s.build := rfl
@[simp] theorem State.beginCheck_irqEn (op : BitVec 8) : (s.beginCheck op).irqEn = s.irqEn := rfl
@[simp] theorem State.beginCheck_done (op : BitVec 8) : (s.beginCheck op).done = false := rfl
@[simp] theorem State.beginCheck_err (op : BitVec 8) : (s.beginCheck op).err = false := rfl
@[simp] theorem State.beginCheck_overrun (op : BitVec 8) : (s.beginCheck op).overrun = s.overrun := rfl
@[simp] theorem State.beginCheck_hazard (op : BitVec 8) : (s.beginCheck op).hazard = s.hazard := rfl
@[simp] theorem State.beginCheck_errcode (op : BitVec 8) : (s.beginCheck op).errcode = .none := rfl
@[simp] theorem State.beginCheck_lastop (op : BitVec 8) : (s.beginCheck op).lastop = op := rfl
@[simp] theorem State.beginCheck_arg (op : BitVec 8) : (s.beginCheck op).arg = s.arg := rfl
@[simp] theorem State.beginCheck_pv (op : BitVec 8) : (s.beginCheck op).pv = s.pv := rfl
@[simp] theorem State.beginCheck_pn (op : BitVec 8) : (s.beginCheck op).pn = s.pn := rfl
@[simp] theorem State.beginCheck_seq (op : BitVec 8) : (s.beginCheck op).seq = s.seq := rfl
@[simp] theorem State.beginCheck_mem (op : BitVec 8) : (s.beginCheck op).mem = s.mem := rfl
@[simp] theorem State.beginCheck_inputs (op : BitVec 8) : (s.beginCheck op).inputs = s.inputs := rfl
@[simp] theorem State.beginCheck_replies (op : BitVec 8) : (s.beginCheck op).replies = s.replies := rfl
@[simp] theorem State.beginCheck_turn (op : BitVec 8) : (s.beginCheck op).turn = s.turn := rfl
@[simp] theorem State.beginCheck_turnDraws (op : BitVec 8) : (s.beginCheck op).turnDraws = s.turnDraws := rfl
@[simp] theorem State.beginCheck_readDraws (op : BitVec 8) : (s.beginCheck op).readDraws = s.readDraws := rfl

@[simp] theorem State.raiseError_build (c : ErrCode) : (s.raiseError c).build = s.build := rfl
@[simp] theorem State.raiseError_irqEn (c : ErrCode) : (s.raiseError c).irqEn = s.irqEn := rfl
@[simp] theorem State.raiseError_done (c : ErrCode) : (s.raiseError c).done = true := rfl
@[simp] theorem State.raiseError_err (c : ErrCode) : (s.raiseError c).err = true := rfl
@[simp] theorem State.raiseError_overrun (c : ErrCode) : (s.raiseError c).overrun = s.overrun := rfl
@[simp] theorem State.raiseError_hazard (c : ErrCode) : (s.raiseError c).hazard = s.hazard := rfl
@[simp] theorem State.raiseError_errcode (c : ErrCode) : (s.raiseError c).errcode = c := rfl
@[simp] theorem State.raiseError_lastop (c : ErrCode) : (s.raiseError c).lastop = s.lastop := rfl
@[simp] theorem State.raiseError_arg (c : ErrCode) : (s.raiseError c).arg = s.arg := rfl
@[simp] theorem State.raiseError_pv (c : ErrCode) : (s.raiseError c).pv = s.pv := rfl
@[simp] theorem State.raiseError_pn (c : ErrCode) : (s.raiseError c).pn = s.pn := rfl
@[simp] theorem State.raiseError_seq (c : ErrCode) : (s.raiseError c).seq = s.seq := rfl
@[simp] theorem State.raiseError_mem (c : ErrCode) : (s.raiseError c).mem = s.mem := rfl
@[simp] theorem State.raiseError_inputs (c : ErrCode) : (s.raiseError c).inputs = s.inputs := rfl
@[simp] theorem State.raiseError_replies (c : ErrCode) : (s.raiseError c).replies = s.replies := rfl
@[simp] theorem State.raiseError_turn (c : ErrCode) : (s.raiseError c).turn = s.turn := rfl
@[simp] theorem State.raiseError_turnDraws (c : ErrCode) : (s.raiseError c).turnDraws = s.turnDraws := rfl
@[simp] theorem State.raiseError_readDraws (c : ErrCode) : (s.raiseError c).readDraws = s.readDraws := rfl

@[simp] theorem State.setOverrun_build : (s.setOverrun).build = s.build := rfl
@[simp] theorem State.setOverrun_irqEn : (s.setOverrun).irqEn = s.irqEn := rfl
@[simp] theorem State.setOverrun_done : (s.setOverrun).done = s.done := rfl
@[simp] theorem State.setOverrun_err : (s.setOverrun).err = s.err := rfl
@[simp] theorem State.setOverrun_overrun : (s.setOverrun).overrun = true := rfl
@[simp] theorem State.setOverrun_hazard : (s.setOverrun).hazard = s.hazard := rfl
@[simp] theorem State.setOverrun_errcode : (s.setOverrun).errcode = s.errcode := rfl
@[simp] theorem State.setOverrun_lastop : (s.setOverrun).lastop = s.lastop := rfl
@[simp] theorem State.setOverrun_arg : (s.setOverrun).arg = s.arg := rfl
@[simp] theorem State.setOverrun_pv : (s.setOverrun).pv = s.pv := rfl
@[simp] theorem State.setOverrun_pn : (s.setOverrun).pn = s.pn := rfl
@[simp] theorem State.setOverrun_seq : (s.setOverrun).seq = s.seq := rfl
@[simp] theorem State.setOverrun_mem : (s.setOverrun).mem = s.mem := rfl
@[simp] theorem State.setOverrun_inputs : (s.setOverrun).inputs = s.inputs := rfl
@[simp] theorem State.setOverrun_replies : (s.setOverrun).replies = s.replies := rfl
@[simp] theorem State.setOverrun_turn : (s.setOverrun).turn = s.turn := rfl
@[simp] theorem State.setOverrun_turnDraws : (s.setOverrun).turnDraws = s.turnDraws := rfl
@[simp] theorem State.setOverrun_readDraws : (s.setOverrun).readDraws = s.readDraws := rfl

@[simp] theorem State.setHazard_build : (s.setHazard).build = s.build := rfl
@[simp] theorem State.setHazard_irqEn : (s.setHazard).irqEn = s.irqEn := rfl
@[simp] theorem State.setHazard_done : (s.setHazard).done = s.done := rfl
@[simp] theorem State.setHazard_err : (s.setHazard).err = s.err := rfl
@[simp] theorem State.setHazard_overrun : (s.setHazard).overrun = s.overrun := rfl
@[simp] theorem State.setHazard_hazard : (s.setHazard).hazard = true := rfl
@[simp] theorem State.setHazard_errcode : (s.setHazard).errcode = s.errcode := rfl
@[simp] theorem State.setHazard_lastop : (s.setHazard).lastop = s.lastop := rfl
@[simp] theorem State.setHazard_arg : (s.setHazard).arg = s.arg := rfl
@[simp] theorem State.setHazard_pv : (s.setHazard).pv = s.pv := rfl
@[simp] theorem State.setHazard_pn : (s.setHazard).pn = s.pn := rfl
@[simp] theorem State.setHazard_seq : (s.setHazard).seq = s.seq := rfl
@[simp] theorem State.setHazard_mem : (s.setHazard).mem = s.mem := rfl
@[simp] theorem State.setHazard_inputs : (s.setHazard).inputs = s.inputs := rfl
@[simp] theorem State.setHazard_replies : (s.setHazard).replies = s.replies := rfl
@[simp] theorem State.setHazard_turn : (s.setHazard).turn = s.turn := rfl
@[simp] theorem State.setHazard_turnDraws : (s.setHazard).turnDraws = s.turnDraws := rfl
@[simp] theorem State.setHazard_readDraws : (s.setHazard).readDraws = s.readDraws := rfl

@[simp] theorem State.finish_build : (s.finish).build = s.build := rfl
@[simp] theorem State.finish_irqEn : (s.finish).irqEn = s.irqEn := rfl
@[simp] theorem State.finish_done : (s.finish).done = true := rfl
@[simp] theorem State.finish_err : (s.finish).err = s.err := rfl
@[simp] theorem State.finish_overrun : (s.finish).overrun = s.overrun := rfl
@[simp] theorem State.finish_hazard : (s.finish).hazard = s.hazard := rfl
@[simp] theorem State.finish_errcode : (s.finish).errcode = s.errcode := rfl
@[simp] theorem State.finish_lastop : (s.finish).lastop = s.lastop := rfl
@[simp] theorem State.finish_arg : (s.finish).arg = s.arg := rfl
@[simp] theorem State.finish_pv : (s.finish).pv = s.pv := rfl
@[simp] theorem State.finish_pn : (s.finish).pn = s.pn := rfl
@[simp] theorem State.finish_seq : (s.finish).seq = .idle := rfl
@[simp] theorem State.finish_mem : (s.finish).mem = s.mem := rfl
@[simp] theorem State.finish_inputs : (s.finish).inputs = s.inputs := rfl
@[simp] theorem State.finish_replies : (s.finish).replies = s.replies := rfl
@[simp] theorem State.finish_turn : (s.finish).turn = s.turn := rfl
@[simp] theorem State.finish_turnDraws : (s.finish).turnDraws = s.turnDraws := rfl
@[simp] theorem State.finish_readDraws : (s.finish).readDraws = s.readDraws := rfl

@[simp] theorem State.storeBank_build (b lo : Nat) (ws : List (Option Word)) : (s.storeBank b lo ws).build = s.build := rfl
@[simp] theorem State.storeBank_irqEn (b lo : Nat) (ws : List (Option Word)) : (s.storeBank b lo ws).irqEn = s.irqEn := rfl
@[simp] theorem State.storeBank_done (b lo : Nat) (ws : List (Option Word)) : (s.storeBank b lo ws).done = s.done := rfl
@[simp] theorem State.storeBank_err (b lo : Nat) (ws : List (Option Word)) : (s.storeBank b lo ws).err = s.err := rfl
@[simp] theorem State.storeBank_overrun (b lo : Nat) (ws : List (Option Word)) : (s.storeBank b lo ws).overrun = s.overrun := rfl
@[simp] theorem State.storeBank_hazard (b lo : Nat) (ws : List (Option Word)) : (s.storeBank b lo ws).hazard = s.hazard := rfl
@[simp] theorem State.storeBank_errcode (b lo : Nat) (ws : List (Option Word)) : (s.storeBank b lo ws).errcode = s.errcode := rfl
@[simp] theorem State.storeBank_lastop (b lo : Nat) (ws : List (Option Word)) : (s.storeBank b lo ws).lastop = s.lastop := rfl
@[simp] theorem State.storeBank_arg (b lo : Nat) (ws : List (Option Word)) : (s.storeBank b lo ws).arg = s.arg := rfl
@[simp] theorem State.storeBank_pv (b lo : Nat) (ws : List (Option Word)) : (s.storeBank b lo ws).pv = s.pv := rfl
@[simp] theorem State.storeBank_pn (b lo : Nat) (ws : List (Option Word)) : (s.storeBank b lo ws).pn = s.pn := rfl
@[simp] theorem State.storeBank_seq (b lo : Nat) (ws : List (Option Word)) : (s.storeBank b lo ws).seq = s.seq := rfl
@[simp] theorem State.storeBank_mem (b lo : Nat) (ws : List (Option Word)) : (s.storeBank b lo ws).mem = s.mem.storeWords (bankAddr s.build b lo) ws := rfl
@[simp] theorem State.storeBank_inputs (b lo : Nat) (ws : List (Option Word)) : (s.storeBank b lo ws).inputs = s.inputs := rfl
@[simp] theorem State.storeBank_replies (b lo : Nat) (ws : List (Option Word)) : (s.storeBank b lo ws).replies = s.replies := rfl
@[simp] theorem State.storeBank_turn (b lo : Nat) (ws : List (Option Word)) : (s.storeBank b lo ws).turn = s.turn := rfl
@[simp] theorem State.storeBank_turnDraws (b lo : Nat) (ws : List (Option Word)) : (s.storeBank b lo ws).turnDraws = s.turnDraws := rfl
@[simp] theorem State.storeBank_readDraws (b lo : Nat) (ws : List (Option Word)) : (s.storeBank b lo ws).readDraws = s.readDraws := rfl

@[simp] theorem State.reply_build (r : Reply) : (s.reply r).build = s.build := rfl
@[simp] theorem State.reply_irqEn (r : Reply) : (s.reply r).irqEn = s.irqEn := rfl
@[simp] theorem State.reply_done (r : Reply) : (s.reply r).done = s.done := rfl
@[simp] theorem State.reply_err (r : Reply) : (s.reply r).err = s.err := rfl
@[simp] theorem State.reply_overrun (r : Reply) : (s.reply r).overrun = s.overrun := rfl
@[simp] theorem State.reply_hazard (r : Reply) : (s.reply r).hazard = s.hazard := rfl
@[simp] theorem State.reply_errcode (r : Reply) : (s.reply r).errcode = s.errcode := rfl
@[simp] theorem State.reply_lastop (r : Reply) : (s.reply r).lastop = s.lastop := rfl
@[simp] theorem State.reply_arg (r : Reply) : (s.reply r).arg = s.arg := rfl
@[simp] theorem State.reply_pv (r : Reply) : (s.reply r).pv = s.pv := rfl
@[simp] theorem State.reply_pn (r : Reply) : (s.reply r).pn = s.pn := rfl
@[simp] theorem State.reply_seq (r : Reply) : (s.reply r).seq = s.seq := rfl
@[simp] theorem State.reply_mem (r : Reply) : (s.reply r).mem = s.mem := rfl
@[simp] theorem State.reply_inputs (r : Reply) : (s.reply r).inputs = s.inputs := rfl
@[simp] theorem State.reply_replies (r : Reply) : (s.reply r).replies = r :: s.replies := rfl
@[simp] theorem State.reply_turn (r : Reply) : (s.reply r).turn = s.turn := rfl
@[simp] theorem State.reply_turnDraws (r : Reply) : (s.reply r).turnDraws = s.turnDraws := rfl
@[simp] theorem State.reply_readDraws (r : Reply) : (s.reply r).readDraws = s.readDraws := rfl

@[simp] theorem State.settle_build : (s.settle).build = s.build := rfl
@[simp] theorem State.settle_irqEn : (s.settle).irqEn = s.irqEn := rfl
@[simp] theorem State.settle_done : (s.settle).done = s.done := rfl
@[simp] theorem State.settle_err : (s.settle).err = s.err := rfl
@[simp] theorem State.settle_overrun : (s.settle).overrun = s.overrun := rfl
@[simp] theorem State.settle_hazard : (s.settle).hazard = s.hazard := rfl
@[simp] theorem State.settle_errcode : (s.settle).errcode = s.errcode := rfl
@[simp] theorem State.settle_lastop : (s.settle).lastop = s.lastop := rfl
@[simp] theorem State.settle_arg : (s.settle).arg = s.arg := rfl
@[simp] theorem State.settle_pv : (s.settle).pv = s.pv := rfl
@[simp] theorem State.settle_pn : (s.settle).pn = s.pn := rfl
@[simp] theorem State.settle_seq : (s.settle).seq = s.seq := rfl
@[simp] theorem State.settle_mem : (s.settle).mem = s.mem := rfl
@[simp] theorem State.settle_inputs : (s.settle).inputs = s.inputs := rfl
@[simp] theorem State.settle_replies : (s.settle).replies = s.replies := rfl
@[simp] theorem State.settle_turn : (s.settle).turn = Config.nextTurn s.turnDraws := rfl
@[simp] theorem State.settle_turnDraws : (s.settle).turnDraws = s.turnDraws + 1 := rfl
@[simp] theorem State.settle_readDraws : (s.settle).readDraws = s.readDraws := rfl

@[simp] theorem State.atHost_build (waiting : List Input) : (s.atHost waiting).build = s.build := rfl
@[simp] theorem State.atHost_irqEn (waiting : List Input) : (s.atHost waiting).irqEn = s.irqEn := rfl
@[simp] theorem State.atHost_done (waiting : List Input) : (s.atHost waiting).done = s.done := rfl
@[simp] theorem State.atHost_err (waiting : List Input) : (s.atHost waiting).err = s.err := rfl
@[simp] theorem State.atHost_overrun (waiting : List Input) : (s.atHost waiting).overrun = s.overrun := rfl
@[simp] theorem State.atHost_hazard (waiting : List Input) : (s.atHost waiting).hazard = s.hazard := rfl
@[simp] theorem State.atHost_errcode (waiting : List Input) : (s.atHost waiting).errcode = s.errcode := rfl
@[simp] theorem State.atHost_lastop (waiting : List Input) : (s.atHost waiting).lastop = s.lastop := rfl
@[simp] theorem State.atHost_arg (waiting : List Input) : (s.atHost waiting).arg = s.arg := rfl
@[simp] theorem State.atHost_pv (waiting : List Input) : (s.atHost waiting).pv = s.pv := rfl
@[simp] theorem State.atHost_pn (waiting : List Input) : (s.atHost waiting).pn = s.pn := rfl
@[simp] theorem State.atHost_seq (waiting : List Input) : (s.atHost waiting).seq = s.seq := rfl
@[simp] theorem State.atHost_mem (waiting : List Input) : (s.atHost waiting).mem = s.mem := rfl
@[simp] theorem State.atHost_inputs (waiting : List Input) : (s.atHost waiting).inputs = waiting := rfl
@[simp] theorem State.atHost_replies (waiting : List Input) : (s.atHost waiting).replies = s.replies := rfl
@[simp] theorem State.atHost_turn (waiting : List Input) : (s.atHost waiting).turn = .host := rfl
@[simp] theorem State.atHost_turnDraws (waiting : List Input) : (s.atHost waiting).turnDraws = s.turnDraws := rfl
@[simp] theorem State.atHost_readDraws (waiting : List Input) : (s.atHost waiting).readDraws = s.readDraws := rfl

@[simp] theorem State.atEngine_build : (s.atEngine).build = s.build := rfl
@[simp] theorem State.atEngine_irqEn : (s.atEngine).irqEn = s.irqEn := rfl
@[simp] theorem State.atEngine_done : (s.atEngine).done = s.done := rfl
@[simp] theorem State.atEngine_err : (s.atEngine).err = s.err := rfl
@[simp] theorem State.atEngine_overrun : (s.atEngine).overrun = s.overrun := rfl
@[simp] theorem State.atEngine_hazard : (s.atEngine).hazard = s.hazard := rfl
@[simp] theorem State.atEngine_errcode : (s.atEngine).errcode = s.errcode := rfl
@[simp] theorem State.atEngine_lastop : (s.atEngine).lastop = s.lastop := rfl
@[simp] theorem State.atEngine_arg : (s.atEngine).arg = s.arg := rfl
@[simp] theorem State.atEngine_pv : (s.atEngine).pv = s.pv := rfl
@[simp] theorem State.atEngine_pn : (s.atEngine).pn = s.pn := rfl
@[simp] theorem State.atEngine_seq : (s.atEngine).seq = s.seq := rfl
@[simp] theorem State.atEngine_mem : (s.atEngine).mem = s.mem := rfl
@[simp] theorem State.atEngine_inputs : (s.atEngine).inputs = s.inputs := rfl
@[simp] theorem State.atEngine_replies : (s.atEngine).replies = s.replies := rfl
@[simp] theorem State.atEngine_turn : (s.atEngine).turn = .engine := rfl
@[simp] theorem State.atEngine_turnDraws : (s.atEngine).turnDraws = s.turnDraws := rfl
@[simp] theorem State.atEngine_readDraws : (s.atEngine).readDraws = s.readDraws := rfl

@[simp] theorem State.writeArg_build (w : Word) : (s.writeArg w).build = s.build := rfl
@[simp] theorem State.writeArg_irqEn (w : Word) : (s.writeArg w).irqEn = s.irqEn := rfl
@[simp] theorem State.writeArg_done (w : Word) : (s.writeArg w).done = s.done := rfl
@[simp] theorem State.writeArg_err (w : Word) : (s.writeArg w).err = s.err := rfl
@[simp] theorem State.writeArg_overrun (w : Word) : (s.writeArg w).overrun = s.overrun := rfl
@[simp] theorem State.writeArg_hazard (w : Word) : (s.writeArg w).hazard = s.hazard := rfl
@[simp] theorem State.writeArg_errcode (w : Word) : (s.writeArg w).errcode = s.errcode := rfl
@[simp] theorem State.writeArg_lastop (w : Word) : (s.writeArg w).lastop = s.lastop := rfl
@[simp] theorem State.writeArg_arg (w : Word) : (s.writeArg w).arg = w.setWidth 32 := rfl
@[simp] theorem State.writeArg_pv (w : Word) : (s.writeArg w).pv = s.pv := rfl
@[simp] theorem State.writeArg_pn (w : Word) : (s.writeArg w).pn = s.pn := rfl
@[simp] theorem State.writeArg_seq (w : Word) : (s.writeArg w).seq = s.seq := rfl
@[simp] theorem State.writeArg_mem (w : Word) : (s.writeArg w).mem = s.mem := rfl
@[simp] theorem State.writeArg_inputs (w : Word) : (s.writeArg w).inputs = s.inputs := rfl
@[simp] theorem State.writeArg_replies (w : Word) : (s.writeArg w).replies = s.replies := rfl
@[simp] theorem State.writeArg_turn (w : Word) : (s.writeArg w).turn = s.turn := rfl
@[simp] theorem State.writeArg_turnDraws (w : Word) : (s.writeArg w).turnDraws = s.turnDraws := rfl
@[simp] theorem State.writeArg_readDraws (w : Word) : (s.writeArg w).readDraws = s.readDraws := rfl

end Sys2Proof.Machine
end

