-- ==== Sys2Proof/Laws/Ops.lean ====
section
/-!
SUPPORT. What each shared operation can do, said once: bank words under a store, issuing and completing a
command, the pseudocode of each command, and the resets.
-/

namespace Sys2Proof.Machine

variable {s : State}

/-! ### Busy -/

theorem State.busy_eq_true : s.busy = true ↔ ∃ c, s.seq = .running c := by
  rw [State.busy]
  split <;> simp_all

theorem State.busy_eq_false : s.busy = false ↔ s.seq = .idle := by
  rw [State.busy]
  split <;> simp_all

theorem State.busy_running {c : Ctx} (h : s.seq = .running c) : s.busy = true := by simp [State.busy, h]

theorem State.busy_idle (h : s.seq = .idle) : s.busy = false := by simp [State.busy, h]

/-! ### Bank words -/

theorem bankAddr_add (bd : Build) (b lo i : Nat) : bankAddr bd b (lo + i) = bankAddr bd b lo + 8 * i := by
  simp [bankAddr]; ring

theorem State.bankWord_congr {t : State} (hb : t.build = s.build) (hm : t.mem = s.mem) (b i : Nat) :
    t.bankWord b i = s.bankWord b i := by simp [State.bankWord, hb, hm]

/-- A word of the run stored. -/
theorem State.bankWord_storeBank (s : State) (b lo : Nat) (ws : List (Option Word)) (i : Nat)
    (hi : i < ws.length) : (s.storeBank b lo ws).bankWord b (lo + i) = ws[i] := by
  simp only [State.bankWord, State.storeBank_build, State.storeBank_mem, bankAddr_add]
  exact Memory.readWord_storeWords _ _ _ _ hi

/-- A word of the same bank outside the run. -/
theorem State.bankWord_storeBank_outside (s : State) (b lo : Nat) (ws : List (Option Word)) (i : Nat)
    (hi : i < lo ∨ lo + ws.length ≤ i) : (s.storeBank b lo ws).bankWord b i = s.bankWord b i := by
  simp only [State.bankWord, State.storeBank_build, State.storeBank_mem]
  exact Memory.readWord_storeWords_outside (by simp only [bankAddr]; omega)

/-- A byte outside the run. -/
theorem State.readByte_storeBank_outside (s : State) (b lo : Nat) (ws : List (Option Word)) (x : Nat)
    (hx : x < bankAddr s.build b lo ∨ bankAddr s.build b (lo + ws.length) ≤ x) :
    (s.storeBank b lo ws).mem.readByte x = s.mem.readByte x := by
  rw [bankAddr_add] at hx
  exact Memory.readByte_storeWords_outside hx

/-- A word of another bank, if both are inside their banks (R38). -/
theorem State.bankWord_storeBank_other (s : State) (b lo b' i : Nat) (ws : List (Option Word)) (hb : b' ≠ b)
    (hlo : lo + ws.length ≤ 2 * s.build.nmax) (hi : i < 2 * s.build.nmax) :
    (s.storeBank b lo ws).bankWord b' i = s.bankWord b' i := by
  simp only [State.bankWord, State.storeBank_build, State.storeBank_mem]
  refine Memory.readWord_storeWords_outside ?_
  simp only [bankAddr, Build.regionSize]
  rcases Nat.lt_or_gt_of_ne hb with h | h
  · left
    have : (4 + b') * (16 * s.build.nmax) + 16 * s.build.nmax ≤ (4 + b) * (16 * s.build.nmax) := by
      rw [← Nat.succ_mul]; exact Nat.mul_le_mul_right _ (by omega)
    omega
  · right
    have : (4 + b) * (16 * s.build.nmax) + 16 * s.build.nmax ≤ (4 + b') * (16 * s.build.nmax) := by
      rw [← Nat.succ_mul]; exact Nat.mul_le_mul_right _ (by omega)
    omega

@[simp] theorem State.snapshot_length (s : State) (b n : Nat) : (s.snapshot b n).length = n := by
  simp [State.snapshot]

theorem State.snapshot_getD (s : State) (b n i : Nat) (hi : i < n) :
    (s.snapshot b n).getD i none = s.bankWord b i := by
  simp [State.snapshot, List.getD_eq_getElem?_getD, hi]

/-- The words of a fully specified snapshot. -/
theorem State.allSome_snapshot {b n : Nat} {X : List Word} :
    allSome (s.snapshot b n) = some X ↔ X.length = n ∧ ∀ i (h : i < X.length), s.bankWord b i = some X[i] := by
  rw [allSome_eq_some]
  constructor
  · intro h
    have hl : X.length = n := by simpa using (congrArg List.length h).symm
    refine ⟨hl, fun i hi => ?_⟩
    have := congrArg (fun l => l[i]?) h
    simpa [State.snapshot, hi, hl ▸ hi] using this
  · rintro ⟨rfl, h⟩
    apply List.ext_getElem
    · simp
    · intro i h1 h2
      simp only [State.snapshot, List.getElem_map, List.getElem_range]
      exact h i (by simpa using h1)

theorem State.allSome_snapshot_none {b n : Nat} :
    allSome (s.snapshot b n) = none ↔ ∃ i < n, s.bankWord b i = none := by
  simp [allSome_eq_none, State.snapshot]

/-! ### Issuing and completing -/

/-- The pseudocode that the completion of a command runs (R114). -/
def bodyOf : Instr → Ctx → State → State
  | .nop => fun _ s => s
  | .plan => planBody
  | .fwd _ _ => fwdBody
  | .inv _ _ => invBody
  | .rfwd _ _ => rfwdBody
  | .r2c _ _ => r2cBody
  | .c2r _ _ => c2rBody
  | .clr _ => clrBody
  | .cspec _ => cspecBody

theorem State.issue_busy (h : s.busy = true) (i : Instr) : s.issue i = s.setOverrun := by
  simp [State.issue, h]

theorem State.issue_idle (h : s.busy = false) (i : Instr) : s.issue i = s.accept i := by
  simp [State.issue, h]

theorem State.accept_error {i : Instr} {c : ErrCode} (h : acceptError i s = some c) :
    s.accept i = (s.beginCheck i.opcode).raiseError c := by simp [State.accept, h]

theorem State.accept_runs {i : Instr} {op : Op} (h : acceptError i s = none) (ho : opOf i = some op) :
    s.accept i = { s.beginCheck i.opcode with seq := .running (ctxOf op i s) } := by
  simp [State.accept, h, ho]

/-- An accepted or rejected command changes only STATUS and SEQ (R111, R113). -/
theorem State.accept_frame (s : State) (i : Instr) :
    s.accept i = { s with
      done := (s.accept i).done
      err := (s.accept i).err
      errcode := (s.accept i).errcode
      lastop := i.opcode
      seq := (s.accept i).seq } := by
  simp only [State.accept]
  split
  · rfl
  · split <;> rfl

theorem command_host {i : Instr} {body : Ctx → State → State} (h : s.turn = .host) :
    command i body s = .next (s.issue i) := by simp [command, h]

theorem command_engine {i : Instr} {body : Ctx → State → State} {c : Ctx} (h : s.turn = .engine)
    (hs : s.seq = .running c) (hc : c.instr = i) : command i body s = .next (body c s).finish := by
  simp [command, h, State.complete, hs, hc]

theorem command_engine_other {i : Instr} {body : Ctx → State → State} (h : s.turn = .engine)
    (hs : ∀ c, s.seq = .running c → c.instr ≠ i) : command i body s = .next s := by
  cases hq : s.seq with
  | idle => simp [command, h, State.complete, hq]
  | running c => simp [command, h, State.complete, hq, hs c hq]

/-! ### The pseudocodes -/

/-- A transform whose input words are all there. -/
theorem transform_some {c : Ctx} {nIn : Nat} {f : List Word → List Word} {X : List Word}
    (h : allSome (s.snapshot c.src nIn) = some X) :
    transform c s nIn f = s.storeBank c.dst 0 ((f X).map some) := by simp [transform, h]

/-- A transform one of whose input words is unspecified (R126). -/
theorem transform_none {c : Ctx} {nIn : Nat} {f : List Word → List Word}
    (h : allSome (s.snapshot c.src nIn) = none) :
    transform c s nIn f = s.storeBank c.dst 0 (List.replicate (2 * s.pn) none) := by simp [transform, h]

/-- A command's pseudocode changes only bank words and the plan store (R57, R125). -/
theorem bodyOf_frame (i : Instr) (c : Ctx) (s : State) :
    bodyOf i c s = { s with mem := (bodyOf i c s).mem, pn := (bodyOf i c s).pn, pv := (bodyOf i c s).pv } := by
  cases i
  case nop => rfl
  case plan => rfl
  case r2c => rfl
  case c2r => rfl
  case clr => rfl
  case cspec => rfl
  all_goals simp only [bodyOf, fwdBody, invBody, rfwdBody, transform]; split <;> rfl

/-! ### Resets -/

theorem State.abortWrites_idle (h : s.seq = .idle) : s.abortWrites = s := by simp [State.abortWrites, h]

theorem State.abortWrites_frame (s : State) : s.abortWrites = { s with mem := s.abortWrites.mem } := by
  simp only [State.abortWrites]
  split <;> rfl

theorem State.softReset_mem (s : State) : s.softReset.mem = s.abortWrites.mem := rfl

/-- Everything a soft reset leaves (R123), the banks apart. -/
theorem State.softReset_frame (s : State) :
    s.softReset = { State.resetOf s.build with
      mem := s.abortWrites.mem
      inputs := s.inputs
      replies := s.replies
      turn := s.turn
      turnDraws := s.turnDraws
      readDraws := s.readDraws } := by
  simp only [State.softReset]
  rw [State.abortWrites_frame]
  rfl

end Sys2Proof.Machine
end

