-- ==== Sys2Proof/Laws/Bus.lean ====
section
/-!
SUPPORT. Where an access lands and what serving it does (20_memory.md R45, R47, R52, R53).
-/

namespace Sys2Proof.Machine

theorem regionSize_pos (b : Build) : 0 < b.regionSize := by simp [Build.regionSize, Build.nmax]

/-- A legal region holds at least 65536 bytes (R7). -/
theorem regionSize_ge {b : Build} (h : b.Legal) : 65536 ≤ b.regionSize := by
  have : 2 ^ 12 ≤ 2 ^ b.log2Nmax := Nat.pow_le_pow_right (by norm_num) h.1
  simp only [Build.regionSize, Build.nmax]
  omega

/-- An aligned word inside the aperture. -/
theorem placeOf_word {b : Build} {a : Nat} (ha : a < b.aperture) (h8 : a % 8 = 0) :
    placeOf b (b.base + a) 8 = .word a := by
  have h1 : ¬ (b.base + a < b.base ∨ b.base + b.aperture ≤ b.base + a) := by omega
  have h2 : ¬ ((8 : Nat) ≠ 8 ∨ (b.base + a - b.base) % 8 ≠ 0) := by
    rw [Nat.add_sub_cancel_left]; omega
  rw [placeOf, if_neg h1, if_neg h2, Nat.add_sub_cancel_left]

/-- A misaligned access, or one that is not 8 bytes wide (R45). -/
theorem placeOf_busError {b : Build} {a size : Nat} (ha : a < b.aperture) (h : size ≠ 8 ∨ a % 8 ≠ 0) :
    placeOf b (b.base + a) size = .busError := by
  have h1 : ¬ (b.base + a < b.base ∨ b.base + b.aperture ≤ b.base + a) := by omega
  have h2 : size ≠ 8 ∨ (b.base + a - b.base) % 8 ≠ 0 := by
    rwa [Nat.add_sub_cancel_left]
  rw [placeOf, if_neg h1, if_pos h2]

/-- An access at region `r`, byte `x` of it. -/
theorem region_split {b : Build} {r x : Nat} (hx : x < b.regionSize) :
    (r * b.regionSize + x) / b.regionSize = r ∧ (r * b.regionSize + x) % b.regionSize = x := by
  constructor
  · rw [Nat.mul_comm, Nat.mul_add_div (regionSize_pos b), Nat.div_eq_of_lt hx, Nat.add_zero]
  · rw [Nat.mul_comm, Nat.mul_add_mod, Nat.mod_eq_of_lt hx]

theorem windowOf_register {b : Build} {a : Nat} (ha : a < b.regionSize) : windowOf b a = .register a := by
  simp [windowOf, Nat.div_eq_of_lt ha]

theorem windowOf_twiddle {b : Build} {i : Nat} (hi : i < 2 * b.nmax) :
    windowOf b (b.regionSize + 8 * i) = .twiddle i := by
  have := region_split (b := b) (r := 1) (x := 8 * i) (by simp only [Build.regionSize]; omega)
  rw [Nat.one_mul] at this
  simp [windowOf, this.1, this.2]

theorem windowOf_bitReversal {b : Build} {j : Nat} (hj : j < b.nmax) :
    windowOf b (2 * b.regionSize + 8 * j) = .bitReversal j := by
  have := region_split (b := b) (r := 2) (x := 8 * j) (by simp only [Build.regionSize]; omega)
  simp [windowOf, this.1, this.2, hj]

/-- Word `i` of bank `k` (R47). -/
theorem windowOf_bank {b : Build} {k i : Nat} (hk : k < b.nbuf) (hi : i < 2 * b.nmax) :
    windowOf b (bankAddr b k i) = .bank k i := by
  have := region_split (b := b) (r := 4 + k) (x := 8 * i) (by simp only [Build.regionSize]; omega)
  rw [bankAddr, windowOf, this.1, this.2]
  simp [hk, show ¬ 4 + k = 1 by omega, show ¬ 4 + k = 2 by omega]

/-- A word of a bank lies in the aperture and is aligned. -/
theorem bankAddr_lt_aperture {b : Build} {k i : Nat} (h : b.nbuf ≤ 16) (hk : k < b.nbuf)
    (hi : i < 2 * b.nmax) : bankAddr b k i < b.aperture ∧ bankAddr b k i % 8 = 0 := by
  have h1 : (4 + k) * b.regionSize + b.regionSize ≤ 20 * b.regionSize := by
    rw [← Nat.succ_mul]; exact Nat.mul_le_mul_right _ (by omega)
  have h2 : (4 + k) * b.regionSize % 8 = 0 := by
    simp [Build.regionSize, Nat.mul_mod, show 16 * b.nmax = 8 * (2 * b.nmax) by ring]
  simp only [bankAddr, Build.aperture]
  refine ⟨?_, by omega⟩
  have : 8 * i < b.regionSize := by simp only [Build.regionSize]; omega
  omega

/-- An access that reaches a word of the aperture is aligned, 8 bytes wide and inside it (R44, R45). -/
theorem placeOf_eq_word {b : Build} {a size x : Nat} (h : placeOf b a size = .word x) :
    a = b.base + x ∧ size = 8 ∧ x % 8 = 0 ∧ x < b.aperture := by
  simp only [placeOf] at h
  split at h
  · cases h
  · split at h
    · cases h
    · cases h
      omega

/-- The only offsets of register accesses are those of region 0. -/
theorem windowOf_eq_register {b : Build} {a r : Nat} (h : windowOf b a = .register r) :
    r = a ∧ a < b.regionSize := by
  have hp := regionSize_pos b
  simp only [windowOf] at h
  split at h
  · cases h
    exact ⟨rfl, (Nat.div_eq_zero_iff.mp ‹_›).resolve_left (by omega)⟩
  · split at h
    · cases h
    · split at h
      · split at h <;> cases h
      · split at h <;> cases h

/-- The only offsets of bank accesses are those of the words of a bank (R47). -/
theorem windowOf_eq_bank {b : Build} {a k i : Nat} (h : windowOf b a = .bank k i) (h8 : a % 8 = 0) :
    a = bankAddr b k i ∧ k < b.nbuf ∧ i < 2 * b.nmax := by
  simp only [windowOf] at h
  split at h
  · cases h
  · split at h
    · cases h
    · split at h
      · split at h <;> cases h
      · split at h
        · cases h
          have hs : b.regionSize = 16 * b.nmax := rfl
          have h5 := Nat.div_add_mod a b.regionSize
          have h6 := Nat.mod_lt a (regionSize_pos b)
          have h7 : a % b.regionSize % 8 = 0 := by
            rw [Nat.mod_mod_of_dvd _ (Nat.dvd_of_mod_eq_zero (by omega))]
            exact h8
          refine ⟨?_, by omega, by omega⟩
          rw [bankAddr, show 4 + (a / b.regionSize - 4) = a / b.regionSize by omega, Nat.mul_comm]
          omega
        · cases h

/-- Bit `i` of a word as a number. -/
theorem getLsbD_eq_true_iff (w : Word) (i : Nat) : w.getLsbD i = true ↔ w.toNat / 2 ^ i % 2 = 1 := by
  simp [BitVec.getLsbD, Nat.testBit, Nat.shiftRight_eq_div_pow, Nat.one_and_eq_mod_two]

/-- `exec` is the two steps of a command, for every command. -/
theorem exec_eq_command (i : Instr) (s : State) : exec i s = command i (bodyOf i) s := by
  cases i <;> rfl

/-- Every command answers a next state, in every state. -/
theorem exec_next (i : Instr) (s : State) : ∃ t, exec i s = .next t := by
  rw [exec_eq_command, command]
  cases s.turn <;> exact ⟨_, rfl⟩

theorem writeCmd_next (w : Word) (s : State) : ∃ t, writeCmd w s = .next t := by
  rw [writeCmd]
  split
  · exact exec_next _ _
  · exact ⟨_, rfl⟩

theorem memWrite_next (a : Nat) (v : Word) (s : State) : ∃ t, memWrite a v s = .next t := by
  simp only [memWrite, writeRegister]
  split
  · split
    case h_4 => exact writeCmd_next _ _
    all_goals exact ⟨_, rfl⟩
  all_goals exact ⟨_, rfl⟩

/-- Serving an input answers a next state, in every state. -/
theorem serve_next (i : Input) (s : State) : ∃ t, serve i s = .next t := by
  simp only [serve]
  split
  · exact ⟨_, rfl⟩
  · split <;> exact ⟨_, rfl⟩
  · split
    · exact ⟨_, rfl⟩
    · exact ⟨_, rfl⟩
    · exact memWrite_next _ _ _

theorem serve_read {s : State} {a : Nat} (ha : a < s.build.aperture) (h8 : a % 8 = 0) :
    serve (.read (s.build.base + a) 8) s = .next (s.memRead a) := by
  simp [serve, placeOf_word ha h8]

theorem serve_write {s : State} {a : Nat} {v : Word} (ha : a < s.build.aperture) (h8 : a % 8 = 0) :
    serve (.write (s.build.base + a) 8 v) s = memWrite a v (s.reply .okay) := by
  simp [serve, placeOf_word ha h8]

/-- A write to a register offset of region 0. -/
theorem serve_write_register {s : State} {a : Nat} {v : Word} (hb : s.build.Legal) (ha : a < 0x38)
    (h8 : a % 8 = 0) : serve (.write (s.build.base + a) 8 v) s = writeRegister a v (s.reply .okay) := by
  have := regionSize_ge hb
  rw [serve_write (by simp only [Build.aperture]; omega) h8, memWrite, State.reply_build,
    windowOf_register (by omega)]

/-- The access that issues a command word (R32). -/
theorem serve_issueInput {s : State} (hb : s.build.Legal) (w : Word) :
    serve (issueInput s.build w) s = writeCmd w (s.reply .okay) := by
  rw [issueInput, cmdAddr, serve_write_register hb (by norm_num) (by norm_num)]
  rfl

end Sys2Proof.Machine
end

