-- ==== Sys2Proof/Laws/Completion.lean ====
section
/-!
SUPPORT. What the completion of a command leaves, said once for the shapes the commands have: a run of words
stored in one bank, a list of pairs of words, a transform with all its input words or with one missing
(60_exceptions.md R114, 70_reset_and_hazards.md R125, R126).
-/

namespace Sys2Proof.Machine

variable {s : State}

/-- The completion of a running command, in every state at the engine's turn (R114). -/
theorem exec_engine {c : Ctx} {i : Instr} (ht : s.turn = .engine) (hs : s.seq = .running c)
    (hc : c.instr = i) : exec i s = .next (bodyOf i c s).finish := by
  rw [exec_eq_command, command_engine ht hs hc]

/-- The issue of a command at the host's turn (R32). -/
theorem exec_host (i : Instr) (ht : s.turn = .host) : exec i s = .next (s.issue i) := by
  rw [exec_eq_command, command_host ht]

@[simp] theorem State.bankWord_finish (s : State) (b i : Nat) : s.finish.bankWord b i = s.bankWord b i := rfl

/-- A word of a run stored from word 0 on. -/
theorem State.bankWord_storeBank_zero (s : State) (b : Nat) (ws : List (Option Word)) (i : Nat)
    (hi : i < ws.length) : (s.storeBank b 0 ws).bankWord b i = ws[i] := by
  simpa using State.bankWord_storeBank s b 0 ws i hi

/-- The bank operand of the command a context was made from. -/
theorem Ctx.dst_of_instr {c : Ctx} {i : Instr} {d : Nat} (h : c.instr = i) (hd : dstOf i = some d) :
    c.dst = d := by
  subst h
  cases hc : c.op <;> simp [Ctx.instr, hc, dstOf] at hd <;> exact hd

theorem Ctx.src_of_instr {c : Ctx} {i : Instr} {x : Nat} (h : c.instr = i) (hx : srcOf i = some x) :
    c.src = x := by
  subst h
  cases hc : c.op <;> simp [Ctx.instr, hc, srcOf] at hx <;> exact hx

/-- A completion that stores a run of words changes no byte outside it (R57). -/
theorem completedWriting_storeBank (s : State) (b lo : Nat) (ws : List (Option Word)) :
    CompletedWriting s (s.storeBank b lo ws).finish b lo ws.length :=
  ⟨rfl, fun a ha => State.readByte_storeBank_outside s b lo ws a ha⟩

/-- A transform whose input words are all there. -/
theorem transform_completed {c : Ctx} {n : Nat} {f : List Word → List Word} {X : List Word}
    (h : allSome (s.snapshot c.src n) = some X) (hl : (f X).length = 2 * s.pn) :
    CompletedWriting s (transform c s n f).finish c.dst 0 (2 * s.pn) ∧
      ∀ i < 2 * s.pn, (transform c s n f).finish.bankWord c.dst i = (f X)[i]? := by
  rw [transform_some h]
  refine ⟨by simpa [hl] using completedWriting_storeBank s c.dst 0 ((f X).map some), fun i hi => ?_⟩
  rw [State.bankWord_finish, State.bankWord_storeBank_zero _ _ _ _ (by simpa [hl] using hi)]
  simp [hl, hi]

/-- A transform one of whose input words is unspecified (R126). -/
theorem transform_completed_none {c : Ctx} {n : Nat} {f : List Word → List Word}
    (h : allSome (s.snapshot c.src n) = none) :
    CompletedWriting s (transform c s n f).finish c.dst 0 (2 * s.pn) ∧
      ∀ i < 2 * s.pn, (transform c s n f).finish.bankWord c.dst i = none := by
  rw [transform_none h]
  refine ⟨by simpa using completedWriting_storeBank s c.dst 0 (List.replicate (2 * s.pn) none),
    fun i hi => ?_⟩
  rw [State.bankWord_finish, State.bankWord_storeBank_zero _ _ _ _ (by simpa using hi)]
  simp

/-- A list of pairs laid out one after another. -/
theorem pairs_length {β γ : Type} (f : β → γ × γ) (xs : List β) :
    (xs.flatMap fun r => [(f r).1, (f r).2]).length = 2 * xs.length := by
  induction xs with
  | nil => rfl
  | cons x xs ih => simp [ih]; omega

theorem pairs_getElem? {β γ : Type} (f : β → γ × γ) (xs : List β) (k : Nat) :
    (xs.flatMap fun r => [(f r).1, (f r).2])[2 * k]? = xs[k]?.map (fun r => (f r).1) ∧
    (xs.flatMap fun r => [(f r).1, (f r).2])[2 * k + 1]? = xs[k]?.map (fun r => (f r).2) := by
  induction xs generalizing k with
  | nil => simp
  | cons x xs ih =>
    cases k with
    | zero => simp
    | succ k =>
      simp only [List.flatMap_cons, List.cons_append, List.nil_append,
        show 2 * (k + 1) = 2 * k + 1 + 1 by ring, List.getElem?_cons_succ]
      exact ih k

end Sys2Proof.Machine
end

