-- ==== Sys2Proof/Laws/Decode.lean ====
section
/-!
SUPPORT. The fields of a command word as numbers (30_encoding.md R64), and of an encoding (R70).
-/

namespace Sys2Proof

theorem opField_toNat (w : Word) : (opField w).toNat = w.toNat % 256 := by simp [opField]

theorem dstField_eq (w : Word) : dstField w = w.toNat / 256 % 16 := by
  simp [dstField, Nat.shiftRight_eq_div_pow]

theorem srcField_eq (w : Word) : srcField w = w.toNat / 4096 % 16 := by
  simp [srcField, Nat.shiftRight_eq_div_pow]

theorem rsvdField_toNat (w : Word) : (rsvdField w).toNat = w.toNat / 65536 := by
  have := w.isLt
  simp only [rsvdField, BitVec.extractLsb'_toNat, Nat.shiftRight_eq_div_pow]
  omega

theorem rsvdField_eq_zero (w : Word) : rsvdField w = 0 ↔ w.toNat < 65536 := by
  rw [← BitVec.toNat_inj, rsvdField_toNat]
  simp only [BitVec.ofNat_eq_ofNat, BitVec.toNat_ofNat]
  omega

/-- An encoding as a number (R70). -/
theorem encodeFields_toNat (op : BitVec 8) {d s : Nat} (hd : d < 16) (hs : s < 16) :
    (encodeFields op d s).toNat = op.toNat + 256 * d + 4096 * s := by
  have hop := op.isLt
  have h1 : s <<< 4 ||| d = s <<< 4 + d := (Nat.shiftLeft_add_eq_or_of_lt (by omega) _).symm
  have h2 : (s <<< 4 + d) <<< 8 ||| op.toNat = (s <<< 4 + d) <<< 8 + op.toNat :=
    (Nat.shiftLeft_add_eq_or_of_lt hop _).symm
  rw [encodeFields, BitVec.toNat_setWidth, BitVec.toNat_append, BitVec.toNat_append, BitVec.toNat_ofNat,
    BitVec.toNat_ofNat, Nat.mod_eq_of_lt (show s < 2 ^ 4 by omega), Nat.mod_eq_of_lt (show d < 2 ^ 4 by omega),
    h1, h2]
  simp only [Nat.shiftLeft_eq]
  omega

/-- The fields of an encoding. -/
theorem opField_encodeFields (op : BitVec 8) {d s : Nat} (hd : d < 16) (hs : s < 16) :
    opField (encodeFields op d s) = op := by
  have := op.isLt
  apply BitVec.eq_of_toNat_eq
  rw [opField_toNat, encodeFields_toNat op hd hs]
  omega

theorem dstField_encodeFields (op : BitVec 8) {d s : Nat} (hd : d < 16) (hs : s < 16) :
    dstField (encodeFields op d s) = d := by
  have := op.isLt
  rw [dstField_eq, encodeFields_toNat op hd hs]
  omega

theorem srcField_encodeFields (op : BitVec 8) {d s : Nat} (hd : d < 16) (hs : s < 16) :
    srcField (encodeFields op d s) = s := by
  have := op.isLt
  rw [srcField_eq, encodeFields_toNat op hd hs]
  omega

theorem rsvdField_encodeFields (op : BitVec 8) {d s : Nat} (hd : d < 16) (hs : s < 16) :
    rsvdField (encodeFields op d s) = 0 := by
  have := op.isLt
  rw [rsvdField_eq_zero, encodeFields_toNat op hd hs]
  omega

end Sys2Proof
end

