-- ==== Sys2Proof/Laws/Step.lean ====
section
/-!
SUPPORT. What one step can be, said once.
-/

namespace Sys2Proof.Machine

/-- The three kinds of step: nothing to do; the oldest input served; the running command completed. -/
theorem step_cases {s t : State} (h : step s = .next t) :
    (s.inputs = [] ∧ s.seq = .idle ∧ t = s) ∨
    (∃ i rest u, s.inputs = i :: rest ∧ (s.seq = .idle ∨ s.turn = .host) ∧
      serve i (s.atHost rest) = .next u ∧ t = u.settle) ∨
    (∃ c, s.seq = .running c ∧ (s.inputs = [] ∨ s.turn = .engine) ∧
      t = (bodyOf c.instr c s.atEngine).finish.settle) := by
  have hostCase : ∀ i rest, s.inputs = i :: rest → (s.seq = .idle ∨ s.turn = .host) →
      settleOutcome (hostStep i rest s) = .next t →
      ∃ i rest u, s.inputs = i :: rest ∧ (s.seq = .idle ∨ s.turn = .host) ∧
        serve i (s.atHost rest) = .next u ∧ t = u.settle := by
    intro i rest hi hs ht
    obtain ⟨u, hu⟩ := serve_next i (s.atHost rest)
    rw [hostStep, hu] at ht
    exact ⟨i, rest, u, hi, hs, hu, by cases ht; rfl⟩
  have engineCase : ∀ c, s.seq = .running c → settleOutcome (engineStep c s) = .next t →
      t = (bodyOf c.instr c s.atEngine).finish.settle := by
    intro c hc ht
    rw [engineStep, exec_eq_command, command_engine (s := s.atEngine) (c := c) rfl hc rfl] at ht
    cases ht
    rfl
  simp only [step, State.move] at h
  cases hi : s.inputs with
  | nil =>
    cases hq : s.seq with
    | idle =>
      rw [hi, hq] at h
      cases h
      exact .inl ⟨rfl, rfl, rfl⟩
    | running c =>
      rw [hi, hq] at h
      exact .inr (.inr ⟨c, rfl, .inl rfl, engineCase c hq h⟩)
  | cons i rest =>
    cases hq : s.seq with
    | idle =>
      rw [hi, hq] at h
      exact .inr (.inl (by simpa [hi, hq] using hostCase i rest hi (.inl hq) h))
    | running c =>
      cases hr : s.turn with
      | host =>
        rw [hi, hq, hr] at h
        exact .inr (.inl (by simpa [hi, hq, hr] using hostCase i rest hi (.inr hr) h))
      | engine =>
        rw [hi, hq, hr] at h
        exact .inr (.inr ⟨c, rfl, .inr rfl, engineCase c hq h⟩)

/-- The host's step. -/
theorem step_host {s : State} {i : Input} {rest : List Input} (hi : s.inputs = i :: rest)
    (h : s.busy = false ∨ s.turn = .host) :
    step s = settleOutcome (serve i (s.atHost rest)) := by
  rw [State.busy_eq_false] at h
  cases hq : s.seq with
  | idle => simp [step, State.move, hi, hq, hostStep]
  | running c =>
    have hr : s.turn = .host := h.resolve_left (by simp [hq])
    simp [step, State.move, hi, hq, hr, hostStep]

/-- The engine's step. -/
theorem step_engine {s : State} {c : Ctx} (hc : s.seq = .running c) (h : s.inputs = [] ∨ s.turn = .engine) :
    step s = settleOutcome (exec c.instr s.atEngine) := by
  cases hi : s.inputs with
  | nil => simp [step, State.move, hi, hc, engineStep]
  | cons i rest =>
    have hr : s.turn = .engine := h.resolve_left (by simp [hi])
    simp [step, State.move, hi, hc, hr, engineStep]

end Sys2Proof.Machine
end

