-- ==== Sys2Proof/Laws/Invariant.lean ====
section
/-!
SUPPORT. Storing bank words keeps the memory's canonical form and its whole words (20_memory.md R45, R57), and
what the write of each command's completion is (70_reset_and_hazards.md R125).
-/

namespace Sys2Proof.Machine

variable {s : State}

/-- A listed byte has a value. -/
theorem Memory.readByte_isSome {m : Memory} {a : Nat} :
    (m.readByte a).isSome = true ↔ ∃ c ∈ m, c.1 = a := by
  induction m with
  | nil => simp [Memory.readByte, Memory.unlisted]
  | cons d m ih =>
    rw [Memory.readByte_cons]
    by_cases h : d.1 = a
    · simp [h]
    · simp [h, ih]

/-- `Memory.InBanks` as a property of addresses. -/
theorem Memory.inBanks_iff {b : Build} {m : Memory} : m.InBanks b ↔
    ∀ a, (m.readByte a).isSome = true → bankAddr b 0 0 ≤ a ∧ a < bankAddr b b.nbuf 0 ∧
      ∀ j < 8, (m.readByte (a / 8 * 8 + j)).isSome = true := by
  constructor
  · intro h a ha
    obtain ⟨c, hc, rfl⟩ := Memory.readByte_isSome.mp ha
    exact h c hc
  · exact fun h c hc => h c.1 (Memory.readByte_isSome.mpr ⟨c, hc, rfl⟩)

theorem bankAddr_mod (b : Build) (k i : Nat) : bankAddr b k i % 8 = 0 := by
  have : (4 + k) * b.regionSize % 8 = 0 := by
    simp [Build.regionSize, Nat.mul_mod, show 16 * b.nmax = 8 * (2 * b.nmax) by ring]
  simp only [bankAddr]
  omega

/-- The words of a bank lie between the first bank and the end of the last. -/
theorem bankAddr_bounds {b : Build} {k i : Nat} (hk : k < b.nbuf) (hi : i ≤ 2 * b.nmax) :
    bankAddr b 0 0 ≤ bankAddr b k i ∧ bankAddr b k i ≤ bankAddr b b.nbuf 0 := by
  have h1 : (4 + k) * b.regionSize + b.regionSize ≤ (4 + b.nbuf) * b.regionSize := by
    rw [← Nat.succ_mul]; exact Nat.mul_le_mul_right _ (by omega)
  have h2 : (4 + 0) * b.regionSize ≤ (4 + k) * b.regionSize := Nat.mul_le_mul_right _ (by omega)
  have h3 : 8 * i ≤ b.regionSize := by simp only [Build.regionSize]; omega
  simp only [bankAddr]
  omega

/-- A byte of a run of words has a value exactly when its word has one. -/
theorem optBytes_flatMap_isSome (ws : List (Option Word)) (k j : Nat) (hj : j < 8) :
    (((ws.flatMap optBytes)[8 * k + j]?).join).isSome = (ws[k]?.join).isSome := by
  rw [flatMap_optBytes_getElem? ws k j hj]
  rcases ws[k]? with _ | _ | w
  · simp
  · interval_cases j <;> rfl
  · simp [optBytes, hj]

/-- Storing words inside a bank keeps whole words in the banks. -/
theorem Memory.InBanks.storeWords {b : Build} {m : Memory} (h : m.InBanks b) {k lo : Nat}
    {ws : List (Option Word)} (hk : k < b.nbuf) (hlo : lo + ws.length ≤ 2 * b.nmax) :
    (m.storeWords (bankAddr b k lo) ws).InBanks b := by
  have hm := bankAddr_mod b k lo
  have hb := bankAddr_bounds hk (Nat.le_of_add_right_le hlo)
  have he := (bankAddr_bounds hk hlo).2
  rw [bankAddr_add] at he
  rw [Memory.inBanks_iff] at h ⊢
  intro a ha
  by_cases hin : bankAddr b k lo ≤ a ∧ a < bankAddr b k lo + 8 * ws.length
  · rw [Memory.readByte_storeWords, if_pos hin] at ha
    refine ⟨by omega, by omega, fun j hj => ?_⟩
    rw [Memory.readByte_storeWords, if_pos (by omega)]
    rw [show a - bankAddr b k lo = 8 * ((a - bankAddr b k lo) / 8) + (a - bankAddr b k lo) % 8 by omega,
      optBytes_flatMap_isSome _ _ _ (Nat.mod_lt _ (by norm_num))] at ha
    rw [show a / 8 * 8 + j - bankAddr b k lo = 8 * ((a - bankAddr b k lo) / 8) + j by omega,
      optBytes_flatMap_isSome _ _ _ hj]
    exact ha
  · rw [Memory.readByte_storeWords, if_neg hin] at ha
    obtain ⟨h1, h2, h3⟩ := h a ha
    refine ⟨h1, h2, fun j hj => ?_⟩
    rw [Memory.readByte_storeWords, if_neg (by omega)]
    exact h3 j hj

/-- A legal size is a power of two, even, and a complex buffer of it fits a bank (R9, R38). -/
theorem legalSize_bounds {b : Build} {n : Nat} (h : legalSize b n) : 2 ≤ n ∧ n % 2 = 0 ∧ n ≤ b.nmax := by
  obtain ⟨h1, h2, h3⟩ := h
  obtain ⟨q, hq⟩ : ∃ q, power n = q + 1 := ⟨power n - 1, by omega⟩
  have h4 : 2 ^ power n ≤ 2 ^ b.log2Nmax := Nat.pow_le_pow_right (by norm_num) h3
  have h5 : 0 < 2 ^ q := Nat.pow_pos (by norm_num)
  rw [h1]
  refine ⟨?_, ?_, h4⟩
  · rw [hq, pow_succ]; omega
  · rw [hq, pow_succ]; omega

/-- The completion of a command that is not PLAN stores one run of words: exactly its write footprint. -/
theorem bodyOf_stores {c : Ctx} (hop : c.op ≠ .plan) (hn : legalSize s.build s.pn) :
    ∃ ws, bodyOf c.instr c s = s.storeBank c.dst (writeSpan c s.pn).lo ws ∧
      ws.length = (writeSpan c s.pn).len := by
  obtain ⟨h2, he, -⟩ := legalSize_bounds hn
  obtain ⟨hpow, hp, -⟩ := hn
  have tr : ∀ (nIn : Nat) (f : List Word → List Word), (∀ X, (f X).length = 2 * s.pn) →
      ∃ ws, transform c s nIn f = s.storeBank c.dst 0 ws ∧ ws.length = 2 * s.pn := by
    intro nIn f hf
    cases h : allSome (s.snapshot c.src nIn) with
    | none => exact ⟨_, transform_none h, by simp⟩
    | some X => exact ⟨_, transform_some h, by simp [hf]⟩
  cases hc : c.op <;> simp only [Ctx.instr, hc, bodyOf, writeSpan]
  case plan => exact absurd hc hop
  case fwd => exact tr _ _ fun X => by rw [hpow]; exact fwdWords_length hp _ _
  case inv => exact tr _ _ fun X => by rw [hpow]; exact invWords_length hp _ _
  case rfwd => exact tr _ _ fun X => by rw [hpow]; exact rfwdWords_length hp _ _
  case r2c => exact ⟨_, rfl, by
    simpa using pairs_length (fun r : Option Word => (r, some plusZero)) (s.snapshot c.src s.pn)⟩
  case c2r => exact ⟨_, rfl, by simp⟩
  case clr => exact ⟨_, rfl, by simp⟩
  case cspec => exact ⟨_, rfl, by
    have := pairs_length (fun t => ((s.snapshot c.dst s.pn).getD (s.pn - 2 - 2 * t) none,
      ((s.snapshot c.dst s.pn).getD (s.pn - 2 - 2 * t + 1) none).map fneg)) (List.range (s.pn / 2 - 1))
    rw [List.length_range] at this
    exact this.trans (by omega)⟩

/-- A command's write footprint lies inside its bank (R125). -/
theorem writeSpan_fits {b : Build} {n : Nat} (c : Ctx) (hn : legalSize b n) :
    (writeSpan c n).bank = c.dst ∧ (writeSpan c n).lo + (writeSpan c n).len ≤ 2 * b.nmax := by
  obtain ⟨h2, -, h3⟩ := legalSize_bounds hn
  cases hc : c.op <;> simp only [writeSpan, hc] <;> exact ⟨trivial, by omega⟩

end Sys2Proof.Machine
end

