-- ==== Sys2Proof/Laws/PerInstr.lean ====
section
/-!
SUPPORT. For every command, its encoding has the match and mask of its row of the opcode table.
-/

namespace Sys2Proof

/-- The "match" and "mask" of the command's row of spec/opcode_table.json. -/
def tableMatch : Instr → Word
  | .nop => 0x0000000000000000
  | .plan => 0x0000000000000001
  | .fwd _ _ => 0x0000000000000002
  | .inv _ _ => 0x0000000000000003
  | .rfwd _ _ => 0x0000000000000004
  | .r2c _ _ => 0x0000000000000005
  | .c2r _ _ => 0x0000000000000006
  | .clr _ => 0x0000000000000007
  | .cspec _ => 0x0000000000000008

def tableMask : Instr → Word
  | .nop => 0xFFFFFFFFFFFFFFFF
  | .plan => 0xFFFFFFFFFFFFFFFF
  | .fwd _ _ => 0xFFFFFFFFFFFF00FF
  | .inv _ _ => 0xFFFFFFFFFFFF00FF
  | .rfwd _ _ => 0xFFFFFFFFFFFF00FF
  | .r2c _ _ => 0xFFFFFFFFFFFF00FF
  | .c2r _ _ => 0xFFFFFFFFFFFF00FF
  | .clr _ => 0xFFFFFFFFFFFFF0FF
  | .cspec _ => 0xFFFFFFFFFFFFF0FF

/-- A word built of fields that fit: the two operand fields are the only bits beside the opcode. -/
theorem encodeFields_mask (op : BitVec 8) (d s : Nat) :
    encodeFields op d s &&& 0xFFFFFFFFFFFF00FF = op.setWidth 64 := by
  ext i hi
  simp only [encodeFields, BitVec.getElem_and, BitVec.getElem_setWidth, BitVec.getLsbD_append]
  interval_cases i <;> simp

theorem encodeFields_mask_dst (op : BitVec 8) (d : Nat) :
    encodeFields op d 0 &&& 0xFFFFFFFFFFFFF0FF = op.setWidth 64 := by
  ext i hi
  simp only [encodeFields, BitVec.getElem_and, BitVec.getElem_setWidth, BitVec.getLsbD_append]
  interval_cases i <;> simp

namespace Laws.TableRow

/-- The command's word, masked as its row says, is the row's match. -/
def Statement (i : Instr) : Prop := encode i &&& tableMask i = tableMatch i

theorem nop : Statement .nop := by unfold Statement; decide
theorem plan : Statement .plan := by unfold Statement; decide
theorem fwd (d s : Nat) : Statement (.fwd d s) := (encodeFields_mask 0x02 d s).trans rfl
theorem inv (d s : Nat) : Statement (.inv d s) := (encodeFields_mask 0x03 d s).trans rfl
theorem rfwd (d s : Nat) : Statement (.rfwd d s) := (encodeFields_mask 0x04 d s).trans rfl
theorem r2c (d s : Nat) : Statement (.r2c d s) := (encodeFields_mask 0x05 d s).trans rfl
theorem c2r (d s : Nat) : Statement (.c2r d s) := (encodeFields_mask 0x06 d s).trans rfl
theorem clr (d : Nat) : Statement (.clr d) := (encodeFields_mask_dst 0x07 d).trans rfl
theorem cspec (d : Nat) : Statement (.cspec d) := (encodeFields_mask_dst 0x08 d).trans rfl

end Laws.TableRow

end Sys2Proof
end

