-- ==== Sys2Proof/Tests/Slice0.lean ====
section
/-!
SUPPORT. The model's own tests. Every expected value is from 95_test_vectors.md or the example of a rule, not
from the model; each docstring names it. Every test is one small step. At the end stand the witnesses: for each
statement with hypotheses, states and operands that meet all of them together.
-/

open Sys2Proof Sys2Proof.Machine Host.Outcome

namespace Sys2Proof.Tests

/-! ## WellFormed: every check refuses an ill-formed term -/

theorem test_wf_fwd : (Instr.fwd 16 0).wellFormed = false ∧ (Instr.fwd 0 16).wellFormed = false ∧
    (Instr.fwd 15 15).wellFormed = true := by decide
theorem test_wf_inv : (Instr.inv 16 0).wellFormed = false ∧ (Instr.inv 0 16).wellFormed = false := by decide
theorem test_wf_rfwd : (Instr.rfwd 16 0).wellFormed = false ∧ (Instr.rfwd 0 16).wellFormed = false := by decide
theorem test_wf_r2c : (Instr.r2c 16 0).wellFormed = false ∧ (Instr.r2c 0 16).wellFormed = false := by decide
theorem test_wf_c2r : (Instr.c2r 16 0).wellFormed = false ∧ (Instr.c2r 0 16).wellFormed = false := by decide
theorem test_wf_clr : (Instr.clr 16).wellFormed = false ∧ (Instr.clr 15).wellFormed = true := by decide
theorem test_wf_cspec : (Instr.cspec 16).wellFormed = false ∧ (Instr.cspec 15).wellFormed = true := by decide

/-! ## Decode: words written out bit by bit, RSVD SRC DST OP (R64, R70) -/

theorem test_decode_nop : decode (0#48 ++ 0b0000#4 ++ 0b0000#4 ++ 0b00000000#8) = .ok .nop := by decide
theorem test_decode_plan : decode (0#48 ++ 0b0000#4 ++ 0b0000#4 ++ 0b00000001#8) = .ok .plan := by decide
theorem test_decode_fwd : decode (0#48 ++ 0b1110#4 ++ 0b1111#4 ++ 0b00000010#8) = .ok (.fwd 15 14) := by decide
theorem test_decode_inv : decode (0#48 ++ 0b0001#4 ++ 0b0010#4 ++ 0b00000011#8) = .ok (.inv 2 1) := by decide
theorem test_decode_rfwd : decode (0#48 ++ 0b0000#4 ++ 0b0001#4 ++ 0b00000100#8) = .ok (.rfwd 1 0) := by decide
theorem test_decode_r2c : decode (0#48 ++ 0b0010#4 ++ 0b0010#4 ++ 0b00000101#8) = .ok (.r2c 2 2) := by decide
theorem test_decode_c2r : decode (0#48 ++ 0b0010#4 ++ 0b0000#4 ++ 0b00000110#8) = .ok (.c2r 0 2) := by decide
theorem test_decode_clr : decode (0#48 ++ 0b0000#4 ++ 0b0011#4 ++ 0b00000111#8) = .ok (.clr 3) := by decide
theorem test_decode_cspec : decode (0#48 ++ 0b0000#4 ++ 0b0001#4 ++ 0b00001000#8) = .ok (.cspec 1) := by decide

/-- V3.2: the ILLEGAL words, by the reason the spec gives. -/
theorem test_decode_illegal : decode 0x9 = .error .reservedOpcode ∧ decode 0x10102 = .error .reservedBits ∧
    decode 0x1007 = .error .unusedField := by decide

/-- The host's numbering: one 64-bit word. -/
theorem test_decodeTableWord : decodeTableWord 64 0xEF02 = some (.fwd 15 14) ∧ decodeTableWord 64 9 = none := by
  decide

/-! ## Small states -/

/-- The state after reset with a plan of size `n`. -/
def planned (n : Nat) : State := { State.reset with pv := true, pn := n }

/-- Words from word 0 of a bank on. -/
def withWords (s : State) (b : Nat) (ws : List Word) : State := s.storeBank b 0 (ws.map some)

/-- The command runs, and it is the engine's turn. -/
def running (c : Ctx) (s : State) : State := { s with seq := .running c, turn := .engine }

/-- The context of a two-bank command from bank 0 to bank 1. -/
def ctx01 (op : Op) : Ctx :=
  { op := op, dst := 1, src := 0, inv := if op = .inv then .inverse else .forward, n := 0 }

/-- What a test reads from an outcome. -/
def after {α : Type} (o : Host.Outcome State Fault Refusal) (f : State → α) : Option α :=
  match o with
  | .next t => some (f t)
  | .fault _ => none
  | .refused _ => none

/-- The first `n` words of bank `b` after an outcome. -/
def bankAfter (o : Host.Outcome State Fault Refusal) (b n : Nat) : Option (List (Option Word)) :=
  after o fun t => t.snapshot b n

/-- Numbers of V-section lists: 1 to 8. -/
def ramp8 : List Word := [0x3FF0000000000000, 0x4000000000000000, 0x4008000000000000, 0x4010000000000000,
  0x4014000000000000, 0x4018000000000000, 0x401C000000000000, 0x4020000000000000]

/-- `[16, 20, -8, +0, -4, -4, +0, -8]` of V4.3. -/
def spectrum8 : List Word := [0x4030000000000000, 0x4034000000000000, 0xC020000000000000, 0,
  0xC010000000000000, 0xC010000000000000, 0, 0xC020000000000000]

/-! ## Arithmetic and tables -/

/-- R15: the signed-zero and NaN results the rules rely on; R101 and V4.15: half the smallest subnormal. -/
theorem test_float_corners :
    fsub 0x4008000000000000 0x4008000000000000 = 0 ∧ fadd 0 0x8000000000000000 = 0 ∧
    fadd 0x8000000000000000 0x8000000000000000 = 0x8000000000000000 ∧
    fsub 0x8000000000000000 0 = 0x8000000000000000 ∧
    fsub 0x7FF0000000000000 0x7FF0000000000000 = 0x7FF8000000000000 ∧
    fmul 0 0x7FF0000000000000 = 0x7FF8000000000000 ∧
    fdiv 0x0000000000000001 0x4000000000000000 = 0 ∧
    fdiv 0x0000000000000003 0x4000000000000000 = 2 ∧
    fadd 0x7FEFFFFFFFFFFFFF 0x7FEFFFFFFFFFFFFF = 0x7FF0000000000000 := by decide +kernel

/-- R81: the twiddle table for N = 8. -/
theorem test_twt8 : (List.range 16).map (twt 8) =
    [0x3FF0000000000000, 0x8000000000000000, 0x3FE6A09E667F3BCD, 0xBFE6A09E667F3BCD, 0, 0xBFF0000000000000,
     0xBFE6A09E667F3BCD, 0xBFE6A09E667F3BCD, 0xBFF0000000000000, 0x8000000000000000, 0xBFE6A09E667F3BCD,
     0x3FE6A09E667F3BCD, 0, 0x3FF0000000000000, 0x3FE6A09E667F3BCD, 0x3FE6A09E667F3BCD] := by decide +kernel

/-- V2.3: `c` and `-s` of the table for N = 16. -/
theorem test_twt16 : twt 16 2 = 0x3FED906BCF328D46 ∧ twt 16 3 = 0xBFD87DE2A6AEA963 ∧
    twt 16 30 = 0x3FED906BCF328D46 := by decide +kernel

/-- R84: the bit-reversal table for N = 32 and 64. -/
theorem test_brt32 : (List.range 32).map (brt 32) =
    [0, 8, 16, 24, 2, 10, 18, 26, 4, 12, 20, 28, 6, 14, 22, 30,
     1, 9, 17, 25, 3, 11, 19, 27, 5, 13, 21, 29, 7, 15, 23, 31] ∧ brt 64 5 = 10 := by decide

/-! ## The commands -/

/-- R73: with STATUS = 0, NOP leaves STATUS = 2. -/
theorem test_nop : after (exec .nop State.reset) State.statusReg = some 2 := by decide

/-- V7.4: with IRQ_EN = 1, NOP raises `irq` at once. -/
theorem test_nop_irq : after (exec .nop { State.reset with irqEn := true }) State.irq = some true := by decide

/-- V3.3: PLAN with ARG = 4 is accepted; with 3 and 8192 it is rejected. -/
theorem test_plan_accept :
    after (exec .plan { State.reset with arg := 4 }) State.statusReg = some 0x10001 ∧
    after (exec .plan { State.reset with arg := 3 }) State.statusReg = some 0x10106 ∧
    after (exec .plan { State.reset with arg := 8192 }) State.statusReg = some 0x10306 := by decide

/-- R75: `PLAN 16` gives PLAN_N = 16 and PLAN_GEOM = 0x0108_0304. -/
theorem test_plan_complete :
    after (exec .plan (running { op := .plan, dst := 0, src := 0, inv := .forward, n := 16 } State.reset))
      (fun t => (t.readRegister 0x28, t.readRegister 0x30)) = some (16, 0x01080304) := by decide

/-- V4.3: FWD at N = 4. -/
theorem test_fwd4 : bankAfter (exec (.fwd 1 0) (running (ctx01 .fwd) (withWords (planned 4) 0 ramp8))) 1 8 =
    some (spectrum8.map some) := by decide +kernel

/-- V4.7: the real ramp at N = 8, words 1, 3, 7 and 11, through one combining pass. -/
theorem test_fwd8 : (fwdWords 8 plusOne (ramp8.flatMap fun r => [r, 0]))[3]? = some 0x4023504F333F9DE6 ∧
    (fwdWords 8 plusOne (ramp8.flatMap fun r => [r, 0]))[7]? = some 0x3FFA827999FCEF34 ∧
    (fwdWords 8 plusOne (ramp8.flatMap fun r => [r, 0]))[11]? = some 0xBFFA827999FCEF34 := by decide +kernel

/-- V4.3: INV at N = 4 gives the ramp back. -/
theorem test_inv4 : bankAfter (exec (.inv 1 0) (running (ctx01 .inv) (withWords (planned 4) 0 spectrum8))) 1 8 =
    some (ramp8.map some) := by decide +kernel

/-- V4.15: subnormal scaling in INV at N = 2. -/
theorem test_inv2_subnormal : invWords 2 minusOne [3, 0, 0, 0] = [2, 0, 2, 0] := by decide +kernel

/-- V5.2: RFWD at N = 4; V5.8: the NaN sign there. -/
theorem test_rfwd4 : bankAfter (exec (.rfwd 1 0) (running (ctx01 .rfwd) (withWords (planned 4) 0 (ramp8.take 4))))
    1 8 = some ([0x4024000000000000, 0, 0xC000000000000000, 0x4000000000000000, 0xC000000000000000, 0,
      0xC000000000000000, 0xC000000000000000].map some) ∧
    rfwdWords 4 plusOne [0, 0x7FF0000000000000, 0, 0x7FF0000000000000] =
    [0x7FF0000000000000, 0, 0, 0xFFF8000000000000, 0xFFF0000000000000, 0, 0, 0x7FF8000000000000] := by
  decide +kernel

/-- V5.6: RFWD on the real ramp at N = 8, all sixteen words (the output of V4.7). It reads every input word
once, at the stride `h = 2^WIDTH >> 1 = 4` (R105). -/
theorem test_rfwd8 : (2 ^ width 8) >>> 1 = 4 ∧ rfwdWords 8 plusOne ramp8 =
    [0x4042000000000000, 0x0000000000000000, 0xC010000000000000, 0x4023504F333F9DE6, 0xC010000000000000,
     0x4010000000000000, 0xC010000000000000, 0x3FFA827999FCEF34, 0xC010000000000000, 0x0000000000000000,
     0xC010000000000000, 0xBFFA827999FCEF34, 0xC010000000000000, 0xC010000000000000, 0xC010000000000000,
     0xC023504F333F9DE6] := by decide +kernel

/-- V6.2: R2C in place at N = 4; word 8 is unchanged. -/
theorem test_r2c_in_place : bankAfter (exec (.r2c 2 2)
    (running { ctx01 .r2c with dst := 2, src := 2 } (withWords (planned 4) 2
      (ramp8.take 4 ++ [9, 9, 9, 9, 7])))) 2 9 =
    some ([0x3FF0000000000000, 0, 0x4000000000000000, 0, 0x4008000000000000, 0, 0x4010000000000000, 0, 7].map
      some) := by decide +kernel

/-- R126: R2C copies an unspecified word as unspecified, and its +0.0 is defined. -/
theorem test_r2c_unspecified : bankAfter (exec (.r2c 1 0) (running (ctx01 .r2c) (withWords (planned 2) 0 [5])))
    1 4 = some [some 5, some 0, none, some 0] := by decide +kernel

/-- V6.5: C2R in place at N = 4; words 4 to 7 keep their contents. -/
theorem test_c2r_in_place : bankAfter (exec (.c2r 1 1)
    (running { ctx01 .c2r with src := 1 } (withWords (planned 4) 1 [1, 91, 2, 92, 3, 93, 4, 94]))) 1 8 =
    some ([1, 2, 3, 4, 3, 93, 4, 94].map some) := by decide +kernel

/-- V6.6: CLR at N = 2; word 4 is unchanged. -/
theorem test_clr : bankAfter (exec (.clr 1) (running { ctx01 .clr with src := 0 } (withWords (planned 2) 1
    [1, 2, 3, 4, 5]))) 1 5 = some [some 0, some 0, some 0, some 0, some 5] := by decide +kernel

/-- V6.8: CSPEC at N = 8 (the words here are bit patterns, so a conjugate is bit 63 flipped). -/
theorem test_cspec8 : bankAfter (exec (.cspec 1) (running (ctx01 .cspec) (withWords (planned 8) 1
    [0, 1, 2, 3, 4, 5, 6, 7, 8, 9, 10, 11, 12, 13, 14, 15]))) 1 16 =
    some ([0, 1, 2, 3, 4, 5, 6, 7, 8, 9, 6, 0x8000000000000007, 4, 0x8000000000000005, 2,
      0x8000000000000003].map some) := by decide +kernel

/-- V6.9: CSPEC at N = 2 changes no word, and DONE is set. -/
theorem test_cspec2 : after (exec (.cspec 1) (running (ctx01 .cspec) (withWords (planned 2) 1 [1, 2, 3, 4])))
    (fun t => (t.snapshot 1 4, t.done)) = some ([some 1, some 2, some 3, some 4], true) := by decide +kernel

/-! ## Steps and the bus -/

/-- V3.3: FWD without a plan, the first step after reset, gives STATUS 0x2_0406. -/
theorem test_step_no_plan : after (step (State.reset.withFetchWord 64 0x0102)) State.statusReg =
    some 0x20406 := by decide

/-- V3.3: an ILLEGAL word gives STATUS 0x9_0606. -/
theorem test_step_illegal : after (step (State.reset.withFetchWord 64 0x0009)) State.statusReg =
    some 0x90606 := by decide

/-- V3.3: BAD_BUFFER before ALIASING, ALIASING, and an accepted FWD. -/
theorem test_accept_order : after (exec (.fwd 9 9) (planned 4)) State.statusReg = some 0x2050E ∧
    after (exec (.fwd 1 1) (planned 4)) State.statusReg = some 0x2020E ∧
    after (exec (.fwd 1 0) (planned 4)) State.statusReg = some 0x20009 := by decide

/-- V7.2: a reserved register offset, an absent bank, a misaligned and a narrow access. -/
theorem test_bus_edges :
    after (serve (.read 0x38 8) State.reset) State.replies = some [.data 0] ∧
    after (serve (.read 0x80000 8) State.reset) State.replies = some [.data 0] ∧
    after (serve (.read 0x04 8) State.reset) State.replies = some [.busError] ∧
    after (serve (.write 0x20 4 1) State.reset) (fun t => (t.seq, t.replies)) = some (.idle, [.busError]) ∧
    after (serve (.read 0x00 8) State.reset) State.replies = some [.data 0x000000040C01FF7E] := by decide

/-- V7.2: a bank word is kept bit for bit. -/
theorem test_bank_write : after (serve (.write 0x40008 8 0x7FF4000000000001) State.reset)
    (fun t => t.bankWord 0 1) = some (some 0x7FF4000000000001) := by decide +kernel

/-- V7.6: a bank read while busy returns 0 and sets HAZARD. -/
theorem test_hazard : after (serve (.read 0x70000 8) { planned 4 with seq := .running (ctx01 .fwd), lastop := 2 })
    (fun t => (t.replies, t.statusReg)) = some ([.data 0], 0x20029) := by decide

/-- V7.7: a soft reset clears the registers and the plan. -/
theorem test_soft_reset : after (serve (.write 0x08 8 3) { planned 4 with done := true, irqEn := true, arg := 7 })
    (fun t => (t.statusReg, t.ctrlReg, t.argReg, t.planNReg)) = some (0, 0, 0, 0) := by decide

/-! ## Witnesses: every statement with hypotheses has states and operands that meet them -/

/-- A word that decodes to nothing. -/
theorem not_decoded {w : Word} {e : DecodeError} (h : decode w = .error e) : ∀ i, decode w ≠ .ok i := by
  intro i hi
  rw [h] at hi
  cases hi

theorem witness_DecodeOfEncode : (Instr.fwd 15 14).wellFormed = true ∧ Instr.nop.wellFormed = true := by decide

theorem witness_EncodeOfDecode : decode 0xFF02 = .ok (.fwd 15 15) ∧ decode 0 = .ok .nop := by decide

/-- Each kind of ILLEGAL word, at the edge of its range. -/
theorem witness_IllegalWordsAreRejected : State.reset.build.Legal ∧ State.reset.seq = .idle ∧
    (∀ i, decode 0x09 ≠ .ok i) ∧ (∀ i, decode 0x10000 ≠ .ok i) ∧ (∀ i, decode 0x100 ≠ .ok i) ∧
    (∀ i, decode 0x1008 ≠ .ok i) :=
  ⟨by decide, rfl, not_decoded (e := .reservedOpcode) (by decide), not_decoded (e := .reservedBits) (by decide),
    not_decoded (e := .unusedField) (by decide), not_decoded (e := .unusedField) (by decide)⟩

theorem witness_StepRunsTheIssuedCommand : State.reset.build.Legal ∧
    (State.reset.placeCommand 0x0102).inputs = issueInput (State.reset.placeCommand 0x0102).build 0x0102 :: [] ∧
    (State.reset.placeCommand 0x0102).busy = false ∧ decode 0x0102 = .ok (.fwd 1 0) ∧
    (Instr.fwd 1 0).wellFormed = true := by decide

theorem witness_StepCompletesTheRunningCommand :
    (running (ctx01 .fwd) (planned 4)).seq = .running (ctx01 .fwd) ∧
    (running (ctx01 .fwd) (planned 4)).turn = .engine ∧ (running (ctx01 .fwd) (planned 4)).inputs = [] := by
  decide

theorem witness_RunningCommandEnds : (running (ctx01 .fwd) (planned 4)).busy = true := by decide

theorem witness_PowerOnResetState : State.reset.build.Legal := by decide

/-- A state of the invariant in which a command runs, and whose step is the completion. -/
theorem witness_StepKeepsTheInvariant : (running (ctx01 .clr) (planned 4)).Inv ∧
    ∃ t, step (running (ctx01 .clr) (planned 4)) = next t := by
  refine ⟨⟨by decide, by decide, by decide, by decide, by decide, by decide, ?_⟩, ⟨_, rfl⟩⟩
  intro c hc
  cases hc
  decide

theorem witness_StatusRelations : (∀ i, decode 0x09 ≠ .ok i) ∧
    (∃ k t, Host.Core.run Sys2Proof.core k (running (ctx01 .clr) (planned 4)) = next t) ∧
    (running (ctx01 .clr) (planned 4)).Inv ∧
    (State.reset.turn = .host ∧ State.reset.seq = .idle ∧ acceptError (.fwd 1 0) State.reset ≠ none ∧
      ∃ t, exec (.fwd 1 0) State.reset = next t) ∧
    ({ State.reset with err := true, done := true, errcode := .noPlan } : State).build.Legal :=
  ⟨not_decoded (e := .reservedOpcode) (by decide), ⟨0, _, rfl⟩, witness_StepKeepsTheInvariant.1, ⟨rfl, rfl, by decide, _, rfl⟩, by decide⟩

/-- Both clauses, at the least and the greatest size and bank. -/
theorem witness_AcceptedCommandRuns : State.reset.turn = .host ∧ State.reset.seq = .idle ∧
    ({ State.reset with arg := 2 } : State).arg.toInt = 2 ^ 1 ∧ 1 ≤ State.reset.build.log2Nmax ∧
    ({ State.reset with arg := 4096 } : State).arg.toInt = 2 ^ 12 ∧ 12 ≤ State.reset.build.log2Nmax ∧
    (planned 4).pv = true ∧ 3 < (planned 4).build.nbuf ∧ 0 < (planned 4).build.nbuf ∧ 3 ≠ 0 := by decide

/-- Each clause: no plan; the first bank number that does not exist; equal banks; a size that is not a power of
two, and the first power of two above NMAX. -/
theorem witness_FirstFailedCheckIsReported : (∀ i, decode 0x09 ≠ .ok i) ∧ State.reset.pv = false ∧
    State.reset.turn = .host ∧ State.reset.seq = .idle ∧
    ((planned 4).pv = true ∧ (planned 4).build.nbuf ≤ 4 ∧ 3 < (planned 4).build.nbuf ∧
      (planned 4).turn = .host ∧ (planned 4).seq = .idle) ∧
    ¬ IsPlanSize (({ State.reset with arg := 1 } : State).arg.toInt) ∧
    IsPlanSize (({ State.reset with arg := 8192 } : State).arg.toInt) ∧
    (State.reset.build.nmax : Int) < ({ State.reset with arg := 8192 } : State).arg.toInt := by
  refine ⟨not_decoded (e := .reservedOpcode) (by decide), by decide, by decide, by decide, by decide, ?_,
    ⟨13, by decide, by decide⟩, by decide⟩
  rintro ⟨p, hp, h⟩
  have h2 : (2 : Int) ^ 1 ≤ 2 ^ p := pow_le_pow_right₀ (by decide) hp
  rw [← h] at h2
  exact absurd h2 (by decide)

/-- A running command at the host's turn. -/
def busyAtHost : State := { planned 4 with seq := .running (ctx01 .fwd) }

theorem witness_OverrunDiscardsTheCommand : busyAtHost.build.Legal ∧ busyAtHost.busy = true ∧
    busyAtHost.turn = .host := by decide

theorem witness_NopCompletesAtAcceptance : State.reset.turn = .host ∧ State.reset.seq = .idle ∧
    ({ State.reset with irqEn := true } : State).irqEn = true ∧ (0 : Word).toNat % 256 = 0 ∧
    (0x100 : Word).toNat % 256 = 0 ∧ (0x100 : Word) ≠ 0 ∧ State.reset.build.Legal := by decide

/-- The least and the greatest size. -/
theorem witness_PlanCompletes :
    (∀ n ∈ [2 ^ 1, 2 ^ 24], (running { ctx01 .plan with n := n } State.reset).turn = .engine ∧
      (running { ctx01 .plan with n := n } State.reset).seq = .running { ctx01 .plan with n := n } ∧
      ({ ctx01 .plan with n := n } : Ctx).op = .plan ∧ ({ ctx01 .plan with n := n } : Ctx).n = n) := by decide

theorem witness_PlanGeometry : 1 ≤ 1 := by decide

theorem witness_R2cCompletes : (running (ctx01 .r2c) (planned 4)).turn = .engine ∧
    (running (ctx01 .r2c) (planned 4)).seq = .running (ctx01 .r2c) ∧ (ctx01 .r2c).instr = .r2c 1 0 ∧
    3 < (planned 4).pn := by decide

theorem witness_C2rCompletes : (running (ctx01 .c2r) (planned 4)).turn = .engine ∧
    (running (ctx01 .c2r) (planned 4)).seq = .running (ctx01 .c2r) ∧ (ctx01 .c2r).instr = .c2r 1 0 ∧
    3 < (planned 4).pn := by decide

theorem witness_ClrCompletes : (running (ctx01 .clr) (planned 4)).turn = .engine ∧
    (running (ctx01 .clr) (planned 4)).seq = .running (ctx01 .clr) ∧ (ctx01 .clr).instr = .clr 1 ∧
    7 < 2 * (planned 4).pn := by decide

/-- N = 4, where one bin is written, and N = 2, where none is. -/
theorem witness_CspecCompletes : (running (ctx01 .cspec) (planned 4)).turn = .engine ∧
    (running (ctx01 .cspec) (planned 4)).seq = .running (ctx01 .cspec) ∧ (ctx01 .cspec).instr = .cspec 1 ∧
    (planned 4).pn % 2 = 0 ∧ 2 ≤ (planned 4).pn ∧ 1 < (planned 4).pn / 2 ∧ (planned 2).pn % 2 = 0 ∧
    2 ≤ (planned 2).pn := by decide

theorem witness_CspecTwiceIsOnce : ∃ t u, exec (.cspec 1) (running (ctx01 .cspec) (planned 4)) = next t ∧
    exec (.cspec 1) { t with seq := .running (ctx01 .cspec) } = next u ∧
    (running (ctx01 .cspec) (planned 4)).turn = .engine ∧
    (running (ctx01 .cspec) (planned 4)).seq = .running (ctx01 .cspec) ∧
    (ctx01 .cspec).instr = .cspec 1 ∧ (running (ctx01 .cspec) (planned 4)).pn % 2 = 0 ∧
    2 ≤ (running (ctx01 .cspec) (planned 4)).pn :=
  ⟨_, _, rfl, rfl, rfl, rfl, rfl, by decide, by decide⟩

/-- A transform of size 2 whose four input words are there. -/
def ready (op : Op) : State := running (ctx01 op) (withWords (planned 2) 0 [1, 2, 3, 4])

theorem witness_FwdCompletes : (ready .fwd).turn = .engine ∧ (ready .fwd).seq = .running (ctx01 .fwd) ∧
    (ctx01 .fwd).instr = .fwd 1 0 ∧ (ctx01 .fwd).inv = .forward ∧ (ready .fwd).pn = 2 ^ 1 ∧
    [(1 : Word), 2, 3, 4].length = 2 * (ready .fwd).pn ∧
    (∀ i (h : i < [(1 : Word), 2, 3, 4].length), (ready .fwd).bankWord 0 i = some [(1 : Word), 2, 3, 4][i]) := by
  decide +kernel

theorem witness_InvCompletes : (ready .inv).turn = .engine ∧ (ready .inv).seq = .running (ctx01 .inv) ∧
    (ctx01 .inv).instr = .inv 1 0 ∧ (ctx01 .inv).inv = .inverse ∧ (ready .inv).pn = 2 ^ 1 ∧
    [(1 : Word), 2, 3, 4].length = 2 * (ready .inv).pn ∧
    (∀ i (h : i < [(1 : Word), 2, 3, 4].length), (ready .inv).bankWord 0 i = some [(1 : Word), 2, 3, 4][i]) := by
  decide +kernel

theorem witness_RfwdCompletes : (ready .rfwd).turn = .engine ∧ (ready .rfwd).seq = .running (ctx01 .rfwd) ∧
    (ctx01 .rfwd).instr = .rfwd 1 0 ∧ (ctx01 .rfwd).inv = .forward ∧ (ready .rfwd).pn = 2 ^ 1 ∧
    [(1 : Word), 2].length = (ready .rfwd).pn ∧
    (∀ i (h : i < [(1 : Word), 2].length), (ready .rfwd).bankWord 0 i = some [(1 : Word), 2][i]) := by
  decide +kernel

/-- Both cases: a missing word, and all of them there. -/
theorem witness_UnspecifiedInputSpreads : (ready .fwd).turn = .engine ∧ (ready .fwd).pn = 2 ^ 1 ∧
    (ready .fwd).seq = .running (ctx01 .fwd) ∧ (ctx01 .fwd).instr = .fwd 1 0 ∧
    (∀ k < 4, (ready .fwd).bankWord 0 k ≠ none) ∧ (running (ctx01 .fwd) (planned 2)).pn = 2 ^ 1 ∧
    (running (ctx01 .fwd) (planned 2)).bankWord 0 3 = none := by decide +kernel

theorem witness_DestinationContentsDoNotMatter : ∃ s s' t t' : State,
    (ctx01 .fwd).instr = .fwd 1 0 ∧ s.pn = 2 ^ 1 ∧ s.turn = .engine ∧ s'.turn = .engine ∧
    s.seq = .running (ctx01 .fwd) ∧ s'.seq = .running (ctx01 .fwd) ∧ s'.pn = s.pn ∧
    (∀ k < 2 * s.pn, s'.bankWord 0 k = s.bankWord 0 k) ∧ s'.bankWord 1 0 ≠ s.bankWord 1 0 ∧
    exec (.fwd 1 0) s = next t ∧ exec (.fwd 1 0) s' = next t' :=
  ⟨ready .fwd, withWords (ready .fwd) 1 [9], _, _, rfl, by decide, rfl, rfl, rfl, rfl, rfl,
    by decide +kernel, by decide +kernel, rfl, rfl⟩

/-- N = 2, first and last word; and N = 4, whose NaN sign may differ (V5.8). -/
theorem witness_RfwdAgreesWithFwd :
    (engineR binary64 (tw (2 ^ 1)) (2 ^ 1) plusOne [plusOne, plusOne])[0]? = some 0x4000000000000000 ∧
    (engine binary64 (tw (2 ^ 1)) (2 ^ 1) plusOne ([plusOne, plusOne].flatMap fun x => [x, plusZero]))[0]? =
      some 0x4000000000000000 ∧
    (engineR binary64 (tw (2 ^ 2)) (2 ^ 2) plusOne [0, 0x7FF0000000000000, 0, 0x7FF0000000000000])[3]? =
      some 0xFFF8000000000000 ∧
    (engine binary64 (tw (2 ^ 2)) (2 ^ 2) plusOne
      ([0, 0x7FF0000000000000, 0, 0x7FF0000000000000].flatMap fun x => [x, plusZero]))[3]? =
      some 0x7FF8000000000000 := by decide +kernel

/-- N = 2: bin 1 of four real numbers. -/
theorem witness_ExactEngineIsDft : ∃ (X : List ℝ) (dir : ℝ) (tw : ℕ → ℝ × ℝ) (re im : ℝ),
    X.length = 2 * 2 ^ 1 ∧ (dir = 1 ∨ dir = -1) ∧
    (∀ j : ℕ, tw j = (Real.cos (Real.pi * j / 2 ^ 1), - Real.sin (Real.pi * j / 2 ^ 1))) ∧
    (engine (exactArith ℝ) tw (2 ^ 1) dir X)[2 * 1]? = some re ∧
    (engine (exactArith ℝ) tw (2 ^ 1) dir X)[2 * 1 + 1]? = some im :=
  ⟨[3, 1, 1, -2], 1, fun j => (Real.cos (Real.pi * j / 2 ^ 1), - Real.sin (Real.pi * j / 2 ^ 1)), _, _,
    rfl, .inl rfl, fun _ => rfl, rfl, rfl⟩

theorem witness_ZeroInGivesZeroOut : 1 ≤ 1 ∧ 24 ≤ 24 ∧ plusOne ≠ minusOne := by decide

/-- The last position of the pass of stride 2 at N = 8. -/
theorem witness_TwiddleIndexBound : 2 ∈ strides (2 ^ 3) ∧ 1 < 2 * 2 ^ 3 / 2 * 2 / 8 ∧ 3 ∈ [1, 2, 3] ∧
    6 + 1 ≤ 3 * 2 ^ 3 / 2 - 5 := by decide

/-- Two lookups at N = 8 that agree up to the last index read, 6, and differ at the next, 8. -/
theorem witness_TwiddleIndexBound_lookups : ∃ f g : Nat → Word × Word, 3 ≤ 3 ∧ f 8 ≠ g 8 ∧
    ∀ k, k % 2 = 0 → k + 1 ≤ 3 * 2 ^ 3 / 2 - 5 → f k = g k :=
  ⟨fun k => (BitVec.ofNat 64 k, 0), fun k => (BitVec.ofNat 64 (if k ≤ 6 then k else 0), 0), by decide, by decide,
    fun k _ h => by simp [show k ≤ 6 by omega]⟩

theorem witness_TwiddlesAreCorrectlyRounded : 1 ≤ 12 ∧ 12 ≤ 12 ∧ 2 ^ 12 - 1 < 2 ^ 12 := by decide

/-- Each property at the ends of its range, at N = 2 and N = 4. -/
theorem witness_TwiddleSymmetries : 0 % 2 = 0 ∧ 2 % 2 = 0 ∧ 2 < 2 * 2 ^ 2 ∧ 2 ≠ 2 ^ 2 ∧ 0 < 2 ∧ 2 < 2 ^ 2 ∧
    twt (2 ^ 2) 0 ≠ plusZero ∧ twt (2 ^ 2) 3 ≠ 0x8000000000000000 ∧ 2 ≤ 2 ^ 2 / 2 := by decide +kernel

theorem witness_TwiddleExactEntries : 1 ≤ 2 ∧ 2 ≤ 24 ∧ 2 ≤ 2 := by decide

theorem witness_BitReversalReadsEachPositionOnce : 7 < 2 ^ 3 ∧ 3 < 2 ^ (width (2 ^ 3) - 1) ∧ 2 ^ (width (2 ^ 3) - 1) ≤ 7 ∧
    7 < 2 ^ width (2 ^ 3) := by decide

/-- The least subnormal and the greatest finite value; and the zero cases. -/
theorem witness_AddAndSubAreRounded : finiteWord 1 = true ∧ finiteWord 0x7FEFFFFFFFFFFFFF = true ∧
    finiteWord 0x8000000000000000 = true ∧ wordValue 0x8000000000000000 + wordValue 0x8000000000000000 = 0 ∧
    wordValue plusOne - wordValue plusOne = 0 := by decide +kernel

theorem witness_MulAndDivAreRounded : finiteWord 1 = true ∧ finiteWord plusOne = true ∧
    wordValue plusOne ≠ 0 := by decide +kernel

theorem witness_NanResultsAreCanonical : isNaN 0xFFF0000000000001 = true ∧
    isNaN (fadd 0x7FF0000000000000 0xFFF0000000000000) = true ∧ isNaN 0x7FF0000000000000 = false ∧
    isNaN 0 = false := by decide +kernel

/-- Both infinities, the greatest finite value, both zeros. -/
theorem witness_InfiniteOperandResults : isInf 0x7FF0000000000000 = true ∧ isInf 0xFFF0000000000000 = true ∧
    finiteWord 0xFFEFFFFFFFFFFFFF = true ∧ finiteWord 0 = true ∧ isZeroWord 0x8000000000000000 = true ∧
    isZeroWord 0 = true := by decide

theorem witness_DirectionMultiply : isNaN 0x7FF0000000000000 = false ∧ isNaN 0x7FF0000000000001 = true := by
  decide

theorem witness_InverseScalingIsAMultiplication : 1 ≤ 1 ∧ 1 ≤ 24 ∧ 24 ≤ 24 := by decide

/-- The last byte of the aperture, and a narrow access at its first. -/
theorem witness_BusErrorHasNoEffect : 0x1FFFFF < State.reset.build.aperture ∧ 0x1FFFFF % 8 ≠ 0 ∧
    0 < State.reset.build.aperture ∧ (4 : Nat) ≠ 8 := by decide

/-- The first and last word of each data window, and the words next to them. -/
theorem witness_BusyDataWindowsAreRefused : busyAtHost.build.Legal ∧ busyAtHost.busy = true ∧
    (∀ a ∈ [0x10000, 0x1FFF8, 0x20000, 0x27FF8, 0x40000, 0x7FFF8],
      a < busyAtHost.build.aperture ∧ a % 8 = 0 ∧ IsDataWindow busyAtHost.build a) ∧
    (∀ a ∈ [0x0, 0xFFF8, 0x28000, 0x3FFF8, 0x80000, 0x1FFFF8],
      a < busyAtHost.build.aperture ∧ a % 8 = 0 ∧ ¬ IsDataWindow busyAtHost.build a) ∧
    busyAtHost.hazard = false := by
  refine ⟨by decide, by decide, ?_, ?_, by decide⟩ <;> simp only [IsDataWindow] <;> decide

/-- The first and last word of each reserved range. -/
theorem witness_ReservedOffsetsDoNothing : State.reset.build.Legal ∧
    (∀ a ∈ [0x38, 0xFFF8, 0x28000, 0x3FFF8, 0x80000, 0x1FFFF8], a < State.reset.build.aperture ∧ a % 8 = 0 ∧
      ((0x38 ≤ a ∧ a < State.reset.build.regionSize) ∨
      (2 * State.reset.build.regionSize + 8 * State.reset.build.nmax ≤ a ∧
        a < 4 * State.reset.build.regionSize) ∨
      (4 + State.reset.build.nbuf) * State.reset.build.regionSize ≤ a)) := by decide

theorem witness_RegisterReads : State.reset.build.Legal ∧ 0x30 < 0x38 ∧ 0x30 % 8 = 0 ∧
    State.reset.pv = false ∧ busyAtHost.build.Legal ∧ busyAtHost.busy = true ∧ busyAtHost.pv = true ∧
    busyAtHost.pn = 2 ^ 2 := by decide

theorem witness_StatusWriteClears : State.reset.build.Legal ∧ (0x36 : Word).toNat / 2 % 2 = 1 ∧
    (0xFFFFFFFFFFFFFFC9 : Word).toNat / 2 % 2 ≠ 1 := by decide

theorem witness_ArgAndReadOnlyWrites : busyAtHost.build.Legal ∧ busyAtHost.busy = true := by decide

theorem witness_CtrlWriteSetsIrqEnable : State.reset.build.Legal ∧
    (0xFFFFFFFFFFFFFFFD : Word).toNat / 2 % 2 = 0 ∧ (0xFFFFFFFFFFFFFFFD : Word).toNat % 2 = 1 := by decide

/-- Idle, and while each kind of command runs. -/
theorem witness_SoftReset : busyAtHost.build.Legal ∧ (2 : Word).toNat / 2 % 2 = 1 ∧
    (3 : Word).toNat / 2 % 2 = 1 ∧ (planned 4).seq = .idle ∧
    (∀ op ∈ [Op.plan, .fwd, .inv, .rfwd, .r2c, .clr, .c2r, .cspec],
      (running (ctx01 op) (planned 4)).seq = .running (ctx01 op) ∧ (ctx01 op).op = op) ∧
    7 < 2 * (planned 4).pn ∧ 3 < (planned 4).pn ∧ (planned 4).pn + 2 ≤ 7 ∧
    7 < (planned 4).pn + 2 + ((planned 4).pn - 2) ∧ busyAtHost.seq = .running (ctx01 .fwd) ∧
    busyAtHost.turn = .host ∧ (∃ u, serve (.read 0x10 8) busyAtHost = next u) ∧
    Input.read 0x10 8 ≠ .powerOn ∧
    (∀ w : Word, w.toNat / 2 % 2 = 1 → Input.read 0x10 8 ≠ .write (busyAtHost.build.base + 0x08) 8 w) :=
  ⟨by decide, by decide, by decide, by decide, by decide, by decide, by decide, by decide, by decide, by decide,
    by decide, ⟨_, rfl⟩, by decide, fun _ _ => nofun⟩

/-- The last word inside the plan and the first beyond it, and the last of each window. -/
theorem witness_TableWindows : (planned 4).build.Legal ∧ (planned 4).seq = .idle ∧ (planned 4).pv = true ∧
    7 < 2 * (planned 4).pn ∧ ¬ 8 < 2 * (planned 4).pn ∧ 8191 < 2 * (planned 4).build.nmax ∧
    1 < 2 ^ width (planned 4).pn ∧ ¬ 2 < 2 ^ width (planned 4).pn ∧ 4095 < (planned 4).build.nmax := by decide

/-- The last word of the last bank, unspecified; and a word that has a value. -/
theorem witness_BankWindowReadsBack : State.reset.build.Legal ∧ State.reset.seq = .idle ∧
    3 < State.reset.build.nbuf ∧ 8191 < 2 * State.reset.build.nmax ∧ State.reset.bankWord 3 8191 = none ∧
    (withWords State.reset 0 [5]).bankWord 0 0 = some 5 := by decide +kernel

/-- The completion of PLAN, power-on reset and soft reset each change the plan store. -/
theorem witness_OnlyPlanAndResetWriteThePlan : State.reset.build.Legal ∧
    (∃ t, step (running { ctx01 .plan with n := 4 } State.reset) = next t ∧ t.pv ≠ State.reset.pv) ∧
    (∃ t, step { planned 4 with inputs := [.powerOn] } = next t ∧ t.pn ≠ (planned 4).pn) ∧
    (∃ t, step { planned 4 with inputs := [.write 0x08 8 2] } = next t ∧ t.pn ≠ (planned 4).pn) :=
  ⟨by decide, ⟨_, rfl, by decide⟩, ⟨_, rfl, by decide⟩, ⟨_, rfl, by decide⟩⟩

/-- `irq` rises by a completion, by a rejection, by NOP and by setting IRQ_EN. -/
theorem witness_IrqRisesOnlyBy : State.reset.build.Legal ∧
    (∃ t, step { running (ctx01 .clr) (planned 2) with irqEn := true } = next t ∧ t.irq = true) ∧
    (∃ t, step ({ State.reset with irqEn := true }.withFetchWord 64 9) = next t ∧ t.irq = true) ∧
    (∃ t, step ({ State.reset with irqEn := true }.withFetchWord 64 0) = next t ∧ t.irq = true) ∧
    (∃ t, step { State.reset with done := true, inputs := [.write 0x08 8 1] } = next t ∧ t.irq = true) ∧
    State.reset.irq = false ∧ ({ State.reset with irqEn := true } : State).irq = false ∧
    ({ State.reset with done := true } : State).irq = false :=
  ⟨by decide, ⟨_, rfl, by decide⟩, ⟨_, rfl, by decide⟩, ⟨_, rfl, by decide⟩, ⟨_, rfl, by decide⟩, by decide,
    by decide, by decide⟩

/-- `irq` falls by a W1C of DONE, by an acceptance, by clearing IRQ_EN, by soft reset and by power-on reset. -/
theorem witness_IrqIsEnableAndDone : ({ planned 4 with irqEn := true, done := true } : State).build.Legal ∧
    ({ planned 4 with irqEn := true, done := true } : State).irq = true ∧
    (∀ i ∈ [Input.write 0x10 8 2, issueInput Build.default 0x0102, .write 0x08 8 0, .write 0x08 8 3, .powerOn],
      after (step { planned 4 with irqEn := true, done := true, inputs := [i] }) State.irq = some false) := by
  decide

/-- A byte of a bank changes by a completion, by a host write, and by power-on reset. -/
theorem witness_BankBytesChangeOnlyBy : State.reset.build.Legal ∧ legalSize (planned 2).build (planned 2).pn ∧
    (ctx01 .clr).Legal (planned 2).build true ∧
    (∃ t, step (running (ctx01 .clr) (planned 2)) = next t ∧
      t.mem.readByte 0x50000 ≠ (planned 2).mem.readByte 0x50000) ∧
    (∃ t, step { State.reset with inputs := [.write 0x40000 8 5] } = next t ∧
      t.mem.readByte 0x40000 ≠ State.reset.mem.readByte 0x40000) ∧
    (∃ t, step { withWords State.reset 0 [5] with inputs := [.powerOn] } = next t ∧
      t.mem.readByte 0x40000 ≠ (withWords State.reset 0 [5]).mem.readByte 0x40000) :=
  ⟨by decide, by decide, by decide, ⟨_, rfl, by decide +kernel⟩, ⟨_, rfl, by decide +kernel⟩,
    ⟨_, rfl, by decide +kernel⟩⟩

theorem witness_HostCannotDisturbARunningCommand : busyAtHost.build.Legal ∧
    busyAtHost.seq = .running (ctx01 .fwd) ∧ busyAtHost.turn = .host ∧
    (∃ t, serve (.write 0x40000 8 5) busyAtHost = next t) ∧ Input.write 0x40000 8 5 ≠ .powerOn ∧
    (∀ w : Word, w.toNat / 2 % 2 = 1 → Input.write 0x40000 8 5 ≠ .write (busyAtHost.build.base + 0x08) 8 w) := by
  refine ⟨by decide, by decide, by decide, ⟨_, rfl⟩, by decide, fun w _ h => ?_⟩
  have := (Input.write.inj h).1
  exact absurd this (by decide)

theorem witness_ParametersNeverChange : ∃ t, step (running (ctx01 .clr) (planned 2)) = next t := ⟨_, rfl⟩

end Sys2Proof.Tests
end

/-! ## The layer of binary64 facts: magnitude bits, classes of words, packing (00_scope.md R14 to R16) -/

namespace Sys2Proof.Machine

/-- Bits 62:0 of a word, as a number: the biased exponent and the fraction together. -/
def magBits (w : Word) : Nat := w.toNat % 2 ^ 63

/-- The units of 2^-1074 that the magnitude bits `m` stand for, with no largest exponent. -/
def bitsUnits (m : Nat) : Nat :=
  if m / 2 ^ 52 = 0 then m % 2 ^ 52 else (2 ^ 52 + m % 2 ^ 52) * 2 ^ (m / 2 ^ 52 - 1)

theorem infMag_eq : infMag = 2047 * 2 ^ 52 := rfl

/-! ### The fields of a word, from its magnitude bits -/

theorem toNat_eq_sign_add_magBits (w : Word) : w.toNat = (if w.msb then 2 ^ 63 else 0) + magBits w := by
  have hw := w.isLt
  rw [BitVec.msb_eq_decide, magBits]
  simp only [decide_eq_true_eq]
  split <;> omega

theorem expField_eq (w : Word) : expField w = magBits w / 2 ^ 52 := by
  have hw := w.isLt
  simp only [expField, magBits]
  omega

theorem fracField_eq (w : Word) : fracField w = magBits w % 2 ^ 52 := by
  simp only [fracField, magBits]
  omega

theorem magBits_lt (w : Word) : magBits w < 2 ^ 63 := Nat.mod_lt _ (by norm_num)

theorem magUnits_eq (w : Word) : magUnits w = bitsUnits (magBits w) := by
  simp only [magUnits, bitsUnits, expField_eq, fracField_eq]

theorem isNaN_iff (w : Word) : isNaN w = true ↔ infMag < magBits w := by
  have hw := magBits_lt w
  simp only [isNaN, expField_eq, fracField_eq, infMag_eq, Bool.and_eq_true, beq_iff_eq, bne_iff_ne]
  omega

theorem isInf_iff (w : Word) : isInf w = true ↔ magBits w = infMag := by
  simp only [isInf, expField_eq, fracField_eq, infMag_eq, Bool.and_eq_true, beq_iff_eq]
  omega

theorem finiteWord_iff (w : Word) : finiteWord w = true ↔ magBits w < infMag := by
  have hw := magBits_lt w
  simp only [finiteWord, expField_eq, infMag_eq, bne_iff_ne]
  omega

theorem isZeroWord_iff (w : Word) : isZeroWord w = true ↔ magBits w = 0 := by
  simp [isZeroWord, magBits]

/-- A word is a NaN, an infinity or finite. -/
theorem word_cases (w : Word) : isNaN w = true ∨ isInf w = true ∨ finiteWord w = true := by
  rw [isNaN_iff, isInf_iff, finiteWord_iff]
  omega

theorem isNaN_of_finite {w : Word} (h : finiteWord w = true) : isNaN w = false := by
  rw [finiteWord_iff] at h
  rw [Bool.eq_false_iff, ne_eq, isNaN_iff]
  omega

theorem isInf_of_finite {w : Word} (h : finiteWord w = true) : isInf w = false := by
  rw [finiteWord_iff] at h
  rw [Bool.eq_false_iff, ne_eq, isInf_iff]
  omega

theorem isNaN_of_isInf {w : Word} (h : isInf w = true) : isNaN w = false := by
  rw [isInf_iff] at h
  rw [Bool.eq_false_iff, ne_eq, isNaN_iff]
  omega

theorem finite_of_isZeroWord {w : Word} (h : isZeroWord w = true) : finiteWord w = true := by
  rw [isZeroWord_iff] at h
  rw [finiteWord_iff, h]
  decide

theorem isZeroWord_of_isInf {w : Word} (h : isInf w = true) : isZeroWord w = false := by
  rw [isInf_iff] at h
  rw [Bool.eq_false_iff, ne_eq, isZeroWord_iff, h]
  decide

/-! ### Units -/

theorem bitsUnits_of_lt {r : Nat} (h : r < 2 ^ 52) : bitsUnits r = r := by
  rw [bitsUnits, if_pos (Nat.div_eq_of_lt h), Nat.mod_eq_of_lt h]

/-- A significand `r` with `e` units' bits below its last place; a carry out of it is counted in the
exponent. -/
theorem bitsUnits_significand {e r : Nat} (h : e = 0 ∨ 2 ^ 52 ≤ r) (hr : r ≤ 2 ^ 53) :
    bitsUnits (e * 2 ^ 52 + r) = r * 2 ^ e := by
  obtain hlt | hge := Nat.lt_or_ge r (2 ^ 52)
  · obtain rfl : e = 0 := by omega
    rw [Nat.zero_mul, Nat.zero_add, bitsUnits_of_lt hlt, pow_zero, Nat.mul_one]
  · obtain rfl | hlt := Nat.eq_or_lt_of_le hr
    · have hq : (e * 2 ^ 52 + 2 ^ 53) / 2 ^ 52 = e + 2 := by omega
      have hm : (e * 2 ^ 52 + 2 ^ 53) % 2 ^ 52 = 0 := by omega
      rw [bitsUnits, hq, hm, if_neg (by omega), show e + 2 - 1 = e + 1 by omega, pow_succ]
      ring
    · have hq : (e * 2 ^ 52 + r) / 2 ^ 52 = e + 1 := by omega
      have hm : 2 ^ 52 + (e * 2 ^ 52 + r) % 2 ^ 52 = r := by omega
      rw [bitsUnits, hq, hm, if_neg (by omega), Nat.add_sub_cancel]

/-- Every magnitude is a significand below 2^53 with an exponent. -/
theorem exists_significand (m : Nat) : ∃ e r, (e = 0 ∨ 2 ^ 52 ≤ r) ∧ r < 2 ^ 53 ∧ m = e * 2 ^ 52 + r := by
  by_cases h : m / 2 ^ 52 = 0
  · exact ⟨0, m, .inl rfl, by omega, by omega⟩
  · exact ⟨m / 2 ^ 52 - 1, 2 ^ 52 + m % 2 ^ 52, .inr (by omega), by omega, by omega⟩

/-- The order of the magnitude bits is the order of the numbers they stand for. -/
theorem bitsUnits_strictMono : StrictMono bitsUnits := by
  refine strictMono_nat_of_lt_succ fun m => ?_
  obtain ⟨e, r, hn, hr, rfl⟩ := exists_significand m
  rw [Nat.add_assoc, bitsUnits_significand hn hr.le, bitsUnits_significand (by omega) hr]
  exact Nat.mul_lt_mul_of_pos_right (Nat.lt_succ_self r) (Nat.two_pow_pos e)

@[simp] theorem bitsUnits_zero : bitsUnits 0 = 0 := rfl

theorem bitsUnits_eq_zero {m : Nat} : bitsUnits m = 0 ↔ m = 0 :=
  bitsUnits_strictMono.injective.eq_iff' bitsUnits_zero

theorem magUnits_eq_zero (w : Word) : magUnits w = 0 ↔ isZeroWord w = true := by
  rw [magUnits_eq, bitsUnits_eq_zero, isZeroWord_iff]

/-- The number +1 or -1 of a sign bit. -/
def signUnit (neg : Bool) : Int := if neg then -1 else 1

@[simp] theorem signUnit_false : signUnit false = 1 := rfl
@[simp] theorem signUnit_true : signUnit true = -1 := rfl

theorem signUnit_xor (a b : Bool) : signUnit (a ^^ b) = signUnit a * signUnit b := by
  cases a <;> cases b <;> rfl

theorem units_eq (w : Word) : units w = signUnit w.msb * magUnits w := by
  cases h : w.msb <;> simp [units, signBit, h]

theorem natAbs_units (w : Word) : (units w).natAbs = magUnits w := by
  simp only [units]
  split <;> simp

theorem units_eq_zero (w : Word) : units w = 0 ↔ isZeroWord w = true := by
  rw [← magUnits_eq_zero, ← natAbs_units, Int.natAbs_eq_zero]

/-! ### Packing a sign and magnitude bits -/

theorem toNat_pack {m : Nat} (neg : Bool) (h : m < 2 ^ 63) :
    (pack neg m).toNat = (if neg then 2 ^ 63 else 0) + m := by
  rw [pack, BitVec.toNat_ofNat]
  refine Nat.mod_eq_of_lt ?_
  split <;> omega

theorem magBits_pack {m : Nat} (neg : Bool) (h : m < 2 ^ 63) : magBits (pack neg m) = m := by
  rw [magBits, toNat_pack neg h]
  split <;> omega

theorem msb_pack {m : Nat} (neg : Bool) (h : m < 2 ^ 63) : (pack neg m).msb = neg := by
  rw [BitVec.msb_eq_decide, toNat_pack neg h]
  cases neg
  · simpa using h
  · simp

theorem pack_msb_magBits (w : Word) : pack w.msb (magBits w) = w := by
  apply BitVec.eq_of_toNat_eq
  rw [toNat_pack _ (magBits_lt w), toNat_eq_sign_add_magBits w]

theorem word_ext {v w : Word} (hs : v.msb = w.msb) (hm : magBits v = magBits w) : v = w := by
  rw [← pack_msb_magBits v, hs, hm, pack_msb_magBits]

theorem lt_of_le_infMag {m : Nat} (h : m ≤ infMag) : m < 2 ^ 63 := by
  rw [infMag_eq] at h
  omega

theorem isNaN_pack {m : Nat} (neg : Bool) (h : m ≤ infMag) : isNaN (pack neg m) = false := by
  rw [Bool.eq_false_iff, ne_eq, isNaN_iff, magBits_pack neg (lt_of_le_infMag h)]
  omega

theorem roundMag_le (p q : Nat) : roundMag p q ≤ infMag := Nat.min_le_right _ _

theorem xorInf_eq_pack (a b : Word) : xorInf a b = pack (a.msb ^^ b.msb) infMag := by
  rw [xorInf]
  cases a.msb ^^ b.msb <;> rfl

theorem xorZero_eq_pack (a b : Word) : xorZero a b = pack (a.msb ^^ b.msb) 0 := by
  rw [xorZero]
  cases a.msb ^^ b.msb <;> rfl

/-! ### Sign flip (R16) -/

@[simp] theorem msb_fneg (w : Word) : (fneg w).msb = !w.msb := by
  simp [fneg, BitVec.msb_xor, show (0x8000000000000000#64).msb = true from rfl]

@[simp] theorem magBits_fneg (w : Word) : magBits (fneg w) = magBits w := by
  rw [magBits, magBits, fneg, BitVec.toNat_xor, Nat.xor_mod_two_pow]
  simp [show (9223372036854775808 : Nat) % 9223372036854775808 = 0 from rfl]

@[simp] theorem isNaN_fneg (w : Word) : isNaN (fneg w) = isNaN w := by
  rw [Bool.eq_iff_iff, isNaN_iff, isNaN_iff, magBits_fneg]

@[simp] theorem isInf_fneg (w : Word) : isInf (fneg w) = isInf w := by
  rw [Bool.eq_iff_iff, isInf_iff, isInf_iff, magBits_fneg]

@[simp] theorem finiteWord_fneg (w : Word) : finiteWord (fneg w) = finiteWord w := by
  rw [Bool.eq_iff_iff, finiteWord_iff, finiteWord_iff, magBits_fneg]

@[simp] theorem units_fneg (w : Word) : units (fneg w) = -units w := by
  rw [units_eq, units_eq, magUnits_eq, magUnits_eq, magBits_fneg, msb_fneg]
  cases w.msb <;> simp

@[simp] theorem fneg_fneg (w : Word) : fneg (fneg w) = w := word_ext (by simp) (by simp)

theorem fneg_pack {m : Nat} (neg : Bool) (h : m < 2 ^ 63) : fneg (pack neg m) = pack (!neg) m :=
  word_ext (by rw [msb_fneg, msb_pack _ h, msb_pack _ h])
    (by rw [magBits_fneg, magBits_pack _ h, magBits_pack _ h])

end Sys2Proof.Machine

/-! ## The four operations, one equation for each class of operands (00_scope.md R15) -/

namespace Sys2Proof.Machine

section
variable {a b : Word}

theorem fadd_of_isNaN (h : isNaN a = true ∨ isNaN b = true) : fadd a b = cnan := by
  rw [fadd, if_pos (by simpa using h)]

theorem fadd_inf_inf (ha : isInf a = true) (hb : isInf b = true) :
    fadd a b = if a.msb = b.msb then a else cnan := by
  simp [fadd, isNaN_of_isInf ha, isNaN_of_isInf hb, ha, hb, signBit]

theorem fadd_inf_finite (ha : isInf a = true) (hb : finiteWord b = true) : fadd a b = a := by
  simp [fadd, isNaN_of_isInf ha, isNaN_of_finite hb, ha, isInf_of_finite hb]

theorem fadd_finite_inf (ha : finiteWord a = true) (hb : isInf b = true) : fadd a b = b := by
  simp [fadd, isNaN_of_finite ha, isNaN_of_isInf hb, isInf_of_finite ha, hb]

/-- The sign of a sum: that of the exact sum, and of an exact zero the sign the addends share. -/
def sumSign (a b : Word) : Bool :=
  if units a + units b = 0 then a.msb && b.msb else decide (units a + units b < 0)

theorem fadd_finite (ha : finiteWord a = true) (hb : finiteWord b = true) :
    fadd a b = pack (sumSign a b) (roundMag (units a + units b).natAbs 1) := by
  have hz : roundMag 0 1 = 0 := by decide
  rw [fadd, sumSign]
  simp only [isNaN_of_finite ha, isNaN_of_finite hb, isInf_of_finite ha, isInf_of_finite hb, signBit,
    Bool.or_self, Bool.false_eq_true, if_false]
  by_cases h : units a + units b = 0
  · rw [if_pos h, if_pos h, h, Int.natAbs_zero, hz]
  · rw [if_neg h, if_neg h]

theorem fmul_of_isNaN (h : isNaN a = true ∨ isNaN b = true) : fmul a b = cnan := by
  rw [fmul, if_pos (by simpa using h)]

theorem fmul_inf_inf (ha : isInf a = true) (hb : isInf b = true) : fmul a b = xorInf a b := by
  simp [fmul, isNaN_of_isInf ha, isNaN_of_isInf hb, ha, hb, signBit, xorInf_eq_pack]

theorem fmul_inf_finite (ha : isInf a = true) (hb : finiteWord b = true) :
    fmul a b = if isZeroWord b = true then cnan else xorInf a b := by
  cases h0 : isZeroWord b <;>
    simp [fmul, isNaN_of_isInf ha, isNaN_of_finite hb, ha, isInf_of_finite hb, signBit, xorInf_eq_pack,
      magUnits_eq_zero, h0]

theorem fmul_finite_inf (ha : finiteWord a = true) (hb : isInf b = true) :
    fmul a b = if isZeroWord a = true then cnan else xorInf a b := by
  cases h0 : isZeroWord a <;>
    simp [fmul, isNaN_of_finite ha, isNaN_of_isInf hb, isInf_of_finite ha, hb, signBit, xorInf_eq_pack,
      magUnits_eq_zero, h0]

theorem fmul_finite (ha : finiteWord a = true) (hb : finiteWord b = true) :
    fmul a b = pack (a.msb ^^ b.msb) (roundMag (magUnits a * magUnits b) (2 ^ 1074)) := by
  simp only [fmul, isNaN_of_finite ha, isNaN_of_finite hb, isInf_of_finite ha, isInf_of_finite hb, signBit,
    Bool.or_self, Bool.false_eq_true, if_false]

theorem fdiv_of_isNaN (h : isNaN a = true ∨ isNaN b = true) : fdiv a b = cnan := by
  rw [fdiv, if_pos (by simpa using h)]

theorem fdiv_inf_inf (ha : isInf a = true) (hb : isInf b = true) : fdiv a b = cnan := by
  simp [fdiv, isNaN_of_isInf ha, isNaN_of_isInf hb, ha, hb]

theorem fdiv_inf_finite (ha : isInf a = true) (hb : finiteWord b = true) : fdiv a b = xorInf a b := by
  simp [fdiv, isNaN_of_isInf ha, isNaN_of_finite hb, ha, isInf_of_finite hb, signBit, xorInf_eq_pack]

theorem fdiv_finite_inf (ha : finiteWord a = true) (hb : isInf b = true) : fdiv a b = xorZero a b := by
  simp [fdiv, isNaN_of_finite ha, isNaN_of_isInf hb, isInf_of_finite ha, hb, signBit, xorZero_eq_pack]

theorem fdiv_zero (ha : finiteWord a = true) (hb : isZeroWord b = true) :
    fdiv a b = if isZeroWord a = true then cnan else xorInf a b := by
  have hfb := finite_of_isZeroWord hb
  simp [fdiv, isNaN_of_finite ha, isNaN_of_finite hfb, isInf_of_finite ha, isInf_of_finite hfb, signBit,
    xorInf_eq_pack, magUnits_eq_zero, hb]

theorem fdiv_finite (ha : finiteWord a = true) (hb : finiteWord b = true) (h0 : isZeroWord b = false) :
    fdiv a b = pack (a.msb ^^ b.msb) (roundMag (magUnits a * 2 ^ 1074) (magUnits b)) := by
  simp only [fdiv, isNaN_of_finite ha, isNaN_of_finite hb, isInf_of_finite ha, isInf_of_finite hb, signBit,
    magUnits_eq_zero, h0, Bool.or_self, Bool.false_eq_true, if_false]

/-! ### Infinite operands and zero divisors -/

theorem xorInf_comm (a b : Word) : xorInf a b = xorInf b a := by
  rw [xorInf, xorInf, Bool.xor_comm]

theorem xorZero_comm (a b : Word) : xorZero a b = xorZero b a := by
  rw [xorZero, xorZero, Bool.xor_comm]

theorem fsub_inf_inf (ha : isInf a = true) (hb : isInf b = true) :
    fsub a b = if a.msb = b.msb then cnan else a := by
  rw [fsub, fadd_inf_inf ha (by simpa using hb), msb_fneg]
  cases a.msb <;> cases b.msb <;> rfl

theorem fsub_inf_finite (ha : isInf a = true) (hb : finiteWord b = true) : fsub a b = a := by
  rw [fsub, fadd_inf_finite ha (by simpa using hb)]

theorem fsub_finite_inf (ha : finiteWord a = true) (hb : isInf b = true) : fsub a b = fneg b := by
  rw [fsub, fadd_finite_inf ha (by simpa using hb)]

/-! ### When a result is a NaN -/

/-- `r` is CNAN where `P` holds and no NaN where it does not. -/
def CnanExactlyIf (r : Word) (P : Prop) : Prop := (P → r = cnan) ∧ (¬ P → isNaN r = false)

theorem isNaN_cnan : isNaN cnan = true := rfl

theorem CnanExactlyIf.isNaN_iff {r : Word} {P : Prop} (h : CnanExactlyIf r P) : isNaN r = true ↔ P := by
  obtain ⟨hnan, hnot⟩ := h
  constructor
  · intro hr
    by_contra hP
    simp [hnot hP] at hr
  · intro hP
    rw [hnan hP, isNaN_cnan]

theorem cnanExactlyIf_cnan {P : Prop} (h : P) : CnanExactlyIf cnan P := ⟨fun _ => rfl, fun hn => absurd h hn⟩

theorem cnanExactlyIf_not {r : Word} {P : Prop} (hr : isNaN r = false) (h : ¬ P) : CnanExactlyIf r P :=
  ⟨fun hp => absurd hp h, fun _ => hr⟩

theorem isNaN_xorInf (a b : Word) : isNaN (xorInf a b) = false := by
  rw [xorInf_eq_pack, isNaN_pack _ le_rfl]

theorem isNaN_xorZero (a b : Word) : isNaN (xorZero a b) = false := by
  rw [xorZero_eq_pack, isNaN_pack _ (Nat.zero_le _)]

/-- Two operands, neither a NaN, by class. -/
theorem operand_cases (ha : isNaN a = false) (hb : isNaN b = false) :
    (isInf a = true ∧ isInf b = true) ∨ (isInf a = true ∧ finiteWord b = true) ∨
    (finiteWord a = true ∧ isInf b = true) ∨ (finiteWord a = true ∧ finiteWord b = true) := by
  have h := word_cases a
  have h' := word_cases b
  simp only [ha, hb, Bool.false_eq_true, false_or] at h h'
  tauto

/-- A sum is CNAN exactly for infinities of opposite signs. -/
theorem fadd_cnanExactlyIf (ha : isNaN a = false) (hb : isNaN b = false) :
    CnanExactlyIf (fadd a b) (isInf a = true ∧ isInf b = true ∧ a.msb ≠ b.msb) := by
  obtain ⟨hia, hib⟩ | ⟨hia, hfb⟩ | ⟨hfa, hib⟩ | ⟨hfa, hfb⟩ := operand_cases ha hb
  · rw [fadd_inf_inf hia hib]
    split
    · exact cnanExactlyIf_not ha (by tauto)
    · exact cnanExactlyIf_cnan (by tauto)
  · rw [fadd_inf_finite hia hfb]
    exact cnanExactlyIf_not ha (by simp [isInf_of_finite hfb])
  · rw [fadd_finite_inf hfa hib]
    exact cnanExactlyIf_not hb (by simp [isInf_of_finite hfa])
  · rw [fadd_finite hfa hfb]
    exact cnanExactlyIf_not (isNaN_pack _ (roundMag_le _ _)) (by simp [isInf_of_finite hfa])

/-- A product is CNAN exactly for a zero and an infinity. -/
theorem fmul_cnanExactlyIf (ha : isNaN a = false) (hb : isNaN b = false) :
    CnanExactlyIf (fmul a b)
      ((isInf a = true ∧ isZeroWord b = true) ∨ (isZeroWord a = true ∧ isInf b = true)) := by
  obtain ⟨hia, hib⟩ | ⟨hia, hfb⟩ | ⟨hfa, hib⟩ | ⟨hfa, hfb⟩ := operand_cases ha hb
  · rw [fmul_inf_inf hia hib]
    exact cnanExactlyIf_not (isNaN_xorInf a b) (by simp [isZeroWord_of_isInf hia, isZeroWord_of_isInf hib])
  · rw [fmul_inf_finite hia hfb]
    split
    case isTrue h0 => exact cnanExactlyIf_cnan (by tauto)
    case isFalse h0 => exact cnanExactlyIf_not (isNaN_xorInf a b) (by simp [h0, isInf_of_finite hfb])
  · rw [fmul_finite_inf hfa hib]
    split
    case isTrue h0 => exact cnanExactlyIf_cnan (by tauto)
    case isFalse h0 => exact cnanExactlyIf_not (isNaN_xorInf a b) (by simp [h0, isInf_of_finite hfa])
  · rw [fmul_finite hfa hfb]
    exact cnanExactlyIf_not (isNaN_pack _ (roundMag_le _ _))
      (by simp [isInf_of_finite hfa, isInf_of_finite hfb])

/-- A quotient is CNAN exactly for two infinities and for two zeros. -/
theorem fdiv_cnanExactlyIf (ha : isNaN a = false) (hb : isNaN b = false) :
    CnanExactlyIf (fdiv a b)
      ((isInf a = true ∧ isInf b = true) ∨ (isZeroWord a = true ∧ isZeroWord b = true)) := by
  obtain ⟨hia, hib⟩ | ⟨hia, hfb⟩ | ⟨hfa, hib⟩ | ⟨hfa, hfb⟩ := operand_cases ha hb
  · rw [fdiv_inf_inf hia hib]
    exact cnanExactlyIf_cnan (.inl ⟨hia, hib⟩)
  · rw [fdiv_inf_finite hia hfb]
    exact cnanExactlyIf_not (isNaN_xorInf a b) (by simp [isZeroWord_of_isInf hia, isInf_of_finite hfb])
  · rw [fdiv_finite_inf hfa hib]
    exact cnanExactlyIf_not (isNaN_xorZero a b) (by simp [isZeroWord_of_isInf hib, isInf_of_finite hfa])
  · cases h0 : isZeroWord b with
    | true =>
      rw [fdiv_zero hfa h0]
      split
      case isTrue ha0 => exact cnanExactlyIf_cnan (.inr ⟨ha0, rfl⟩)
      case isFalse ha0 => exact cnanExactlyIf_not (isNaN_xorInf a b) (by simp [ha0, isInf_of_finite hfa])
    | false =>
      rw [fdiv_finite hfa hfb h0]
      exact cnanExactlyIf_not (isNaN_pack _ (roundMag_le _ _)) (by simp [isInf_of_finite hfa])

/-- A difference is CNAN exactly for infinities of equal signs. -/
theorem fsub_cnanExactlyIf (ha : isNaN a = false) (hb : isNaN b = false) :
    CnanExactlyIf (fsub a b) (isInf a = true ∧ isInf b = true ∧ a.msb = b.msb) := by
  simpa [fsub] using fadd_cnanExactlyIf ha (b := fneg b) (by simpa using hb)

theorem fsub_of_isNaN (h : isNaN a = true ∨ isNaN b = true) : fsub a b = cnan :=
  fadd_of_isNaN (by simpa using h)

/-- An operation that is CNAN with a NaN operand and, with none, exactly if `P` has no other NaN result. -/
theorem eq_cnan_of_isNaN {r : Word} {P : Prop} (hnan : isNaN a = true ∨ isNaN b = true → r = cnan)
    (h : isNaN a = false → isNaN b = false → CnanExactlyIf r P) (hr : isNaN r = true) : r = cnan := by
  by_cases hab : isNaN a = true ∨ isNaN b = true
  · exact hnan hab
  · simp only [not_or, Bool.not_eq_true] at hab
    obtain ⟨hcnan, hnot⟩ := h hab.1 hab.2
    by_cases hP : P
    · exact hcnan hP
    · simp [hnot hP] at hr

end

end Sys2Proof.Machine

/-! ## Rounding: `roundMag` is nearest, ties to even (00_scope.md R15, R18) -/

namespace Sys2Proof.Machine

/-- `n` is the one of two neighbouring magnitudes `m`, `m + 1` around `y` units that is nearer to `y`, and
the even one halfway; there is no largest exponent. -/
structure RoundsTo (y : ℝ) (m n : Nat) : Prop where
  lower : (bitsUnits m : ℝ) ≤ y
  upper : y < bitsUnits (m + 1)
  choice : (n = m ∧ 2 * y ≤ bitsUnits m + bitsUnits (m + 1)) ∨
    (n = m + 1 ∧ (bitsUnits m + bitsUnits (m + 1) : ℝ) ≤ 2 * y)
  even : 2 * y = bitsUnits m + bitsUnits (m + 1) → n % 2 = 0

/-! ### What `roundMag` computes -/

/-- The number of bits of `k` below the last place kept. -/
def droppedBits (k : Nat) : Nat := if k < 2 ^ 53 then 0 else Nat.log2 k - 52

/-- `p / d` rounded to an integer, ties to even. -/
def divHalfEven (p d : Nat) : Nat :=
  if d < 2 * (p % d) ∨ (2 * (p % d) = d ∧ p / d % 2 = 1) then p / d + 1 else p / d

theorem roundMag_eq (p q : Nat) : roundMag p q =
    min (droppedBits (p / q) * 2 ^ 52 + divHalfEven p (q * 2 ^ droppedBits (p / q))) infMag := rfl

/-- What is kept of `k` is a significand below 2^53, and at least 2^52 if anything is dropped. -/
theorem droppedBits_spec (k : Nat) :
    (droppedBits k = 0 ∨ 2 ^ 52 ≤ k / 2 ^ droppedBits k) ∧ k / 2 ^ droppedBits k < 2 ^ 53 := by
  rw [droppedBits]
  split
  case isTrue h => exact ⟨.inl rfl, by simpa using h⟩
  case isFalse h =>
    have hk : k ≠ 0 := by omega
    have hlog : 53 ≤ k.log2 := (Nat.le_log2 hk).mpr (by omega)
    rw [Nat.le_div_iff_mul_le (Nat.two_pow_pos _), Nat.div_lt_iff_lt_mul (Nat.two_pow_pos _), ← pow_add,
      ← pow_add, show 52 + (k.log2 - 52) = k.log2 by omega, show 53 + (k.log2 - 52) = k.log2 + 1 by omega]
    exact ⟨.inr (Nat.log2_self_le hk), Nat.lt_log2_self⟩

/-- `divHalfEven` goes down up to the halfway point and up from it on, and is even at it. -/
theorem divHalfEven_spec (p d : Nat) :
    ((divHalfEven p d = p / d ∧ 2 * p ≤ d * (p / d) + (d * (p / d) + d)) ∨
      (divHalfEven p d = p / d + 1 ∧ d * (p / d) + (d * (p / d) + d) ≤ 2 * p)) ∧
    (2 * p = d * (p / d) + (d * (p / d) + d) → divHalfEven p d % 2 = 0) := by
  have hp := Nat.div_add_mod p d
  rw [divHalfEven]
  split <;> omega

/-- Rounding a quotient of natural numbers, with the bounds multiplied out. -/
theorem roundsTo_div {p q m n lo hi : Nat} (hq : 0 < q) (hlo : bitsUnits m * q = lo)
    (hhi : bitsUnits (m + 1) * q = hi) (hlower : lo ≤ p) (hupper : p < hi)
    (hchoice : (n = m ∧ 2 * p ≤ lo + hi) ∨ (n = m + 1 ∧ lo + hi ≤ 2 * p))
    (heven : 2 * p = lo + hi → n % 2 = 0) : RoundsTo ((p : ℝ) / q) m n := by
  have hq' : (0 : ℝ) < q := by exact_mod_cast hq
  subst hlo hhi
  constructor
  · rw [le_div_iff₀ hq']
    exact_mod_cast hlower
  · rw [div_lt_iff₀ hq']
    exact_mod_cast hupper
  · rw [← mul_div_assoc, div_le_iff₀ hq', le_div_iff₀ hq', add_mul]
    exact_mod_cast hchoice
  · rw [← mul_div_assoc, div_eq_iff hq'.ne', add_mul]
    exact_mod_cast heven

/-- `roundMag` rounds `p / q` to a neighbour, and then goes no higher than an infinity. -/
theorem roundMag_roundsTo (p : Nat) {q : Nat} (hq : 0 < q) :
    ∃ m n, RoundsTo ((p : ℝ) / q) m n ∧ roundMag p q = min n infMag := by
  have hspec := droppedBits_spec (p / q)
  rw [roundMag_eq]
  generalize droppedBits (p / q) = e at hspec ⊢
  rw [Nat.div_div_eq_div_mul] at hspec
  obtain ⟨hchoice, heven⟩ := divHalfEven_spec p (q * 2 ^ e)
  have hmod := Nat.div_add_mod p (q * 2 ^ e)
  have hrem := Nat.mod_lt p (Nat.mul_pos hq (Nat.two_pow_pos e))
  generalize p / (q * 2 ^ e) = r at *
  obtain ⟨hnorm, hr⟩ := hspec
  refine ⟨e * 2 ^ 52 + r, _, roundsTo_div hq (lo := q * 2 ^ e * r) (hi := q * 2 ^ e * r + q * 2 ^ e)
    ?_ ?_ ?_ ?_ ?_ ?_, rfl⟩
  · rw [bitsUnits_significand hnorm hr.le]
    ring
  · rw [Nat.add_assoc, bitsUnits_significand (by omega) hr, Nat.succ_eq_add_one]
    ring
  all_goals omega

/-! ### A rounded value is nearest among all words -/

section
variable {y : ℝ} {m n : Nat}

theorem RoundsTo.nonneg (h : RoundsTo y m n) : 0 ≤ y := le_trans (Nat.cast_nonneg _) h.lower

/-- No word stands for a number strictly between two neighbouring magnitudes. -/
theorem units_not_between (m : Nat) (v : Word) :
    (units v : ℝ) ≤ bitsUnits m ∨ (bitsUnits (m + 1) : ℝ) ≤ units v := by
  have hv : units v ≤ bitsUnits m ∨ (bitsUnits (m + 1) : Int) ≤ units v := by
    rw [units_eq, magUnits_eq]
    cases v.msb with
    | true => left; simp only [signUnit_true]; omega
    | false =>
      obtain hle | hlt := Nat.lt_or_ge m (magBits v)
      · right
        have := bitsUnits_strictMono.monotone hle
        simpa using this
      · left
        have := bitsUnits_strictMono.monotone hlt
        simpa using this
  exact_mod_cast hv

theorem RoundsTo.nearest (h : RoundsTo y m n) (v : Word) : |(bitsUnits n : ℝ) - y| ≤ |(units v : ℝ) - y| := by
  obtain ⟨hlo, hhi, ⟨rfl, hc⟩ | ⟨rfl, hc⟩, -⟩ := h
  · rw [abs_of_nonpos (by linarith), le_abs]
    exact (units_not_between n v).elim (fun h => .inr (by linarith)) (fun h => .inl (by linarith))
  · rw [abs_of_nonneg (by linarith), le_abs]
    exact (units_not_between m v).elim (fun h => .inr (by linarith)) (fun h => .inl (by linarith))

/-- Another number of a word is as near only halfway, and then `n` is even. -/
theorem RoundsTo.even_of_tie (h : RoundsTo y m n) (v : Word) (hne : (units v : ℝ) ≠ bitsUnits n)
    (htie : |(units v : ℝ) - y| = |(bitsUnits n : ℝ) - y|) : n % 2 = 0 := by
  obtain ⟨hlo, hhi, ⟨rfl, hc⟩ | ⟨rfl, hc⟩, heven⟩ := h
  · rw [abs_of_nonpos (a := (bitsUnits n : ℝ) - y) (by linarith)] at htie
    obtain hv | hv := units_not_between n v
    · rw [abs_of_nonpos (by linarith)] at htie
      exact absurd (by linarith) hne
    · rw [abs_of_nonneg (by linarith)] at htie
      exact heven (by linarith)
  · rw [abs_of_nonneg (a := (bitsUnits (m + 1) : ℝ) - y) (by linarith)] at htie
    obtain hv | hv := units_not_between m v
    · rw [abs_of_nonpos (by linarith)] at htie
      exact heven (by linarith)
    · rw [abs_of_nonneg (by linarith)] at htie
      exact absurd (by linarith) hne

/-- A number that a magnitude stands for rounds to that magnitude. -/
theorem RoundsTo.eq_of_exact {k : Nat} (h : RoundsTo (bitsUnits k) m n) : n = k := by
  obtain ⟨hlo, hhi, hc, -⟩ := h
  have hmk : m ≤ k := bitsUnits_strictMono.le_iff_le.mp (by exact_mod_cast hlo)
  have hkm : k < m + 1 := bitsUnits_strictMono.lt_iff_lt.mp (by exact_mod_cast hhi)
  obtain rfl : m = k := by omega
  obtain ⟨rfl, -⟩ | ⟨-, hc⟩ := hc
  · rfl
  · linarith

/-- Exact quotients are not rounded. -/
theorem roundMag_exact {p q k : Nat} (hq : 0 < q) (hp : p = bitsUnits k * q) : roundMag p q = min k infMag := by
  obtain ⟨m, n, hr, heq⟩ := roundMag_roundsTo p hq
  have hy : (p : ℝ) / q = bitsUnits k := by
    rw [hp, Nat.cast_mul, mul_div_cancel_right₀ _ (by exact_mod_cast hq.ne')]
  rw [hy] at hr
  rw [heq, hr.eq_of_exact]

/-! ### Where overflow begins -/

/-- The overflow threshold of `IsNearestEven`, in units. -/
noncomputable def overflowUnits : ℝ := 2 ^ 1024 * 2 ^ 1074 - 2 ^ 970 * 2 ^ 1074

theorem bitsUnits_infMag : (bitsUnits infMag : ℝ) = 2 ^ 53 * 2 ^ 2045 := by
  rw [show infMag = 2045 * 2 ^ 52 + 2 ^ 53 by rw [infMag_eq]; norm_num,
    bitsUnits_significand (by norm_num) le_rfl, Nat.cast_mul, Nat.cast_pow, Nat.cast_pow, Nat.cast_ofNat]

/-- The threshold is halfway between the largest finite value and the next power of two. -/
theorem two_mul_overflowUnits : 2 * overflowUnits = bitsUnits (infMag - 1) + bitsUnits infMag := by
  have htop : (2 : ℝ) ^ 1024 * 2 ^ 1074 = 2 ^ 53 * 2 ^ 2045 := by rw [← pow_add, ← pow_add]
  have hhalf : 2 * ((2 : ℝ) ^ 970 * 2 ^ 1074) = 2 ^ 2045 := by rw [← pow_add, ← pow_succ']
  have hpred : bitsUnits (infMag - 1) = (2 ^ 53 - 1) * 2 ^ 2045 := by
    rw [show infMag - 1 = 2045 * 2 ^ 52 + (2 ^ 53 - 1) by rw [infMag_eq]; norm_num,
      bitsUnits_significand (by norm_num) (by norm_num)]
  rw [bitsUnits_infMag, hpred, overflowUnits, htop, mul_sub, hhalf, Nat.cast_mul, Nat.cast_pow, Nat.cast_ofNat]
  generalize (2 : ℝ) ^ 2045 = u
  norm_num
  ring

/-- Rounding reaches the infinity exactly from the overflow threshold on. -/
theorem RoundsTo.lt_infMag_iff (h : RoundsTo y m n) : n < infMag ↔ y < overflowUnits := by
  have hmid := two_mul_overflowUnits
  have hodd : (infMag - 1) % 2 = 1 := by decide
  have hmono : ∀ {i j : Nat}, i ≤ j → (bitsUnits i : ℝ) ≤ bitsUnits j := fun hij => by
    exact_mod_cast bitsUnits_strictMono.monotone hij
  have hlt : (bitsUnits (infMag - 1) : ℝ) < bitsUnits infMag := by
    exact_mod_cast bitsUnits_strictMono (by decide)
  obtain ⟨hlo, hhi, hc, heven⟩ := h
  obtain hm | rfl | hm := Nat.lt_trichotomy m (infMag - 1)
  · have := hmono (show m + 1 ≤ infMag - 1 by omega)
    exact iff_of_true (by omega) (by linarith)
  · rw [show infMag - 1 + 1 = infMag by decide] at *
    obtain ⟨rfl, hc⟩ | ⟨rfl, hc⟩ := hc
    · refine iff_of_true (by decide) (lt_of_le_of_ne (by linarith) fun hy => ?_)
      have := heven (by linarith)
      omega
    · exact iff_of_false (lt_irrefl _) (by linarith)
  · have := hmono (show infMag ≤ m by omega)
    exact iff_of_false (by omega) (by linarith)

end

/-! ### Rounded values of either sign -/

theorem wordValue_cast (w : Word) : (wordValue w : ℝ) = (units w : ℝ) / 2 ^ 1074 := by
  rw [wordValue, Rat.cast_div, Rat.cast_intCast, Rat.cast_pow, Rat.cast_ofNat]

@[simp] theorem wordValue_fneg (w : Word) : wordValue (fneg w) = -wordValue w := by
  rw [wordValue, wordValue, units_fneg, Int.cast_neg, neg_div]

/-- The distance to a number in units, scaled. -/
theorem abs_wordValue_sub (v : Word) (y : ℝ) :
    |(wordValue v : ℝ) - y / 2 ^ 1074| = |(units v : ℝ) - y| / 2 ^ 1074 := by
  rw [wordValue_cast, ← sub_div, abs_div, abs_of_pos (a := (2 : ℝ) ^ 1074) (by positivity)]

theorem abs_wordValue_sub_neg (v : Word) (x : ℝ) :
    |(wordValue v : ℝ) - -x| = |(wordValue (fneg v) : ℝ) - x| := by
  rw [wordValue_fneg, Rat.cast_neg, ← abs_neg]
  congr 1
  ring

theorem toNat_mod_two (w : Word) : w.toNat % 2 = magBits w % 2 := by
  rw [magBits]
  omega

/-- Rounding to nearest, ties to even, treats both signs alike. -/
theorem isNearestEven_fneg {x : ℝ} {w : Word} (h : IsNearestEven x w) : IsNearestEven (-x) (fneg w) := by
  rw [IsNearestEven] at *
  rw [abs_neg]
  split at h
  case isTrue hx =>
    obtain ⟨hfin, hnear, heven⟩ := h
    rw [if_pos hx]
    refine ⟨by simpa using hfin, fun v hv => ?_, fun v hv hne htie => ?_⟩
    · rw [abs_wordValue_sub_neg, abs_wordValue_sub_neg, fneg_fneg]
      exact hnear _ (by simpa using hv)
    · rw [abs_wordValue_sub_neg, abs_wordValue_sub_neg, fneg_fneg] at htie
      rw [toNat_mod_two, magBits_fneg, ← toNat_mod_two]
      refine heven (fneg v) (by simpa using hv) (fun heq => hne ?_) htie
      rw [wordValue_fneg, ← heq, wordValue_fneg, neg_neg]
  case isFalse hx =>
    obtain ⟨hw, hsign⟩ := h
    have hx0 : x ≠ 0 := by
      rintro rfl
      exact hx (by rw [abs_zero, sub_pos]; exact pow_lt_pow_right₀ (by norm_num) (by norm_num))
    rw [if_neg hx, msb_fneg, ← fneg_pack _ (lt_of_le_infMag le_rfl), ← hw]
    refine ⟨rfl, ?_⟩
    rw [neg_lt_zero, lt_iff_le_and_ne, ← not_lt, ← hsign]
    simp [hx0.symm]

/-- The number of units below which `IsNearestEven` asks for a finite value. -/
theorem div_lt_overflow_iff (y : ℝ) : y / 2 ^ 1074 < 2 ^ 1024 - 2 ^ 970 ↔ y < overflowUnits := by
  rw [div_lt_iff₀ (by positivity), sub_mul, overflowUnits]

theorem isNearestEven_pack_false {y : ℝ} {m n : Nat} (h : RoundsTo y m n) :
    IsNearestEven (y / 2 ^ 1074) (pack false (min n infMag)) := by
  have hy : 0 ≤ y / 2 ^ 1074 := div_nonneg h.nonneg (by positivity)
  have hiff := (div_lt_overflow_iff y).trans h.lt_infMag_iff.symm
  rw [IsNearestEven, abs_of_nonneg hy]
  split
  case isTrue hx =>
    have hn := hiff.mp hx
    have hmag : magBits (pack false n) = n := magBits_pack false (lt_of_le_infMag hn.le)
    have hunits : (units (pack false n) : ℝ) = bitsUnits n := by
      rw [units_eq, magUnits_eq, hmag, msb_pack false (lt_of_le_infMag hn.le)]
      simp
    rw [Nat.min_eq_left hn.le]
    refine ⟨by rwa [finiteWord_iff, hmag], fun v _ => ?_, fun v _ hne htie => ?_⟩
    · rw [abs_wordValue_sub, abs_wordValue_sub, hunits]
      exact div_le_div_of_nonneg_right (h.nearest v) (by positivity)
    · rw [abs_wordValue_sub, abs_wordValue_sub, hunits, div_left_inj' (by positivity)] at htie
      rw [toNat_mod_two, hmag]
      refine h.even_of_tie v (fun heq => hne ?_) htie
      rw [wordValue, wordValue, show units v = units (pack false n) by exact_mod_cast heq.trans hunits.symm]
  case isFalse hx =>
    have hn := mt hiff.mpr hx
    rw [Nat.min_eq_right (Nat.le_of_not_lt hn), msb_pack false (lt_of_le_infMag le_rfl)]
    exact ⟨rfl, by simp, fun hneg => absurd hneg (not_lt.mpr hy)⟩

/-- A magnitude rounded to nearest, under either sign, is the nearest word. -/
theorem isNearestEven_pack {y : ℝ} {m n : Nat} (h : RoundsTo y m n) (neg : Bool) :
    IsNearestEven (signUnit neg * (y / 2 ^ 1074)) (pack neg (min n infMag)) := by
  cases neg with
  | false => simpa using isNearestEven_pack_false h
  | true =>
    have := isNearestEven_fneg (isNearestEven_pack_false h)
    rw [fneg_pack _ (lt_of_le_infMag (Nat.min_le_right _ _))] at this
    simpa using this

/-- The word made of a sign and `roundMag` is the word nearest to the signed quotient. -/
theorem isNearestEven_roundMag (neg : Bool) (p : Nat) {q : Nat} (hq : 0 < q) :
    IsNearestEven (signUnit neg * ((p : ℝ) / q / 2 ^ 1074)) (pack neg (roundMag p q)) := by
  obtain ⟨m, n, hr, heq⟩ := roundMag_roundsTo p hq
  rw [heq]
  exact isNearestEven_pack hr neg

end Sys2Proof.Machine

/-! ## The operations on finite words, and the statements of 00_scope.md -/

namespace Sys2Proof.Machine

section
variable {a b : Word}

/-! ### Sums and differences of finite words -/

theorem sumSign_mul_natAbs (a b : Word) :
    signUnit (sumSign a b) * ((units a + units b).natAbs : Int) = units a + units b := by
  rw [sumSign]
  generalize units a + units b = z
  obtain hz | rfl | hz := Int.lt_trichotomy z 0
  · rw [if_neg hz.ne, decide_eq_true hz, signUnit_true]
    omega
  · simp
  · rw [if_neg hz.ne', decide_eq_false hz.not_gt, signUnit_false]
    omega

theorem isNearestEven_fadd (ha : finiteWord a = true) (hb : finiteWord b = true) :
    IsNearestEven ((wordValue a + wordValue b : ℚ) : ℝ) (fadd a b) := by
  have hval : ((wordValue a + wordValue b : ℚ) : ℝ) =
      signUnit (sumSign a b) * ((units a + units b).natAbs / (1 : ℕ) / 2 ^ 1074) := by
    have hsum : (signUnit (sumSign a b) : ℝ) * ((units a + units b).natAbs : ℝ) = units a + units b := by
      have h := congrArg (Int.cast : Int → ℝ) (sumSign_mul_natAbs a b)
      rwa [Int.cast_mul, Int.cast_natCast, Int.cast_add] at h
    rw [Rat.cast_add, wordValue_cast, wordValue_cast, ← add_div, Nat.cast_one, div_one, ← mul_div_assoc, hsum]
  rw [fadd_finite ha hb, hval]
  exact isNearestEven_roundMag _ _ one_pos

theorem eq_minusZero_iff (w : Word) : w = 0x8000000000000000 ↔ w.msb = true ∧ magBits w = 0 :=
  ⟨by rintro rfl; decide, fun ⟨hs, hm⟩ => word_ext hs hm⟩

/-- An exact zero sum is +0, but -0 when both addends are. -/
theorem fadd_of_sum_zero (ha : finiteWord a = true) (hb : finiteWord b = true)
    (h : wordValue a + wordValue b = 0) : fadd a b =
      if a = 0x8000000000000000 ∧ b = 0x8000000000000000 then 0x8000000000000000 else 0x0000000000000000 := by
  have hz : units a + units b = 0 := by
    rw [wordValue, wordValue, ← add_div, div_eq_zero_iff] at h
    exact_mod_cast h.resolve_right (by positivity)
  have hminus : (a = 0x8000000000000000 ∧ b = 0x8000000000000000) ↔ (a.msb && b.msb) = true := by
    rw [eq_minusZero_iff, eq_minusZero_iff, Bool.and_eq_true]
    refine ⟨fun ⟨⟨hsa, _⟩, hsb, _⟩ => ⟨hsa, hsb⟩, fun ⟨hsa, hsb⟩ => ?_⟩
    rw [units_eq, units_eq, hsa, hsb, signUnit_true] at hz
    refine ⟨⟨hsa, ?_⟩, hsb, ?_⟩ <;> rw [← isZeroWord_iff, ← magUnits_eq_zero] <;> omega
  rw [fadd_finite ha hb, sumSign, if_pos hz, hz, if_congr hminus rfl rfl,
    show roundMag (Int.natAbs 0) 1 = 0 by decide]
  cases a.msb && b.msb <;> rfl

/-! ### Products and quotients of finite words -/

theorem wordValue_eq (w : Word) : (wordValue w : ℝ) = signUnit w.msb * (magUnits w / 2 ^ 1074) := by
  rw [wordValue_cast, units_eq, Int.cast_mul, Int.cast_natCast, mul_div_assoc]

theorem isNearestEven_fmul (ha : finiteWord a = true) (hb : finiteWord b = true) :
    IsNearestEven ((wordValue a * wordValue b : ℚ) : ℝ) (fmul a b) := by
  have hval : ((wordValue a * wordValue b : ℚ) : ℝ) = signUnit (a.msb ^^ b.msb) *
      ((magUnits a * magUnits b : ℕ) / (2 ^ 1074 : ℕ) / 2 ^ 1074) := by
    rw [Rat.cast_mul, wordValue_eq, wordValue_eq, signUnit_xor, Int.cast_mul, Nat.cast_mul, Nat.cast_pow,
      Nat.cast_ofNat]
    generalize (2 : ℝ) ^ 1074 = unit
    ring
  rw [fmul_finite ha hb, hval]
  exact isNearestEven_roundMag _ _ (by positivity)

theorem signUnit_xor_div (a b : Bool) : (signUnit (a ^^ b) : ℝ) = signUnit a / signUnit b := by
  cases a <;> cases b <;> simp

theorem isNearestEven_fdiv (ha : finiteWord a = true) (hb : finiteWord b = true)
    (h0 : isZeroWord b = false) :
    IsNearestEven ((wordValue a / wordValue b : ℚ) : ℝ) (fdiv a b) := by
  have hpos : 0 < magUnits b := Nat.pos_of_ne_zero (by rw [ne_eq, magUnits_eq_zero, h0]; decide)
  have hval : ((wordValue a / wordValue b : ℚ) : ℝ) = signUnit (a.msb ^^ b.msb) *
      ((magUnits a * 2 ^ 1074 : ℕ) / (magUnits b : ℕ) / 2 ^ 1074) := by
    have hmag : (magUnits b : ℝ) ≠ 0 := by exact_mod_cast hpos.ne'
    have hunit : (2 : ℝ) ^ 1074 ≠ 0 := by positivity
    rw [Rat.cast_div, wordValue_eq, wordValue_eq, signUnit_xor_div, mul_div_mul_comm, Nat.cast_mul,
      Nat.cast_pow, Nat.cast_ofNat, div_div_div_cancel_right₀ hunit, mul_div_right_comm,
      mul_div_cancel_right₀ _ hunit]
  rw [fdiv_finite ha hb h0, hval]
  exact isNearestEven_roundMag _ _ hpos

/-! ### Multiplying by +1.0 and -1.0 -/

/-- Multiplying by a word of magnitude 1.0 keeps the magnitude bits. -/
theorem fmul_one_magnitude {u x : Word} (hu : magBits u = 1022 * 2 ^ 52 + 2 ^ 52) (hx : isNaN x = false) :
    fmul u x = pack (u.msb ^^ x.msb) (magBits x) := by
  have hunits : magUnits u = 2 ^ 1074 := by
    rw [magUnits_eq, hu, bitsUnits_significand (.inr le_rfl) (by norm_num), ← pow_add]
  have hfin : finiteWord u = true := by rw [finiteWord_iff, hu]; decide
  obtain hn | hinf | hfx := word_cases x
  · simp [hx] at hn
  · have h0 : isZeroWord u = false := by rw [Bool.eq_false_iff, ne_eq, isZeroWord_iff, hu]; decide
    rw [fmul_finite_inf hfin hinf, h0, if_neg Bool.false_ne_true, xorInf_eq_pack, (isInf_iff x).mp hinf]
  · rw [fmul_finite hfin hfx, hunits, roundMag_exact (Nat.two_pow_pos _) (by rw [magUnits_eq, Nat.mul_comm]),
      Nat.min_eq_left ((finiteWord_iff x).mp hfx).le]

end

/-! ### Steps -/

/-- Drawing the next turn keeps a next state a next state. -/
theorem settleOutcome_next {o : Host.Outcome State Fault Refusal} (h : ∃ t, o = .next t) :
    ∃ t, settleOutcome o = .next t := by
  obtain ⟨t, rfl⟩ := h
  exact ⟨t.settle, rfl⟩

/-! ### The obligations -/

/-- Settles O38: a difference is the sum with the second operand's sign flipped. -/
theorem addAndSubAreRounded : Obligations.AddAndSubAreRounded := by
  intro a b ha hb
  have hb' : finiteWord (fneg b) = true := by rwa [finiteWord_fneg]
  have hsub : wordValue a - wordValue b = wordValue a + wordValue (fneg b) := by
    rw [wordValue_fneg, sub_eq_add_neg]
  have hzero : fneg b = 0x8000000000000000 ↔ b = 0x0000000000000000 :=
    ⟨fun h => by rw [← fneg_fneg b, h]; rfl, by rintro rfl; rfl⟩
  rw [hsub, fsub]
  exact ⟨isNearestEven_fadd ha hb, isNearestEven_fadd ha hb', fadd_of_sum_zero ha hb,
    by simpa only [hzero] using fadd_of_sum_zero ha hb'⟩

/-- Settles O39: the exact quotient of magnitudes is rounded once, under the XOR of the signs. -/
theorem mulAndDivAreRounded : Obligations.MulAndDivAreRounded := by
  intro a b ha hb
  refine ⟨isNearestEven_fmul ha hb, ?_, fun hb0 => ?_⟩
  · rw [fmul_finite ha hb, msb_pack _ (lt_of_le_infMag (roundMag_le _ _))]
  · have h0 : isZeroWord b = false := by
      rw [Bool.eq_false_iff, ne_eq, ← units_eq_zero]
      exact fun hu => hb0 (by rw [wordValue, hu, Int.cast_zero, zero_div])
    refine ⟨isNearestEven_fdiv ha hb h0, ?_⟩
    rw [fdiv_finite ha hb h0, msb_pack _ (lt_of_le_infMag (roundMag_le _ _))]

/-- Settles O41: a product by a word of magnitude 1.0 is exact, so only the sign can change. -/
theorem directionMultiply : Obligations.DirectionMultiply := by
  refine fun x => ⟨fun hx => ⟨?_, ?_⟩, fun hx => ⟨fmul_of_isNaN (.inr hx), fmul_of_isNaN (.inr hx)⟩⟩
  · rw [fmul_one_magnitude (by decide) hx, show (0x3FF0000000000000 : Word).msb = false by decide,
      Bool.false_xor, pack_msb_magBits]
  · rw [fmul_one_magnitude (by decide) hx, show (0xBFF0000000000000 : Word).msb = true by decide,
      Bool.true_xor, ← fneg_pack _ (magBits_lt x), pack_msb_magBits, fneg]

/-- Settles O40: each operation is CNAN with a NaN operand, and otherwise exactly in its own case. -/
theorem nanResultsAreCanonical : Obligations.NanResultsAreCanonical := by
  intro a b
  refine ⟨?_, fun ha hb => ⟨(fadd_cnanExactlyIf ha hb).isNaN_iff, (fsub_cnanExactlyIf ha hb).isNaN_iff,
    (fmul_cnanExactlyIf ha hb).isNaN_iff, (fdiv_cnanExactlyIf ha hb).isNaN_iff⟩⟩
  simp only [List.forall_mem_cons, List.not_mem_nil, false_imp_iff, implies_true, and_true]
  exact ⟨⟨fadd_of_isNaN, eq_cnan_of_isNaN fadd_of_isNaN fadd_cnanExactlyIf⟩,
    ⟨fsub_of_isNaN, eq_cnan_of_isNaN fsub_of_isNaN fsub_cnanExactlyIf⟩,
    ⟨fmul_of_isNaN, eq_cnan_of_isNaN fmul_of_isNaN fmul_cnanExactlyIf⟩,
    ⟨fdiv_of_isNaN, eq_cnan_of_isNaN fdiv_of_isNaN fdiv_cnanExactlyIf⟩⟩

/-- Settles O58: the class of each operand picks the equation of the operation. -/
theorem infiniteOperandResults : Obligations.InfiniteOperandResults := by
  refine ⟨fun a b ha hb => ?_, fun a b ha hb => ?_, fun a b => fdiv_zero⟩
  · exact ⟨fadd_inf_inf ha hb, fsub_inf_inf ha hb, fmul_inf_inf ha hb, fdiv_inf_inf ha hb⟩
  · exact ⟨fadd_inf_finite ha hb, fadd_finite_inf hb ha, fsub_inf_finite ha hb, fsub_finite_inf hb ha,
      fmul_inf_finite ha hb, xorInf_comm b a ▸ fmul_finite_inf hb ha, fdiv_inf_finite ha hb,
      xorZero_comm b a ▸ fdiv_finite_inf hb ha⟩

/-- Settles O7: serving an input and completing a command both answer a next state. -/
theorem everyStepAnswersNext : Obligations.EveryStepAnswersNext := by
  intro s
  rw [step]
  cases s.move with
  | rest => exact ⟨s, rfl⟩
  | host i waiting => exact settleOutcome_next (serve_next i _)
  | engine c => exact settleOutcome_next (exec_next c.instr _)

end Sys2Proof.Machine

/-! ## The inversion of a host step: what serving one input can do (20_memory.md R44, R52 to R54) -/

namespace Sys2Proof.Machine

/-- What serving an input at the host's turn can leave (`served_of_serve`). `unnoticed` is every access that
leaves only a response, a free-value draw, OVERRUN or HAZARD: reads, refused and ignored writes, and a command
discarded while busy. -/
inductive Served (s : State) : Input → State → Prop
  | unnoticed (i : Input) {u : State} (h : u = { s with
      overrun := u.overrun, hazard := u.hazard, replies := u.replies, readDraws := u.readDraws }) : Served s i u
  | powerOn : Served s .powerOn s.powerOn
  | ctrl (w : Word) : Served s (.write (s.build.base + 0x08) 8 w) ((s.reply .okay).writeCtrl w)
  | status (w : Word) : Served s (.write (s.build.base + 0x10) 8 w) ((s.reply .okay).writeStatus w)
  | arg (w : Word) : Served s (.write (s.build.base + 0x18) 8 w) ((s.reply .okay).writeArg w)
  | rejected (w : Word) (op : BitVec 8) {c : ErrCode} (hidle : s.seq = .idle) (hc : c ≠ .none) :
      Served s (issueInput s.build w) (((s.reply .okay).beginCheck op).raiseError c)
  | nop (w : Word) (op : BitVec 8) (hidle : s.seq = .idle) :
      Served s (issueInput s.build w) { (s.reply .okay).beginCheck op with done := true }
  | runs (w : Word) {i : Instr} {op : Op} (hidle : s.seq = .idle) (herr : acceptError i s = none)
      (hop : opOf i = some op) : Served s (issueInput s.build w)
        { (s.reply .okay).beginCheck i.opcode with seq := .running (ctxOf op i s) }
  | bank (k i : Nat) (v : Word) (hidle : s.seq = .idle) (hk : k < s.build.nbuf) (hi : i < 2 * s.build.nmax) :
      Served s (.write (s.build.base + bankAddr s.build k i) 8 v) ((s.reply .okay).storeBank k i [some v])

section
variable {s u : State}

/-- Every acceptance check that fails reports an error. -/
theorem acceptError_ne_some_none (i : Instr) (s : State) : acceptError i s ≠ some .none := by
  rw [acceptError]
  repeat' split
  all_goals simp

theorem served_memRead (i : Input) (a : Nat) : Served s i (s.memRead a) := by
  refine .unnoticed i ?_
  rw [State.memRead]
  split
  case h_1 => rfl
  case h_4 => split; exacts [rfl, by rw [State.readBank]; split <;> rfl]
  case h_5 => rfl
  all_goals split <;> rfl

/-- A data-window write while busy is refused, and a table write is ignored. -/
theorem served_refusedWrite (i : Input) : Served s i
    (if (s.reply .okay).busy then (s.reply .okay).setHazard else s.reply .okay) := by
  refine .unnoticed i ?_
  split <;> rfl

theorem served_issue (w : Word) (i : Instr) : Served s (issueInput s.build w) ((s.reply .okay).issue i) := by
  rw [State.issue]
  split
  case isTrue => exact .unnoticed _ rfl
  case isFalse hb =>
    have hidle : s.seq = .idle := State.busy_eq_false.mp (Bool.eq_false_of_not_eq_true hb)
    cases he : acceptError i (s.reply .okay) with
    | some c =>
      rw [State.accept_error he]
      exact .rejected w _ hidle fun hc => acceptError_ne_some_none i _ (hc ▸ he)
    | none =>
      cases ho : opOf i with
      | none => simpa [State.accept, he, ho] using Served.nop w i.opcode hidle
      | some op =>
        rw [State.accept_runs he ho]
        exact .runs w hidle he ho

theorem served_issueIllegal (v w : Word) :
    Served s (issueInput s.build v) ((s.reply .okay).issueIllegal w) := by
  rw [State.issueIllegal]
  split
  case isTrue => exact .unnoticed _ rfl
  case isFalse hb => exact .rejected v _ (State.busy_eq_false.mp (Bool.eq_false_of_not_eq_true hb)) (by decide)

theorem served_writeCmd {w : Word} (ht : s.turn = .host) (h : writeCmd w (s.reply .okay) = .next u) :
    Served s (issueInput s.build w) u := by
  rw [writeCmd] at h
  split at h
  case h_1 i _ =>
    rw [exec_host i (by simpa using ht)] at h
    cases h
    exact served_issue w i
  case h_2 =>
    cases h
    exact served_issueIllegal w w

theorem served_writeRegister {a : Nat} {v : Word} (ht : s.turn = .host)
    (h : writeRegister a v (s.reply .okay) = .next u) : Served s (.write (s.build.base + a) 8 v) u := by
  rw [writeRegister.eq_def] at h
  split at h
  case h_4 => exact served_writeCmd ht h
  all_goals cases h
  · exact .ctrl v
  · exact .status v
  · exact .arg v
  · exact .unnoticed _ rfl

theorem served_memWrite {a : Nat} {v : Word} (ht : s.turn = .host) (h8 : a % 8 = 0)
    (h : memWrite a v (s.reply .okay) = .next u) : Served s (.write (s.build.base + a) 8 v) u := by
  rw [memWrite] at h
  split at h
  case h_1 r hw =>
    obtain ⟨rfl, -⟩ := windowOf_eq_register hw
    exact served_writeRegister ht h
  case h_4 k i hw =>
    obtain ⟨rfl, hk, hi⟩ := windowOf_eq_bank hw h8
    cases h
    split
    case isTrue => exact .unnoticed _ rfl
    case isFalse hb => exact .bank k i v (State.busy_eq_false.mp (Bool.eq_false_of_not_eq_true hb)) hk hi
  case h_5 =>
    cases h
    exact .unnoticed _ rfl
  all_goals
    cases h
    exact served_refusedWrite _

/-- The inversion of `serve` at the host's turn. -/
theorem served_of_serve {i : Input} (ht : s.turn = .host) (h : serve i s = .next u) : Served s i u := by
  cases i with
  | powerOn => cases h; exact .powerOn
  | read addr size =>
    rw [serve] at h
    split at h <;> cases h
    · exact .unnoticed _ rfl
    · exact .unnoticed _ rfl
    · exact served_memRead _ _
  | write addr size v =>
    rw [serve] at h
    split at h
    case h_3 a hp =>
      obtain ⟨rfl, rfl, h8, -⟩ := placeOf_eq_word hp
      exact served_memWrite ht h8 h
    all_goals
      cases h
      exact .unnoticed _ rfl

/-- The inversion of a step: nothing to do, the oldest input served, or the running command completed. -/
theorem step_served (h : step s = .next u) : u = s ∨
    (∃ i rest v, s.inputs = i :: rest ∧ Served (s.atHost rest) i v ∧ u = v.settle) ∨
    (∃ c, s.seq = .running c ∧ u = (bodyOf c.instr c s.atEngine).finish.settle) := by
  obtain ⟨-, -, rfl⟩ | ⟨i, rest, v, hin, -, hv, rfl⟩ | ⟨c, hc, -, rfl⟩ := step_cases h
  · exact .inl rfl
  · exact .inr (.inl ⟨i, rest, v, hin, served_of_serve rfl hv, rfl⟩)
  · exact .inr (.inr ⟨c, hc, rfl⟩)

end

end Sys2Proof.Machine

/-! ## Acceptance makes legal contexts (40_plan_and_control.md R74, 60_exceptions.md R111) -/

namespace Sys2Proof.Machine

section
variable {s : State}

/-- Every acceptance check of R111 passed. -/
theorem acceptError_eq_none {i : Instr} (h : acceptError i s = none) :
    (needsPlan i = true → s.pv = true) ∧ (∀ d, dstOf i = some d → d < s.build.nbuf) ∧
    (∀ x, srcOf i = some x → x < s.build.nbuf) ∧ (isTransform i = true → dstOf i ≠ srcOf i) ∧
    (i = .plan → validSize s.arg = true ∧ s.arg.toInt ≤ s.build.nmax) := by
  rw [acceptError] at h
  repeat' split at h
  all_goals simp_all [sizeOperand, Option.any_eq_false]

/-- A 32-bit pattern that `valid_size` admits is a power of two above 1 (R74). -/
theorem exists_two_pow_of_validSize {a : BitVec 32} (h : validSize a = true) :
    ∃ p, 1 ≤ p ∧ a.toInt = (2 ^ p : Nat) := by
  simp only [validSize, Bool.and_eq_true, decide_eq_true_eq, beq_iff_eq] at h
  obtain ⟨hgt, hand⟩ := h
  have hnat : a.toInt = a.toNat := by
    rw [BitVec.toInt_eq_toNat_cond] at hgt ⊢
    split <;> omega
  have hpred : (a - 1).toNat = a.toNat - 1 := by bv_omega
  have hpow : a.toNat &&& a.toNat - 1 = 0 := by
    rw [← hpred, ← BitVec.toNat_and, hand]
    rfl
  obtain ⟨p, hp⟩ := (Nat.and_sub_one_eq_zero_iff_isPowerOfTwo (by omega)).mp hpow
  refine ⟨p, ?_, by rw [hnat, hp]⟩
  cases p <;> omega

/-- PLAN is accepted with a legal size only (R9, R74, R111). -/
theorem legalSize_of_validSize {b : Build} {a : BitVec 32} (h : validSize a = true)
    (hmax : a.toInt ≤ b.nmax) : legalSize b a.toInt.toNat := by
  obtain ⟨p, hp, ha⟩ := exists_two_pow_of_validSize h
  rw [ha] at hmax ⊢
  rw [Int.toNat_natCast, legalSize, power_two_pow]
  exact ⟨rfl, hp, (Nat.pow_le_pow_iff_right Nat.one_lt_two).mp (by exact_mod_cast hmax)⟩

/-- The context of an accepted command is legal. -/
theorem ctxOf_legal (hb : s.build.Legal) {i : Instr} {op : Op} (herr : acceptError i s = none)
    (hop : opOf i = some op) : (ctxOf op i s).Legal s.build s.pv := by
  obtain ⟨hplan, hdst, hsrc, hne, hsize⟩ := acceptError_eq_none herr
  have hnbuf : 0 < s.build.nbuf := by obtain ⟨-, -, h, -⟩ := hb; omega
  cases i
  case nop => cases hop
  case plan =>
    cases hop
    obtain ⟨hvalid, hmax⟩ := hsize rfl
    exact ⟨by simp [ctxOf], fun _ => legalSize_of_validSize hvalid hmax, fun hn => absurd rfl hn,
      fun ht => nomatch ht⟩
  all_goals
    cases hop
    simp_all [Ctx.Legal, ctxOf, dstOf, srcOf, needsPlan, isTransform, Ctx.instr]

end

end Sys2Proof.Machine

/-! ## The invariant, one lemma for each operation (10_state.md R30, R35, R38, R40) -/

namespace Sys2Proof.Machine

theorem writeSpan_bank (c : Ctx) (n : Nat) : (writeSpan c n).bank = c.dst := by
  cases hc : c.op <;> simp [writeSpan, hc]

theorem writeSpan_plan {c : Ctx} (hop : c.op = .plan) (n : Nat) : (writeSpan c n).len = 0 := by
  simp [writeSpan, hop]

theorem bodyOf_plan {c : Ctx} (hop : c.op = .plan) (s : State) : bodyOf c.instr c s = planBody c s := by
  simp [Ctx.instr, hop, bodyOf]

/-- An abort stores missing words over exactly the command's write footprint (R123). -/
theorem State.abortWrites_running {s : State} {c : Ctx} (hc : s.seq = .running c) : s.abortWrites =
    s.storeBank c.dst (writeSpan c s.pn).lo (List.replicate (writeSpan c s.pn).len none) := by
  simp [State.abortWrites, hc, writeSpan_bank]

/-- Storing no word changes nothing. -/
theorem Memory.storeWords_nil {m : Memory} (h : m.wf) (a : Nat) : m.storeWords a [] = m :=
  Memory.eq_of_readByte (Memory.storeWords_wf h a []) h fun x => by
    rw [Memory.readByte_storeWords, List.length_nil, if_neg (by omega)]

theorem inv_resetOf {b : Build} (h : b.Legal) : (State.resetOf b).Inv where
  buildLegal := h
  memWf := List.Pairwise.nil
  memInBanks := fun _ hc => nomatch hc
  busyNoOutcome := fun hb => nomatch hb
  errHasCode := ⟨fun _ => rfl, fun _ => rfl⟩
  planStore := .inl ⟨rfl, rfl⟩
  context := fun _ hc => nomatch hc

/-- One step of a run. -/
theorem run_succ {s u : State} (h : step s = .next u) (k : Nat) :
    Host.Core.run Sys2Proof.core (k + 1) s = Host.Core.run Sys2Proof.core k u := by
  have hcore : Sys2Proof.core.step s = .next u := h
  simp only [Host.Core.run, hcore]

namespace State.Inv

section
variable {s : State} {c : Ctx}

theorem plan_legal (h : s.Inv) (hpv : s.pv = true) : legalSize s.build s.pn := by
  simpa [hpv] using h.planStore

/-- Words stored inside one bank. -/
theorem storeBank (h : s.Inv) {k lo : Nat} {ws : List (Option Word)} (hk : k < s.build.nbuf)
    (hlo : lo + ws.length ≤ 2 * s.build.nmax) : (s.storeBank k lo ws).Inv :=
  { h with
    memWf := Memory.storeWords_wf h.memWf _ ws
    memInBanks := h.memInBanks.storeWords hk hlo }

/-- Words stored over the running command's write footprint. -/
theorem storeSpan (h : s.Inv) (hc : s.seq = .running c) {ws : List (Option Word)}
    (hlen : ws.length = (writeSpan c s.pn).len) : (s.storeBank c.dst (writeSpan c s.pn).lo ws).Inv := by
  by_cases hop : c.op = .plan
  · rw [writeSpan_plan hop, List.length_eq_zero_iff] at hlen
    rw [hlen, State.storeBank, Memory.storeWords_nil h.memWf]
    exact h
  · obtain ⟨-, -, hrun, -⟩ := h.context c hc
    obtain ⟨hpv, hdst, -⟩ := hrun hop
    exact h.storeBank hdst (hlen ▸ (writeSpan_fits c (h.plan_legal hpv)).2)

theorem abortWrites (h : s.Inv) : s.abortWrites.Inv := by
  cases hq : s.seq with
  | idle => rwa [State.abortWrites_idle hq]
  | running c =>
    rw [State.abortWrites_running hq]
    exact h.storeSpan hq List.length_replicate

theorem softReset (h : s.Inv) : s.softReset.Inv := by
  have hb : s.abortWrites.build = s.build := by rw [State.abortWrites_frame]
  rw [State.softReset_frame]
  exact { inv_resetOf h.buildLegal with
    memWf := h.abortWrites.memWf
    memInBanks := hb ▸ h.abortWrites.memInBanks }

theorem writeCtrl (h : s.Inv) (w : Word) : (s.writeCtrl w).Inv := by
  rw [State.writeCtrl]
  split
  case isTrue => exact h.softReset
  case isFalse => exact { h with }

theorem writeStatus (h : s.Inv) (w : Word) : (s.writeStatus w).Inv :=
  { h with
    busyNoOutcome := fun hb => by
      obtain ⟨hd, he⟩ := h.busyNoOutcome hb
      simp [State.writeStatus, hd, he]
    errHasCode := by
      have hcode := h.errHasCode
      simp only [State.writeStatus]
      cases w.getLsbD 2 <;> simp [hcode] }

/-- The end of an acceptance that runs nothing (R111, R113). -/
theorem accepted (h : s.Inv) (hidle : s.seq = .idle) {t : State} (ht : t = { s with
    done := t.done, err := t.err, errcode := t.errcode, lastop := t.lastop, replies := t.replies })
    (herr : t.err = false ↔ t.errcode = .none) : t.Inv := by
  rw [ht]
  exact { h with
    busyNoOutcome := fun hb => absurd hb (by rw [Bool.not_eq_true]; exact State.busy_idle hidle)
    errHasCode := herr }

/-- Every input served at the host's turn. -/
theorem served (h : s.Inv) {i : Input} {u : State} (hu : Served s i u) : u.Inv := by
  have hr : (s.reply .okay).Inv := { h with }
  cases hu with
  | unnoticed i hu => rw [hu]; exact { h with }
  | powerOn => exact { inv_resetOf h.buildLegal with }
  | ctrl w => exact hr.writeCtrl w
  | status w => exact hr.writeStatus w
  | arg w => exact { h with }
  | rejected w op hidle hc => exact h.accepted hidle rfl (by simpa using hc)
  | nop w op hidle => exact h.accepted hidle rfl (by simp)
  | runs w hidle herr hop =>
    exact { h with
      busyNoOutcome := fun _ => ⟨rfl, rfl⟩
      errHasCode := by simp
      context := fun c hc => by cases hc; exact ctxOf_legal h.buildLegal herr hop }
  | bank k i v hidle hk hi => exact hr.storeBank hk (by simpa using hi)

/-- The pseudocode of the running command (R57, R75, R125). -/
theorem body (h : s.Inv) (hc : s.seq = .running c) : (bodyOf c.instr c s).Inv := by
  obtain ⟨hdir, hsize, hrun, hne⟩ := h.context c hc
  by_cases hop : c.op = .plan
  · rw [bodyOf_plan hop]
    exact { h with
      planStore := .inr ⟨rfl, hsize hop⟩
      context := fun c' hc' => by
        cases hc.symm.trans hc'
        exact ⟨hdir, hsize, fun hn => absurd hop hn, hne⟩ }
  · obtain ⟨ws, hws, hlen⟩ := bodyOf_stores hop (h.plan_legal (hrun hop).1)
    rw [hws]
    exact h.storeSpan hc hlen

theorem finish (h : s.Inv) : s.finish.Inv :=
  { h with
    busyNoOutcome := fun hb => nomatch hb
    context := fun _ hc => nomatch hc }

theorem step (h : s.Inv) {t : State} (ht : step s = .next t) : t.Inv := by
  obtain rfl | ⟨i, rest, u, -, hu, rfl⟩ | ⟨c, hc, rfl⟩ := step_served ht
  · exact h
  · have hat : (s.atHost rest).Inv := { h with }
    exact { hat.served hu with }
  · have hat : s.atEngine.Inv := { h with }
    exact { (hat.body hc).finish with }

/-- The invariant holds of every state a run from it reaches. -/
theorem run (h : s.Inv) {k : Nat} {t : State} (ht : Host.Core.run Sys2Proof.core k s = .next t) : t.Inv := by
  induction k generalizing s with
  | zero => cases ht; exact h
  | succ k ih =>
    obtain ⟨u, hu⟩ := everyStepAnswersNext s
    exact ih (h.step hu) (run_succ hu k ▸ ht)

end

end State.Inv

/-- Settles O11: one lemma for each kind of step. -/
theorem stepKeepsTheInvariant : Obligations.StepKeepsTheInvariant := fun _ _ h ht => h.step ht

/-- Settles O10: the default parameters are legal, and reset empties everything else. -/
theorem resetMeetsTheInvariant : Obligations.ResetMeetsTheInvariant := inv_resetOf (by decide)

end Sys2Proof.Machine

/-! ## What can change the parameters, the plan store, irq and the banks (10_state.md R26, R35, R39, R42) -/

namespace Sys2Proof.Machine

section
variable {s u : State}

/-! ### The frames of the operations -/

theorem bodyOf_build (i : Instr) (c : Ctx) (s : State) : (bodyOf i c s).build = s.build := by rw [bodyOf_frame]

theorem bodyOf_irqEn (i : Instr) (c : Ctx) (s : State) : (bodyOf i c s).irqEn = s.irqEn := by rw [bodyOf_frame]

theorem transform_stores (c : Ctx) (s : State) (n : Nat) (f : List Word → List Word) :
    ∃ ws, transform c s n f = s.storeBank c.dst 0 ws := by
  cases h : allSome (s.snapshot c.src n) with
  | none => exact ⟨_, transform_none h⟩
  | some X => exact ⟨_, transform_some h⟩

/-- Only PLAN's pseudocode writes the plan store (R75); every other stores bank words, in every state. -/
theorem bodyOf_plan_store {c : Ctx} (hop : c.op ≠ .plan) (s : State) :
    (bodyOf c.instr c s).pv = s.pv ∧ (bodyOf c.instr c s).pn = s.pn := by
  have htr : ∀ n f, (transform c s n f).pv = s.pv ∧ (transform c s n f).pn = s.pn := fun n f => by
    obtain ⟨ws, hws⟩ := transform_stores c s n f
    rw [hws]
    exact ⟨rfl, rfl⟩
  cases hc : c.op <;> simp only [Ctx.instr, hc, bodyOf]
  case plan => exact absurd hc hop
  case fwd => exact htr _ _
  case inv => exact htr _ _
  case rfwd => exact htr _ _
  all_goals exact ⟨rfl, rfl⟩

theorem State.softReset_build (s : State) : s.softReset.build = s.build := by
  rw [State.softReset_frame]
  rfl

/-- A CTRL write with bit 1 = 0 (R27). -/
theorem State.writeCtrl_irqEn {w : Word} (h : w.getLsbD 1 = false) (s : State) :
    s.writeCtrl w = { s with irqEn := w.getLsbD 0 } := by
  rw [State.writeCtrl, h, if_neg Bool.false_ne_true]

/-- A CTRL write with bit 1 = 1 (R27). -/
theorem State.writeCtrl_reset {w : Word} (h : w.getLsbD 1 = true) (s : State) :
    s.writeCtrl w = s.softReset := if_pos h

theorem getLsbD_one_iff (w : Word) : w.getLsbD 1 = true ↔ w.toNat / 2 % 2 = 1 := by
  simpa using getLsbD_eq_true_iff w 1

theorem getLsbD_zero_iff (w : Word) : w.getLsbD 0 = true ↔ w.toNat % 2 = 1 := by
  simpa using getLsbD_eq_true_iff w 0

/-! ### The parameters -/

theorem Served.build_eq {i : Input} (h : Served s i u) : u.build = s.build := by
  cases h with
  | unnoticed i h => rw [h]
  | ctrl w =>
    rw [State.writeCtrl]
    split
    case isTrue => exact State.softReset_build _
    case isFalse => rfl
  | _ => rfl

theorem step_build {t : State} (h : step s = .next t) : t.build = s.build := by
  obtain rfl | ⟨i, rest, u, -, hu, rfl⟩ | ⟨c, -, rfl⟩ := step_served h
  · rfl
  · exact hu.build_eq
  · exact bodyOf_build c.instr c s.atEngine

/-! ### The plan store -/

/-- An input that changes the plan store resets it: power-on, or a CTRL write with bit 1 = 1. -/
theorem Served.plan_store {i : Input} (h : Served s i u) (hne : u.pv ≠ s.pv ∨ u.pn ≠ s.pn) :
    (i = .powerOn ∨ ∃ w, i = .write (s.build.base + 0x08) 8 w ∧ w.toNat / 2 % 2 = 1) ∧
      u.pv = false ∧ u.pn = 0 := by
  cases h with
  | unnoticed i h => rw [h] at hne; simp at hne
  | powerOn => exact ⟨.inl rfl, rfl, rfl⟩
  | ctrl w =>
    cases hw : w.getLsbD 1 with
    | true =>
      rw [State.writeCtrl_reset hw]
      exact ⟨.inr ⟨w, rfl, (getLsbD_one_iff w).mp hw⟩, rfl, rfl⟩
    | false => rw [State.writeCtrl_irqEn hw] at hne; simp at hne
  | status w => simp [State.writeStatus] at hne
  | _ => simp at hne

/-! ### irq -/

/-- An input that takes irq from 1 to 0 (R42, R115). -/
theorem Served.irq_falls {i : Input} (h : Served s i u) (hs : s.irq = true) (hu : u.irq = false) :
    (∃ w, i = .write (s.build.base + 0x10) 8 w ∧ w.toNat / 2 % 2 = 1) ∨
    (∃ w c, i = issueInput s.build w ∧ s.seq = .idle ∧ u.seq = .running c) ∨
    (∃ w, i = .write (s.build.base + 0x08) 8 w ∧ (w.toNat / 2 % 2 = 1 ∨ w.toNat % 2 = 0)) ∨
    i = .powerOn := by
  rw [State.irq, Bool.and_eq_true] at hs
  obtain ⟨hen, hdone⟩ := hs
  cases h with
  | unnoticed i h => rw [h, State.irq] at hu; simp [hen, hdone] at hu
  | powerOn => exact .inr (.inr (.inr rfl))
  | ctrl w =>
    refine .inr (.inr (.inl ⟨w, rfl, ?_⟩))
    rw [← getLsbD_one_iff, or_iff_not_imp_left, Bool.not_eq_true]
    intro hw
    rw [State.writeCtrl_irqEn hw, State.irq] at hu
    have h0 : ¬ w.toNat % 2 = 1 := by
      rw [← getLsbD_zero_iff]
      simpa [hdone] using hu
    omega
  | status w =>
    refine .inl ⟨w, rfl, ?_⟩
    rw [← getLsbD_one_iff]
    simpa [State.irq, State.writeStatus, hen, hdone] using hu
  | runs w hidle herr hop => exact .inr (.inl ⟨w, _, rfl, hidle, rfl⟩)
  | _ => simp [State.irq, hen, hdone] at hu

/-! ### The banks -/

/-- A byte that a run of words stored in a bank changes lies in the run. -/
theorem State.span_of_storeBank {k lo a : Nat} {ws : List (Option Word)}
    (h : (s.storeBank k lo ws).mem.readByte a ≠ s.mem.readByte a) :
    bankAddr s.build k lo ≤ a ∧ a < bankAddr s.build k (lo + ws.length) := by
  by_contra hn
  exact h (State.readByte_storeBank_outside s k lo ws a (by omega))

/-- The byte lies in the write footprint of the context under the plan store of `s` (R125). -/
def InWriteSpan (s : State) (c : Ctx) (a : Nat) : Prop :=
  bankAddr s.build c.dst (writeSpan c s.pn).lo ≤ a ∧
  a < bankAddr s.build c.dst ((writeSpan c s.pn).lo + (writeSpan c s.pn).len)

/-- An abort changes only the running command's write footprint (R123). -/
theorem State.inWriteSpan_of_softReset {a : Nat} (h : s.softReset.mem.readByte a ≠ s.mem.readByte a) :
    ∃ c, s.seq = .running c ∧ InWriteSpan s c a := by
  rw [State.softReset_mem] at h
  cases hq : s.seq with
  | idle => rw [State.abortWrites_idle hq] at h; exact absurd rfl h
  | running c =>
    rw [State.abortWrites_running hq] at h
    exact ⟨c, rfl, by simpa [InWriteSpan] using State.span_of_storeBank h⟩

/-- A completion changes only the command's write footprint (R57, R125). -/
theorem inWriteSpan_of_bodyOf {c : Ctx} {a : Nat} (hn : c.op ≠ .plan → legalSize s.build s.pn)
    (h : (bodyOf c.instr c s).mem.readByte a ≠ s.mem.readByte a) : InWriteSpan s c a := by
  by_cases hop : c.op = .plan
  · rw [bodyOf_plan hop] at h
    exact absurd rfl h
  · obtain ⟨ws, hws, hlen⟩ := bodyOf_stores hop (hn hop)
    rw [hws] at h
    simpa [InWriteSpan, hlen] using State.span_of_storeBank h

/-- An input that changes a byte of a bank: a soft reset, a bank write while idle, or power-on. -/
theorem Served.bank_byte {i : Input} {a : Nat} (h : Served s i u)
    (hne : u.mem.readByte a ≠ s.mem.readByte a) :
    (∃ c, s.seq = .running c ∧ u.seq = .idle ∧ InWriteSpan s c a) ∨
    (∃ b k v, s.seq = .idle ∧ i = .write (s.build.base + bankAddr s.build b k) 8 v ∧
      b < s.build.nbuf ∧ k < 2 * s.build.nmax ∧ bankAddr s.build b k ≤ a ∧ a < bankAddr s.build b k + 8) ∨
    i = .powerOn := by
  cases h with
  | unnoticed i h => rw [h] at hne; exact absurd rfl hne
  | powerOn => exact .inr (.inr rfl)
  | ctrl w =>
    cases hw : w.getLsbD 1 with
    | true =>
      rw [State.writeCtrl_reset hw] at hne ⊢
      obtain ⟨c, hc, hspan⟩ := State.inWriteSpan_of_softReset (s := s.reply .okay) hne
      exact .inl ⟨c, hc, rfl, hspan⟩
    | false => rw [State.writeCtrl_irqEn hw] at hne; exact absurd rfl hne
  | bank b k v hidle hb hk =>
    have hspan := State.span_of_storeBank (s := s.reply .okay) hne
    exact .inr (.inl ⟨b, k, v, hidle, rfl, hb, hk, by simpa [bankAddr_add] using hspan⟩)
  | _ => exact absurd rfl hne

end

end Sys2Proof.Machine

/-! ## The register block as numbers (10_state.md R24 to R34), and the register writes (20_memory.md R53) -/

namespace Sys2Proof.Machine

theorem toNat_append_add {m n : Nat} (x : BitVec m) (y : BitVec n) :
    (x ++ y).toNat = x.toNat * 2 ^ n + y.toNat := by
  rw [BitVec.toNat_append, ← Nat.shiftLeft_add_eq_or_of_lt y.isLt, Nat.shiftLeft_eq]

@[simp] theorem ErrCode.code_toNat (c : ErrCode) : c.code.toNat = errCodeNumber c := by cases c <;> rfl

section
variable {s : State}

theorem idReg_toNat (hb : s.build.Legal) :
    s.idReg.toNat = 0xFF7E + 2 ^ 16 * 0x01 + 2 ^ 24 * s.build.log2Nmax + 2 ^ 32 * s.build.nbuf := by
  obtain ⟨-, hlog, -, hnbuf, -⟩ := hb
  simp only [State.idReg, toNat_append_add, BitVec.toNat_ofNat]
  omega

theorem ctrlReg_toNat (s : State) : s.ctrlReg.toNat = s.irqEn.toNat := by
  rw [State.ctrlReg, toNat_append_add, BitVec.toNat_ofBool, BitVec.toNat_ofNat]
  omega

theorem statusReg_toNat (s : State) : s.statusReg.toNat =
    s.busy.toNat + 2 * s.done.toNat + 2 ^ 2 * s.err.toNat + 2 ^ 3 * s.pv.toNat + 2 ^ 4 * s.overrun.toNat
      + 2 ^ 5 * s.hazard.toNat + 2 ^ 8 * errCodeNumber s.errcode + 2 ^ 16 * s.lastop.toNat := by
  simp only [State.statusReg, toNat_append_add, BitVec.toNat_ofNat, BitVec.toNat_ofBool, ErrCode.code_toNat]
  ring

theorem argReg_toNat (s : State) : s.argReg.toNat = s.arg.toNat := by
  rw [State.argReg, toNat_append_add, BitVec.toNat_ofNat]
  omega

theorem planNReg_toNat {p : Nat} (hp : p ≤ 24) (hpv : s.pv = true) (hpn : s.pn = 2 ^ p) :
    s.planNReg.toNat = 2 ^ p := by
  have hlt : 2 ^ p < 2 ^ 32 := Nat.pow_lt_pow_right Nat.one_lt_two (by omega)
  simp only [State.planNReg, if_pos hpv, hpn, toNat_append_add, BitVec.toNat_ofNat]
  omega

theorem planGeomReg_toNat {p : Nat} (h1 : 1 ≤ p) (hp : p ≤ 24) (hpv : s.pv = true) (hpn : s.pn = 2 ^ p) :
    s.planGeomReg.toNat = p + 2 ^ 8 * (if p % 2 = 0 then p - 1 else p)
      + 2 ^ 16 * (if p % 2 = 0 then 8 else 4) + 2 ^ 24 * ((p - 1) / 2) := by
  simp only [State.planGeomReg, if_pos hpv, hpn, toNat_append_add, BitVec.toNat_ofNat, power_two_pow,
    width_two_pow, len0_two_pow h1, npass_two_pow h1]
  split <;> omega

/-- `irq` as the registers show it (R42). -/
theorem irq_iff_registers (s : State) :
    s.irq = true ↔ s.ctrlReg.toNat % 2 = 1 ∧ s.statusReg.toNat / 2 % 2 = 1 := by
  have hstatus : s.statusReg.toNat / 2 % 2 = s.done.toNat := by
    have := s.busy.toNat_lt
    have := s.done.toNat_lt
    rw [statusReg_toNat]
    omega
  rw [ctrlReg_toNat, hstatus, State.irq]
  cases s.irqEn <;> cases s.done <;> decide

/-- A register read has no side effect (R55). -/
theorem serve_read_register (hb : s.build.Legal) {a : Nat} (ha : a < 0x38) (h8 : a % 8 = 0) :
    serve (.read (s.build.base + a) 8) s = .next (s.reply (.data (s.readRegister a))) := by
  have := regionSize_ge hb
  rw [serve_read (by simp only [Build.aperture]; omega) h8, State.memRead, windowOf_register (by omega)]

theorem serve_write_ctrl (hb : s.build.Legal) (w : Word) :
    serve (.write (s.build.base + 0x08) 8 w) s = .next ((s.reply .okay).writeCtrl w) :=
  serve_write_register hb (by norm_num) (by norm_num)

theorem serve_write_status (hb : s.build.Legal) (w : Word) :
    serve (.write (s.build.base + 0x10) 8 w) s = .next ((s.reply .okay).writeStatus w) :=
  serve_write_register hb (by norm_num) (by norm_num)

theorem serve_write_arg (hb : s.build.Legal) (w : Word) :
    serve (.write (s.build.base + 0x18) 8 w) s = .next ((s.reply .okay).writeArg w) :=
  serve_write_register hb (by norm_num) (by norm_num)

/-- ID, PLAN_N and PLAN_GEOM are read-only (R25). -/
theorem serve_write_readOnly (hb : s.build.Legal) {a : Nat} (ha : a ∈ [0x00, 0x28, 0x30]) (w : Word) :
    serve (.write (s.build.base + a) 8 w) s = .next (s.reply .okay) := by
  simp only [List.mem_cons, List.not_mem_nil, or_false] at ha
  obtain rfl | rfl | rfl := ha <;> exact serve_write_register hb (by norm_num) (by norm_num)

theorem writeCmd_ok {w : Word} {i : Instr} (h : decode w = .ok i) (s : State) : writeCmd w s = exec i s := by
  simp [writeCmd, h]

theorem writeCmd_illegal {w : Word} (h : ∀ i, decode w ≠ .ok i) (s : State) :
    writeCmd w s = .next (s.issueIllegal w) := by
  rw [writeCmd]
  split
  case h_1 i hi => exact absurd hi (h i)
  case h_2 => rfl

/-- The host's step that takes a command word from the port is the command's own step (R32, R58). -/
theorem step_issueInput {w : Word} {i : Instr} {rest : List Input} (hb : s.build.Legal)
    (hin : s.inputs = issueInput s.build w :: rest) (hturn : s.busy = false ∨ s.turn = .host)
    (hw : decode w = .ok i) : step s = settleOutcome (exec i ((s.atHost rest).reply .okay)) := by
  have hserve := (serve_issueInput (s := s.atHost rest) hb w).trans (writeCmd_ok hw _)
  rw [step_host hin hturn]
  exact congrArg settleOutcome hserve

/-- The fields a STATUS write clears (R29), by the bits of the word as a number. -/
theorem writeStatus_fields (s : State) (w : Word) :
    (s.writeStatus w).done = (if w.toNat / 2 % 2 = 1 then false else s.done) ∧
    (s.writeStatus w).err = (if w.toNat / 4 % 2 = 1 then false else s.err) ∧
    (s.writeStatus w).errcode = (if w.toNat / 4 % 2 = 1 then .none else s.errcode) ∧
    (s.writeStatus w).overrun = (if w.toNat / 16 % 2 = 1 then false else s.overrun) ∧
    (s.writeStatus w).hazard = (if w.toNat / 32 % 2 = 1 then false else s.hazard) := by
  have hclear : ∀ (b : Bool) (k : Nat),
      (b && !w.getLsbD k) = if w.toNat / 2 ^ k % 2 = 1 then false else b := fun b k => by
    rw [← if_congr (getLsbD_eq_true_iff w k) rfl rfl]
    cases w.getLsbD k <;> simp
  exact ⟨hclear _ 1, hclear _ 2, if_congr (getLsbD_eq_true_iff w 2) rfl rfl, hclear _ 4, hclear _ 5⟩

end

end Sys2Proof.Machine

/-! ## Decoding an encoded command (30_encoding.md R67, R70) -/

namespace Sys2Proof

/-- Every well-formed command is read back from its own word: each field is, and the opcode picks the row. -/
theorem decode_encode {i : Instr} (h : i.wellFormed = true) : decode (encode i) = .ok i := by
  have hfields : ∀ (op : BitVec 8) {d s : Nat}, d < 16 → s < 16 → opField (encodeFields op d s) = op ∧
      dstField (encodeFields op d s) = d ∧ srcField (encodeFields op d s) = s ∧
      rsvdField (encodeFields op d s) = 0 := fun op _ _ hd hs =>
    ⟨opField_encodeFields op hd hs, dstField_encodeFields op hd hs, srcField_encodeFields op hd hs,
      rsvdField_encodeFields op hd hs⟩
  cases i <;> simp only [Instr.wellFormed, bankFits, Bool.and_eq_true, decide_eq_true_eq] at h
  case nop => decide
  case plan => decide
  case clr => simp [encode, decode, Instr.opcode, formatF1, hfields _ h (show 0 < 16 by decide)]
  case cspec => simp [encode, decode, Instr.opcode, formatF1, hfields _ h (show 0 < 16 by decide)]
  all_goals simp [encode, decode, Instr.opcode, hfields _ h.1 h.2]

end Sys2Proof

/-! ## The statements about single steps -/

namespace Sys2Proof.Machine

/-- Settles O12: the relations are parts of the invariant, and a rejection sets ERR and DONE in one update. -/
theorem statusRelations : Obligations.StatusRelations := by
  refine ⟨fun k s t h ht => ?_, fun s t i hturn hidle herr ht => ?_, fun s w hb hidle hill => ?_,
    fun s hb herr hdone => ⟨?_, ?_⟩⟩
  · exact ⟨(h.run ht).busyNoOutcome, (h.run ht).errHasCode.mp⟩
  · obtain ⟨c, hc⟩ := Option.ne_none_iff_exists'.mp herr
    rw [exec_host i hturn, State.issue_idle (State.busy_idle hidle), State.accept_error hc] at ht
    cases ht
    exact ⟨rfl, rfl⟩
  · rw [serve_issueInput hb, writeCmd_illegal hill, State.issueIllegal, if_neg (by simp [State.busy, hidle])]
    exact ⟨_, rfl, rfl, rfl⟩
  · exact ⟨_, serve_write_status hb 2, by simp [State.writeStatus, herr], by simp [State.writeStatus]⟩
  · exact ⟨_, serve_write_status hb 4, by simp [State.writeStatus], by simp [State.writeStatus, hdone]⟩

/-- A power of two is a power of four exactly when its exponent is even. -/
theorem exists_two_pow_eq_four_pow_iff (p : Nat) : (∃ q, 2 ^ p = 4 ^ q) ↔ p % 2 = 0 := by
  have hfour : ∀ q, 4 ^ q = 2 ^ (2 * q) := fun q => (pow_mul 2 2 q).symm
  simp only [hfour, Nat.pow_right_inj Nat.one_lt_two]
  exact ⟨fun ⟨q, hq⟩ => by omega, fun h => ⟨p / 2, by omega⟩⟩

/-- Settles O19: the quantities of a power of two, by the parity of its exponent. -/
theorem planGeometry : Obligations.PlanGeometry := by
  intro p hp
  refine ⟨rfl, power_two_pow p, width_two_pow p, ?_, ?_, ?_, rfl, groups_mul_len0 hp⟩
  · rw [width_two_pow]
    split <;> omega
  · rw [exists_two_pow_eq_four_pow_iff, len0_two_pow hp]
    split <;> omega
  · rw [len0_two_pow hp]
    split <;> omega

/-- Settles O57: every served input and every completion keeps the parameters, and ID is a view of them. -/
theorem parametersNeverChange : Obligations.ParametersNeverChange := by
  intro s t h
  have hb := step_build h
  exact ⟨hb, by simp only [State.readRegister, State.idReg, hb]⟩

/-- Settles O53: of the inputs only the two resets write the plan store, of the pseudocodes only PLAN's. -/
theorem onlyPlanAndResetWriteThePlan : Obligations.OnlyPlanAndResetWriteThePlan := by
  intro s t _ h hne
  obtain rfl | ⟨i, rest, u, hin, hu, rfl⟩ | ⟨c, hc, rfl⟩ := step_served h
  · simp at hne
  · obtain ⟨rfl | ⟨w, rfl, hw⟩, hpv, hpn⟩ := hu.plan_store hne
    · exact .inr (.inl ⟨rest, hin, hpv, hpn⟩)
    · exact .inr (.inr ⟨rest, w, hin, hw, hpv, hpn⟩)
  · have hop : c.op = .plan := by
      by_contra hop
      obtain ⟨hpv, hpn⟩ := bodyOf_plan_store hop s.atEngine
      simp [hpv, hpn] at hne
    rw [bodyOf_plan hop]
    exact .inl ⟨c, hc, hop, rfl, rfl, rfl⟩

/-- Settles O55: an abort and a completion store over the write footprint, an idle bank write over one word. -/
theorem bankBytesChangeOnlyBy : Obligations.BankBytesChangeOnlyBy := by
  intro s t a _ hplan hctx h hne
  obtain rfl | ⟨i, rest, u, hin, hu, rfl⟩ | ⟨c, hc, rfl⟩ := step_served h
  · exact absurd rfl hne
  · obtain ⟨c, hc, hidle, hlo, hhi⟩ | ⟨b, k, v, hidle, rfl, hbyte⟩ | rfl := hu.bank_byte hne
    · exact .inl ⟨c, hc, hidle, hlo, hhi⟩
    · exact .inr (.inl ⟨rest, b, k, v, hidle, hin, hbyte⟩)
    · exact .inr (.inr ⟨rest, hin⟩)
  · obtain ⟨-, -, hrun, -⟩ := hctx c hc
    obtain ⟨hlo, hhi⟩ := inWriteSpan_of_bodyOf (s := s.atEngine) (fun hop => hplan (hrun hop).1) hne
    exact .inl ⟨c, hc, rfl, hlo, hhi⟩

/-- Settles O59: a completion sets DONE and keeps IRQ_EN, so only a served input makes irq fall. -/
theorem irqIsEnableAndDone : Obligations.IrqIsEnableAndDone := by
  refine ⟨irq_iff_registers, rfl, fun s t _ h hs ht => ?_⟩
  obtain rfl | ⟨i, rest, u, hin, hu, rfl⟩ | ⟨c, -, rfl⟩ := step_served h
  · exact absurd hs (by simp [ht])
  · obtain ⟨w, rfl, hw⟩ | ⟨w, c, rfl, hidle, hrun⟩ | ⟨w, rfl, hw⟩ | rfl := hu.irq_falls hs ht
    · exact .inl ⟨rest, w, hin, hw⟩
    · exact .inr (.inl ⟨rest, w, c, hin, hidle, hrun⟩)
    · exact .inr (.inr (.inl ⟨rest, w, hin, hw⟩))
    · exact .inr (.inr (.inr ⟨rest, hin⟩))
  · rw [State.irq, Bool.and_eq_true] at hs
    simp [State.irq, bodyOf_irqEn, hs.1] at ht

/-- Settles O5: a legal region 0 holds CMD, and a placed command word decodes to its command. -/
theorem stepRunsTheIssuedCommand : Obligations.StepRunsTheIssuedCommand := by
  refine ⟨fun s w i rest => step_issueInput, fun s i hb hwf => ?_⟩
  rw [State.withFetchWord, Nat.mod_eq_of_lt (encode i).isLt, BitVec.ofNat_toNat, BitVec.setWidth_eq]
  exact step_issueInput (s := s.placeCommand (encode i)) hb rfl (.inr rfl) (decode_encode hwf)

/-- Settles O46. -/
theorem registerReads : Obligations.RegisterReads := by
  refine fun s hb => ⟨fun a ha h8 => serve_read_register hb ha h8, idReg_toNat hb, ctrlReg_toNat s,
    statusReg_toNat s, argReg_toNat s, rfl, fun hpv => ⟨if_neg (by simp [hpv]), if_neg (by simp [hpv])⟩,
    fun p h1 hp hpv hpn => ⟨planNReg_toNat hp hpv hpn, planGeomReg_toNat h1 hp hpv hpn⟩⟩

/-- Settles O47. -/
theorem statusWriteClears : Obligations.StatusWriteClears := fun s w hb =>
  ⟨_, serve_write_status hb w, rfl, writeStatus_fields (s.reply .okay) w⟩

/-- Settles O48. -/
theorem argAndReadOnlyWrites : Obligations.ArgAndReadOnlyWrites := by
  refine fun s v hb => ⟨?_, fun a ha => serve_write_readOnly hb ha v⟩
  rw [serve_write_arg hb, State.writeArg, ← BitVec.ofNat_toNat]
  rfl

/-- Settles O49. -/
theorem ctrlWriteSetsIrqEnable : Obligations.CtrlWriteSetsIrqEnable := by
  intro s w hb hw
  have hbit : w.getLsbD 1 = false := by
    rw [← Bool.not_eq_true, getLsbD_one_iff]
    omega
  have hen : w.getLsbD 0 = decide (w.toNat % 2 = 1) := by
    rw [Bool.eq_iff_iff, getLsbD_zero_iff, decide_eq_true_eq]
  rw [serve_write_ctrl hb, State.writeCtrl_irqEn hbit, hen]
  rfl

end Sys2Proof.Machine

/-! ## The windows of the aperture: what a read and a write of each do (20_memory.md R47 to R54) -/

namespace Sys2Proof.Machine

/-- The windows that the busy rule of R54 refuses. -/
def Window.isData : Window → Bool
  | .register _ => false
  | .twiddle _ => true
  | .bitReversal _ => true
  | .bank _ _ => true
  | .reserved => false

section
variable {s t : State} {b : Build} {a : Nat}

/-! ### Data windows and the others -/

/-- The window of an offset is a data window exactly on the ranges of R47. -/
theorem windowOf_isData : (windowOf b a).isData = true ↔ IsDataWindow b a := by
  have hsize : b.regionSize = 16 * b.nmax := rfl
  have hregion : ∀ r, a / b.regionSize < r ↔ a < r * b.regionSize := fun r =>
    Nat.div_lt_iff_lt_mul (regionSize_pos b)
  have h1 := hregion 1
  have h2 := hregion 2
  have h3 := hregion 3
  have h4 := hregion 4
  have hend := hregion (4 + b.nbuf)
  have hsplit := Nat.div_add_mod a b.regionSize
  rw [Nat.add_mul] at hend
  simp only [IsDataWindow, windowOf, Nat.add_mul]
  split
  case isTrue h0 => simp only [Window.isData, Bool.false_eq_true, false_iff]; omega
  split
  case isTrue h1 => simp only [Window.isData, true_iff]; omega
  split
  case isTrue h2 =>
    rw [h2] at hsplit
    split
    · simp only [Window.isData, Bool.false_eq_true, false_iff]; omega
    · simp only [Window.isData, true_iff]; omega
  split
  · simp only [Window.isData, true_iff]; omega
  · simp only [Window.isData, Bool.false_eq_true, false_iff]; omega

/-- Every other offset is a register offset of region 0 or reserved (R47). -/
theorem windowOf_not_isData (h : ¬ IsDataWindow b a) :
    windowOf b a = if a < b.regionSize then .register a else .reserved := by
  rw [← windowOf_isData] at h
  split
  case isTrue ha => exact windowOf_register ha
  case isFalse ha =>
    cases hw : windowOf b a with
    | register r => exact absurd (windowOf_eq_register hw).2 ha
    | reserved => rfl
    | _ => simp [hw, Window.isData] at h

/-! ### The busy rule (R54) -/

section
variable (ha : a < s.build.aperture) (h8 : a % 8 = 0)
include ha h8

theorem serve_read_refused (hbusy : s.busy = true) (h : IsDataWindow s.build a) :
    serve (.read (s.build.base + a) 8) s = .next s.refuseRead := by
  rw [← windowOf_isData] at h
  rw [serve_read ha h8, State.memRead]
  cases hw : windowOf s.build a with
  | register r => simp [hw, Window.isData] at h
  | reserved => simp [hw, Window.isData] at h
  | _ => exact congrArg _ (if_pos hbusy)

theorem serve_write_refused (hbusy : s.busy = true) (h : IsDataWindow s.build a) (v : Word) :
    serve (.write (s.build.base + a) 8 v) s = .next (s.reply .okay).setHazard := by
  rw [← windowOf_isData] at h
  rw [serve_write ha h8, memWrite, State.reply_build]
  cases hw : windowOf s.build a with
  | register r => simp [hw, Window.isData] at h
  | reserved => simp [hw, Window.isData] at h
  | _ => exact congrArg _ (if_pos hbusy)

/-- Register and reserved offsets are read the same, busy or idle (R51, R52). -/
theorem serve_read_not_isData (h : ¬ IsDataWindow s.build a) : serve (.read (s.build.base + a) 8) s =
    .next (s.reply (.data (if a < s.build.regionSize then s.readRegister a else 0))) := by
  rw [serve_read ha h8, State.memRead, windowOf_not_isData h]
  by_cases hreg : a < s.build.regionSize <;> simp [hreg]

theorem serve_write_not_isData (h : ¬ IsDataWindow s.build a) (v : Word) :
    serve (.write (s.build.base + a) 8 v) s =
      if a < s.build.regionSize then writeRegister a v (s.reply .okay) else .next (s.reply .okay) := by
  rw [serve_write ha h8, memWrite, State.reply_build, windowOf_not_isData h]
  by_cases hreg : a < s.build.regionSize <;> simp [hreg]

end

/-! ### No register write sets HAZARD -/

theorem bodyOf_hazard (i : Instr) (c : Ctx) (s : State) : (bodyOf i c s).hazard = s.hazard := by
  rw [bodyOf_frame]

theorem State.issue_hazard (s : State) (i : Instr) : (s.issue i).hazard = s.hazard := by
  rw [State.issue]
  split
  case isTrue => rfl
  case isFalse => rw [State.accept_frame]

theorem State.complete_hazard (s : State) (i : Instr) : (s.complete i (bodyOf i)).hazard = s.hazard := by
  rw [State.complete]
  split
  case h_1 => rfl
  case h_2 c _ =>
    split
    case isTrue => exact bodyOf_hazard i c s
    case isFalse => rfl

theorem exec_hazard {i : Instr} (h : exec i s = .next t) : t.hazard = s.hazard := by
  rw [exec_eq_command, command] at h
  split at h <;> cases h
  case h_1 => exact s.issue_hazard i
  case h_2 => exact s.complete_hazard i

theorem State.issueIllegal_hazard (s : State) (w : Word) : (s.issueIllegal w).hazard = s.hazard := by
  rw [State.issueIllegal]
  split <;> rfl

theorem writeCmd_hazard {w : Word} (h : writeCmd w s = .next t) : t.hazard = s.hazard := by
  rw [writeCmd] at h
  split at h
  case h_1 => exact exec_hazard h
  case h_2 =>
    cases h
    exact s.issueIllegal_hazard w

/-- CTRL and STATUS can clear HAZARD; no register write sets it (R53, R54). -/
theorem writeRegister_hazard {v : Word} (h : writeRegister a v s = .next t) (hs : s.hazard = false) :
    t.hazard = false := by
  rw [writeRegister.eq_def] at h
  split at h
  case h_4 => rw [writeCmd_hazard h, hs]
  all_goals cases h
  case h_1 =>
    rw [State.writeCtrl]
    split
    case isTrue => rfl
    case isFalse => exact hs
  case h_2 => simp [State.writeStatus, hs]
  case h_3 => exact hs
  case h_5 => exact hs

/-! ### Reserved offsets (R51) -/

theorem State.readRegister_reserved (ha : 0x38 ≤ a) (s : State) : s.readRegister a = 0 := by
  rw [State.readRegister.eq_def]
  split
  case h_8 => rfl
  all_goals omega

theorem writeRegister_reserved (ha : 0x38 ≤ a) (v : Word) (s : State) : writeRegister a v s = .next s := by
  rw [writeRegister.eq_def]
  split
  case h_5 => rfl
  all_goals omega

/-! ### The windows while idle (R48 to R50) -/

theorem twiddleAddr_lt_aperture {i : Nat} (hi : i < 2 * b.nmax) :
    b.regionSize + 8 * i < b.aperture ∧ (b.regionSize + 8 * i) % 8 = 0 := by
  simp only [Build.aperture, Build.regionSize]
  omega

theorem bitReversalAddr_lt_aperture {j : Nat} (hj : j < b.nmax) :
    2 * b.regionSize + 8 * j < b.aperture ∧ (2 * b.regionSize + 8 * j) % 8 = 0 := by
  simp only [Build.aperture, Build.regionSize]
  omega

theorem serve_read_twiddle (hidle : s.seq = .idle) {i : Nat} (hi : i < 2 * s.build.nmax) :
    serve (.read (s.build.base + s.build.regionSize + 8 * i) 8) s =
      .next (s.reply (.data (s.twiddleWindow i))) := by
  obtain ⟨hin, h8⟩ := twiddleAddr_lt_aperture hi
  rw [Nat.add_assoc, serve_read hin h8, State.memRead, windowOf_twiddle hi]
  simp [State.busy_idle hidle]

theorem serve_write_twiddle (hidle : s.seq = .idle) {i : Nat} (hi : i < 2 * s.build.nmax) (v : Word) :
    serve (.write (s.build.base + s.build.regionSize + 8 * i) 8 v) s = .next (s.reply .okay) := by
  obtain ⟨hin, h8⟩ := twiddleAddr_lt_aperture hi
  rw [Nat.add_assoc, serve_write hin h8, memWrite, State.reply_build, windowOf_twiddle hi]
  simp [State.busy, hidle]

theorem serve_read_bitReversal (hidle : s.seq = .idle) {j : Nat} (hj : j < s.build.nmax) :
    serve (.read (s.build.base + 2 * s.build.regionSize + 8 * j) 8) s =
      .next (s.reply (.data (s.bitReversalWindow j))) := by
  obtain ⟨hin, h8⟩ := bitReversalAddr_lt_aperture hj
  rw [Nat.add_assoc, serve_read hin h8, State.memRead, windowOf_bitReversal hj]
  simp [State.busy_idle hidle]

theorem serve_write_bitReversal (hidle : s.seq = .idle) {j : Nat} (hj : j < s.build.nmax) (v : Word) :
    serve (.write (s.build.base + 2 * s.build.regionSize + 8 * j) 8 v) s = .next (s.reply .okay) := by
  obtain ⟨hin, h8⟩ := bitReversalAddr_lt_aperture hj
  rw [Nat.add_assoc, serve_write hin h8, memWrite, State.reply_build, windowOf_bitReversal hj]
  simp [State.busy, hidle]

section
variable (hb : s.build.Legal) (hidle : s.seq = .idle) {k i : Nat} (hk : k < s.build.nbuf)
  (hi : i < 2 * s.build.nmax)
include hb hidle hk hi

theorem serve_read_bank :
    serve (.read (s.build.base + bankAddr s.build k i) 8) s = .next (s.readBank k i) := by
  obtain ⟨-, -, -, hnbuf, -⟩ := hb
  obtain ⟨hin, h8⟩ := bankAddr_lt_aperture hnbuf hk hi
  rw [serve_read hin h8, State.memRead, windowOf_bank hk hi]
  simp [State.busy_idle hidle]

theorem serve_read_bank_some {w : Word} (hw : s.bankWord k i = some w) :
    serve (.read (s.build.base + bankAddr s.build k i) 8) s = .next (s.reply (.data w)) := by
  rw [serve_read_bank hb hidle hk hi, State.readBank, hw]

/-- A read of an unspecified word draws a free value (R50, log 4). -/
theorem serve_read_bank_none (hw : s.bankWord k i = none) :
    serve (.read (s.build.base + bankAddr s.build k i) 8) s =
      .next ({ s with readDraws := s.readDraws + 1 }.reply (.data (Config.freeWord s.readDraws))) := by
  rw [serve_read_bank hb hidle hk hi, State.readBank, hw]

theorem serve_write_bank (v : Word) :
    serve (.write (s.build.base + bankAddr s.build k i) 8 v) s =
      .next ((s.reply .okay).storeBank k i [some v]) := by
  obtain ⟨-, -, -, hnbuf, -⟩ := hb
  obtain ⟨hin, h8⟩ := bankAddr_lt_aperture hnbuf hk hi
  rw [serve_write hin h8, memWrite, State.reply_build, windowOf_bank hk hi]
  simp [State.busy, hidle]

end

end

/-! ### The statements -/

/-- Settles O44: the busy rule on the data windows, and the register rules everywhere else. -/
theorem busyDataWindowsAreRefused : Obligations.BusyDataWindowsAreRefused := by
  intro s a v _ hbusy ha h8
  refine ⟨fun hdata => ⟨serve_read_refused ha h8 hbusy hdata, serve_write_refused ha h8 hbusy hdata v⟩,
    fun hdata => ⟨serve_read_not_isData ha h8 hdata, serve_write_not_isData ha h8 hdata v,
      fun t ht hs => ?_⟩⟩
  rw [serve_write_not_isData ha h8 hdata] at ht
  split at ht
  · exact writeRegister_hazard ht hs
  · cases ht
    exact hs

/-- Settles O51: while idle no table access meets the busy rule. -/
theorem tableWindows : Obligations.TableWindows := fun _ v _ hidle =>
  ⟨fun _ hi => ⟨serve_read_twiddle hidle hi, serve_write_twiddle hidle hi v⟩,
    fun _ hj => ⟨serve_read_bitReversal hidle hj, serve_write_bitReversal hidle hj v⟩⟩

/-- Settles O52: the word stored is the word read back, and a store changes no byte outside its word. -/
theorem bankWindowReadsBack : Obligations.BankWindowReadsBack := by
  intro s b i v hb hidle hk hi
  have hword : ((s.reply .okay).storeBank b i [some v]).bankWord b i = some v :=
    State.bankWord_storeBank _ b i [some v] 0 (by simp)
  refine ⟨⟨(s.reply .okay).storeBank b i [some v], serve_write_bank hb hidle hk hi v, rfl, hword,
    fun a ha => ?_,
    serve_read_bank_some (s := (s.reply .okay).storeBank b i [some v]) hb hidle hk hi hword⟩,
    fun w hw => serve_read_bank_some hb hidle hk hi hw,
    fun hw => ⟨_, serve_read_bank_none hb hidle hk hi hw⟩⟩
  refine State.readByte_storeBank_outside _ b i [some v] a ?_
  rw [bankAddr_add]
  exact ha

/-- Settles O56: while a command runs, only the two resets touch SEQ, the banks or the plan. -/
theorem hostCannotDisturbARunningCommand : Obligations.HostCannotDisturbARunningCommand := by
  intro s t c i _ hrun hturn hpower hreset h
  cases served_of_serve hturn h with
  | unnoticed i h => rw [h]; exact ⟨hrun, rfl, rfl, rfl, rfl⟩
  | powerOn => exact absurd rfl hpower
  | ctrl w =>
    cases hw : w.getLsbD 1 with
    | true => exact absurd rfl (hreset w ((getLsbD_one_iff w).mp hw))
    | false => rw [State.writeCtrl_irqEn hw]; exact ⟨hrun, rfl, rfl, rfl, rfl⟩
  | status w => exact ⟨hrun, rfl, rfl, rfl, rfl⟩
  | arg w => exact ⟨hrun, rfl, rfl, rfl, rfl⟩
  | rejected w op hidle hc => simp [hrun] at hidle
  | nop w op hidle => simp [hrun] at hidle
  | runs w hidle herr hop => simp [hrun] at hidle
  | bank k i v hidle hk hi => simp [hrun] at hidle

/-- Settles O43: the access lands on no word of the aperture, so nothing but the response is recorded. -/
theorem busErrorHasNoEffect : Obligations.BusErrorHasNoEffect := by
  intro s a size v ha h
  simp only [serve, placeOf_busError ha h]
  exact ⟨rfl, rfl⟩

/-- Settles O45: a reserved offset is in no data window and is no register's. -/
theorem reservedOffsetsDoNothing : Obligations.ReservedOffsetsDoNothing := by
  intro s a v _ ha h8 hres
  have hsize : s.build.regionSize = 16 * s.build.nmax := rfl
  rw [Nat.add_mul] at hres
  have hdata : ¬ IsDataWindow s.build a := by
    rw [IsDataWindow, Nat.add_mul]
    omega
  rw [serve_read_not_isData ha h8 hdata, serve_write_not_isData ha h8 hdata]
  by_cases hreg : a < s.build.regionSize
  · have h38 : 0x38 ≤ a := by omega
    rw [if_pos hreg, if_pos hreg, State.readRegister_reserved h38, writeRegister_reserved h38]
    exact ⟨rfl, rfl⟩
  · rw [if_neg hreg, if_neg hreg]
    exact ⟨rfl, rfl⟩

end Sys2Proof.Machine

/-! ## Command words: what decodes, and to what (30_encoding.md R64, R65, R67, R68) -/

namespace Sys2Proof

section
variable {w : Word} {i : Instr}

/-- The fields DST and SRC of a command's word, 0 where its format does not use the field (R65, R70). -/
def Instr.operandFields : Instr → Nat × Nat
  | .nop | .plan => (0, 0)
  | .fwd d s | .inv d s | .rfwd d s | .r2c d s | .c2r d s => (d, s)
  | .clr d | .cspec d => (d, 0)

theorem encode_eq_encodeFields (i : Instr) :
    encode i = encodeFields i.opcode i.operandFields.1 i.operandFields.2 := by cases i <;> rfl

theorem wellFormed_iff_operandFields :
    i.wellFormed = true ↔ i.operandFields.1 < 16 ∧ i.operandFields.2 < 16 := by
  cases i <;> simp [Instr.wellFormed, Instr.operandFields, bankFits]

theorem dstField_lt (w : Word) : dstField w < 16 := BitVec.isLt _

theorem srcField_lt (w : Word) : srcField w < 16 := BitVec.isLt _

/-- The fields OP, DST and SRC hold every bit below the reserved ones (R64). -/
theorem encodeFields_fields (h : rsvdField w = 0) :
    encodeFields (opField w) (dstField w) (srcField w) = w := by
  rw [rsvdField_eq_zero] at h
  apply BitVec.eq_of_toNat_eq
  rw [encodeFields_toNat _ (dstField_lt w) (srcField_lt w), opField_toNat, dstField_eq, srcField_eq]
  omega

/-- What the decoder can answer on `w` (`decoded_decode`): a command whose opcode and operand fields are those of
the word, or one of the three cases of R68, the last of them by the format whose field is not 0. -/
inductive Decoded (w : Word) : Except DecodeError Instr → Prop
  | command (i : Instr) (hrsvd : rsvdField w = 0) (hop : (opField w).toNat = i.opcode.toNat)
      (hd : dstField w = i.operandFields.1) (hs : srcField w = i.operandFields.2) : Decoded w (.ok i)
  | reservedBits (h : rsvdField w ≠ 0) : Decoded w (.error .reservedBits)
  | reservedOpcode (h : 9 ≤ (opField w).toNat) : Decoded w (.error .reservedOpcode)
  | unusedF0 (hop : (opField w).toNat ≤ 1) (h : dstField w ≠ 0 ∨ srcField w ≠ 0) :
      Decoded w (.error .unusedField)
  | unusedF1 (hop : (opField w).toNat = 7 ∨ (opField w).toNat = 8) (h : srcField w ≠ 0) :
      Decoded w (.error .unusedField)

theorem decoded_formatF0 (hrsvd : rsvdField w = 0) (hop : (opField w).toNat = i.opcode.toNat)
    (hle : (opField w).toNat ≤ 1) (hi : i.operandFields = (0, 0)) :
    Decoded w (formatF0 i (dstField w) (srcField w)) := by
  rw [formatF0]
  split
  case isTrue h => exact .unusedF0 hle h
  case isFalse h =>
    rw [not_or, not_not, not_not] at h
    exact .command i hrsvd hop (by rw [hi, h.1]) (by rw [hi, h.2])

theorem decoded_formatF1 {f : Nat → Instr} (hrsvd : rsvdField w = 0)
    (hop : (opField w).toNat = (f (dstField w)).opcode.toNat)
    (hF1 : (opField w).toNat = 7 ∨ (opField w).toNat = 8)
    (hf : (f (dstField w)).operandFields = (dstField w, 0)) :
    Decoded w (formatF1 f (dstField w) (srcField w)) := by
  rw [formatF1]
  split
  case isTrue h => exact .unusedF1 hF1 h
  case isFalse h => exact .command _ hrsvd hop (by rw [hf]) (by rw [hf, not_not.mp h])

theorem decoded_decode (w : Word) : Decoded w (decode w) := by
  simp only [decode]
  split
  case isTrue h => exact .reservedBits h
  case isFalse h =>
    have hrsvd := not_not.mp h
    split
    case h_1 hop | h_2 hop => exact decoded_formatF0 hrsvd hop (by omega) rfl
    case h_8 hop | h_9 hop => exact decoded_formatF1 hrsvd hop (by omega) rfl
    case h_10 h0 h1 h2 h3 h4 h5 h6 h7 h8 =>
      simp only [imp_false] at h0 h1 h2 h3 h4 h5 h6 h7 h8
      exact .reservedOpcode (by omega)
    case h_3 hop | h_4 hop | h_5 hop | h_6 hop | h_7 hop => exact .command _ hrsvd hop rfl rfl

/-- No bit of a legal word is dropped, and its operands fit their fields. -/
theorem encode_of_decode (h : decode w = .ok i) : encode i = w ∧ i.wellFormed = true := by
  obtain ⟨_, hrsvd, hop, hd, hs⟩ := h ▸ decoded_decode w
  rw [encode_eq_encodeFields, wellFormed_iff_operandFields, ← BitVec.eq_of_toNat_eq hop, ← hd, ← hs]
  exact ⟨encodeFields_fields hrsvd, dstField_lt w, srcField_lt w⟩

/-- The three cases of R68, by the fields. -/
theorem illegal_iff_fields : (∀ i, decode w ≠ .ok i) ↔
    9 ≤ (opField w).toNat ∨ rsvdField w ≠ 0 ∨
      ((opField w).toNat ≤ 1 ∧ (dstField w ≠ 0 ∨ srcField w ≠ 0)) ∨
      (((opField w).toNat = 7 ∨ (opField w).toNat = 8) ∧ srcField w ≠ 0) := by
  cases hw : decode w with
  | ok i =>
    obtain ⟨_, hrsvd, hop, hd, hs⟩ := hw ▸ decoded_decode w
    rw [hop, hd, hs]
    cases i <;> simp [hrsvd, Instr.opcode, Instr.operandFields]
  | error e =>
    refine iff_of_true (by simp) ?_
    cases hw ▸ decoded_decode w with
    | reservedBits h => exact .inr (.inl h)
    | reservedOpcode h => exact .inl h
    | unusedF0 hop h => exact .inr (.inr (.inl ⟨hop, h⟩))
    | unusedF1 hop h => exact .inr (.inr (.inr ⟨hop, h⟩))

/-- The three cases of R68, by the word as a number. -/
theorem illegal_iff : (∀ i, decode w ≠ .ok i) ↔
    (9 ≤ w.toNat % 256 ∨ w.toNat / 65536 ≠ 0 ∨
      (w.toNat % 256 ≤ 1 ∧ w.toNat / 256 % 256 ≠ 0) ∨
      ((w.toNat % 256 = 7 ∨ w.toNat % 256 = 8) ∧ w.toNat / 4096 % 16 ≠ 0)) := by
  rw [illegal_iff_fields, ne_eq, rsvdField_eq_zero, opField_toNat, dstField_eq, srcField_eq]
  omega

theorem opField_eq_ofNat (w : Word) : opField w = BitVec.ofNat 8 w.toNat :=
  BitVec.eq_of_toNat_eq (opField_toNat w)

end

end Sys2Proof

/-! ## The statements about the encoding -/

namespace Sys2Proof.Machine

/-- The rejection of an ILLEGAL word at an idle machine (R68, R111). -/
theorem State.issueIllegal_idle {s : State} (hidle : s.seq = .idle) (w : Word) :
    s.issueIllegal w = (s.beginCheck (opField w)).raiseError .illegalCommand := by
  rw [State.issueIllegal, State.busy_idle hidle, if_neg Bool.false_ne_true]

/-- Settles O2: every field of the encoding is read back, so the opcode's row gives the command. -/
theorem decodeOfEncode : Obligations.DecodeOfEncode := fun _ => decode_encode

/-- Settles O3: a legal word's fields are its command's, and they hold every bit of the word. -/
theorem encodeOfDecode : Obligations.EncodeOfDecode := fun _ _ => encode_of_decode

/-- Settles O4: the decoder's answers are told apart by the fields, and an idle machine rejects an ILLEGAL word at
acceptance. -/
theorem illegalWordsAreRejected : Obligations.IllegalWordsAreRejected := by
  refine ⟨fun w => illegal_iff, by decide, fun s w hb hidle hill => ?_⟩
  rw [serve_issueInput hb, writeCmd_illegal hill, State.issueIllegal_idle (s := s.reply .okay) hidle,
    opField_eq_ofNat]
  rfl

/-- Settles O1: nineteen fixed words, each evaluated. -/
theorem decodesTheSpecsWords : Obligations.DecodesTheSpecsWords := by
  unfold Obligations.DecodesTheSpecsWords
  decide

end Sys2Proof.Machine

/-! ## The plan sizes, NOP and PLAN (40_plan_and_control.md R73 to R75) -/

namespace Sys2Proof.Machine

/-- The converse of `exists_two_pow_of_validSize` (R74). -/
theorem validSize_of_two_pow {n : BitVec 32} {p : Nat} (hp : 1 ≤ p) (hn : n.toInt = 2 ^ p) :
    validSize n = true := by
  have hn' : n.toInt = (2 ^ p : Nat) := by rw [hn, Nat.cast_pow, Nat.cast_ofNat]
  have hgt : 1 < 2 ^ p := Nat.one_lt_two_pow (by omega)
  have hnat : n.toNat = 2 ^ p := by
    rw [BitVec.toInt_eq_toNat_cond] at hn'
    generalize 2 ^ p = N at hn' hgt
    split at hn' <;> omega
  have hpred : (n - 1).toNat = 2 ^ p - 1 := by bv_omega
  simp only [validSize, Bool.and_eq_true, decide_eq_true_eq, beq_iff_eq]
  refine ⟨by rw [hn']; exact_mod_cast hgt, BitVec.eq_of_toNat_eq ?_⟩
  rw [BitVec.toNat_and, hnat, hpred]
  exact (Nat.and_sub_one_eq_zero_iff_isPowerOfTwo (by omega)).mpr ⟨p, rfl⟩

/-- Settles O15: a 32-bit pattern has no value from 2^31 on, so the exponent is at most 30. -/
theorem validSizesArePowersOfTwo : Obligations.ValidSizesArePowersOfTwo := by
  refine fun n => ⟨fun h => ?_, fun ⟨p, hp, _, hn⟩ => validSize_of_two_pow hp hn⟩
  obtain ⟨p, hp, hn⟩ := exists_two_pow_of_validSize h
  have hlt : 2 ^ p < 2 ^ 31 := by
    have := n.toInt_lt
    omega
  exact ⟨p, hp, Nat.le_of_lt_succ ((Nat.pow_lt_pow_iff_right Nat.one_lt_two).mp hlt), by
    rw [hn, Nat.cast_pow, Nat.cast_ofNat]⟩

/-- No word with OP 0x00 but the all-zero word decodes (R73). -/
theorem illegal_of_zero_opcode {w : Word} (hop : w.toNat % 256 = 0) (hw : w ≠ 0) (i : Instr) :
    decode w ≠ .ok i := by
  have hne : w.toNat ≠ 0 := fun h => hw (BitVec.eq_of_toNat_eq h)
  exact illegal_iff.mpr (by omega) i

/-- Settles O17: NOP has no acceptance check and no context, and its word is the only legal one with its OP. -/
theorem nopCompletesAtAcceptance : Obligations.NopCompletesAtAcceptance := by
  refine ⟨fun s hturn hidle => ?_, fun w hop => ⟨⟨fun h => ?_, ?_⟩, fun hw s hb hidle => ?_⟩⟩
  · rw [exec_host .nop hturn, State.issue_idle (State.busy_idle hidle)]
    exact ⟨_, rfl, rfl, fun hen => by rw [State.irq, Bool.and_eq_true]; exact ⟨hen, rfl⟩⟩
  · by_contra hw
    exact illegal_of_zero_opcode hop hw _ h
  · rintro rfl
    decide
  · refine ⟨_, (serve_issueInput hb w).trans (writeCmd_illegal (illegal_of_zero_opcode hop hw) _), ?_⟩
    rw [State.issueIllegal_idle (s := s.reply .okay) hidle, opField_eq_ofNat,
      show BitVec.ofNat 8 w.toNat = 0x00 from BitVec.eq_of_toNat_eq hop]
    rfl

/-- Settles O18: PLAN's pseudocode writes the plan store, and the two registers are views of it. -/
theorem planCompletes : Obligations.PlanCompletes := by
  intro s c hturn hrun hop
  have hinstr : c.instr = .plan := by rw [Ctx.instr, hop]
  exact ⟨_, exec_engine hturn hrun hinstr, rfl, fun p h1 hp hn =>
    ⟨planNReg_toNat hp rfl hn, planGeomReg_toNat h1 hp rfl hn⟩⟩

end Sys2Proof.Machine

/-! ## The bit-reversal table (40_plan_and_control.md R82, R83) -/

namespace Sys2Proof.Machine

/-! ### The base-4 digit reversal -/

theorem rev4_lt (q t : Nat) : rev4 q t < 4 ^ q := by
  induction q generalizing t with
  | zero => simp [rev4]
  | succ q ih =>
    have hdigit : t % 4 * 4 ^ q ≤ 3 * 4 ^ q := Nat.mul_le_mul_right _ (by omega)
    have := ih (t / 4)
    rw [rev4, pow_succ]
    omega

/-- A digit above the `q` that are reversed does not matter. -/
theorem rev4_add_four_pow (q t : Nat) : rev4 q (t + 4 ^ q) = rev4 q t := by
  induction q generalizing t with
  | zero => rfl
  | succ q ih =>
    rw [rev4, rev4, pow_succ, Nat.add_mul_mod_self_right, Nat.add_mul_div_right _ _ (by norm_num), ih]

theorem rev4_injOn (q : Nat) : Set.InjOn (rev4 q) (Set.Iio (4 ^ q)) := by
  induction q with
  | zero =>
    intro s hs t ht _
    simp only [Set.mem_Iio, pow_zero] at hs ht
    omega
  | succ q ih =>
    intro s hs t ht h
    simp only [Set.mem_Iio, pow_succ] at hs ht
    have hpos : 0 < 4 ^ q := Nat.pow_pos (by norm_num)
    have hdigit := congrArg (· / 4 ^ q) h
    have hrest := congrArg (· % 4 ^ q) h
    simp only [rev4, Nat.mul_comm _ (4 ^ q), Nat.mul_add_div hpos, Nat.mul_add_mod,
      Nat.div_eq_of_lt (rev4_lt q _), Nat.mod_eq_of_lt (rev4_lt q _)] at hdigit hrest
    have := ih (Set.mem_Iio.mpr (by omega)) (Set.mem_Iio.mpr (by omega)) hrest
    omega

/-- Digit reversal is a permutation of the numbers of `q` digits (R83). -/
theorem rev4_bijOn (q : Nat) : Set.BijOn (rev4 q) (Set.Iio (4 ^ q)) (Set.Iio (4 ^ q)) :=
  ((Set.finite_Iio _).injOn_iff_bijOn_of_mapsTo fun t _ => rev4_lt q t).mp (rev4_injOn q)

/-! ### The table's entries -/

/-- One step of the table's loop: digit `g` of `j`, moved to its place among `2q+1` bits. -/
def placeDigit (q j acc g : Nat) : Nat := acc ||| (((j >>> (2 * g)) &&& 3) <<< (2 * q - 1 - 2 * g))

/-- The loop over the digits ors the doubled digit reversal into what it starts from. -/
theorem foldl_placeDigit (q j acc : Nat) :
    (List.range q).foldl (placeDigit q j) acc = acc ||| 2 * rev4 q j := by
  induction q generalizing j acc with
  | zero => simp [rev4]
  | succ q ih =>
    have hnext : ∀ a g, placeDigit (q + 1) j a (g + 1) = placeDigit q (j / 4) a g := fun a g => by
      rw [placeDigit, placeDigit, show 2 * (g + 1) = 2 + 2 * g by ring, Nat.shiftRight_add,
        Nat.shiftRight_eq_div_pow j 2, show 2 * (q + 1) - 1 - (2 + 2 * g) = 2 * q - 1 - 2 * g by omega]
    have hfirst : placeDigit (q + 1) j acc 0 = acc ||| (j % 4) <<< (2 * q + 1) := by
      rw [placeDigit, Nat.mul_zero, Nat.shiftRight_zero, Nat.and_two_pow_sub_one_eq_mod j 2,
        show 2 * (q + 1) - 1 - 0 = 2 * q + 1 by omega]
    have hlow : 2 * rev4 q (j / 4) < 2 ^ (2 * q + 1) := by
      have := rev4_lt q (j / 4)
      rw [pow_succ, pow_mul, show 2 ^ 2 = 4 from rfl]
      omega
    rw [List.range_succ_eq_map, List.foldl_cons, List.foldl_map, hfirst]
    simp only [hnext]
    rw [ih, Nat.or_assoc, ← Nat.shiftLeft_add_eq_or_of_lt hlow, rev4, Nat.shiftLeft_eq, pow_succ, pow_mul]
    congr 1
    ring

/-- An entry of the table of width `2q+1` (R82): the doubled reversal of the low digits, and the top bit. -/
theorem brtOfWidth_odd (q j : Nat) : brtOfWidth (2 * q + 1) j = 2 * rev4 q j + j / 4 ^ q % 2 := by
  have htop : (j >>> (2 * q)) &&& 1 = j / 4 ^ q % 2 := by
    rw [Nat.and_one_is_mod, Nat.shiftRight_eq_div_pow, pow_mul, show 2 ^ 2 = 4 from rfl]
  have hor := Nat.two_pow_add_eq_or_of_lt (show j / 4 ^ q % 2 < 2 ^ 1 by omega) (rev4 q j)
  have hloop := foldl_placeDigit q j (j / 4 ^ q % 2)
  rw [Nat.or_comm, ← hor] at hloop
  rw [← hloop, brtOfWidth, show (2 * q + 1 - 1) / 2 = q by omega, show 2 * q + 1 - 1 = 2 * q by omega, htop]
  rfl

/-- WIDTH is odd (R36): the digits of an index and its top bit. -/
theorem exists_width_eq {p : Nat} (hp : 1 ≤ p) : ∃ q, width (2 ^ p) = 2 * q + 1 :=
  ⟨(width (2 ^ p) - 1) / 2, by rw [width_two_pow]; split <;> omega⟩

section
variable {p q : Nat}

/-- An entry of the lower half, the part the engine uses (R83). -/
theorem brt_lower (hw : width (2 ^ p) = 2 * q + 1) {t : Nat} (ht : t < 4 ^ q) :
    brt (2 ^ p) t = 2 * rev4 q t := by
  rw [brt, hw, brtOfWidth_odd, Nat.div_eq_of_lt ht]
  rfl

/-- The upper half repeats the lower one with bit 0 set (R82). -/
theorem brt_upper (hw : width (2 ^ p) = 2 * q + 1) {t : Nat} (ht : t < 4 ^ q) :
    brt (2 ^ p) (t + 4 ^ q) = 2 * rev4 q t + 1 := by
  have hpos : 0 < 4 ^ q := Nat.pow_pos (by norm_num)
  rw [brt, hw, brtOfWidth_odd, rev4_add_four_pow, Nat.add_div_right _ hpos, Nat.div_eq_of_lt ht]

/-- The groups and the positions of a group split a sample's index by division (R83, R94). -/
theorem existsUnique_reader {x n : Nat} (hx : x < 4 ^ q * n) :
    ∃! r : Nat × Nat, r.1 < 4 ^ q ∧ r.2 < n ∧ 2 * rev4 q r.1 + r.2 * (2 * 4 ^ q) = 2 * x := by
  have hpos : 0 < 4 ^ q := Nat.pow_pos (by norm_num)
  obtain ⟨hmaps, hinj, hsurj⟩ := rev4_bijOn q
  obtain ⟨t, ht, hrev⟩ := hsurj (Set.mem_Iio.mpr (Nat.mod_lt x hpos))
  have hsplit := Nat.div_add_mod x (4 ^ q)
  refine ⟨(t, x / 4 ^ q), ⟨ht, Nat.div_lt_of_lt_mul hx, ?_⟩, fun r ⟨hr1, hr2, hr⟩ => ?_⟩
  · rw [hrev]
    linarith
  · have hxr : x = 4 ^ q * r.2 + rev4 q r.1 := by linarith
    have hdiv : x / 4 ^ q = r.2 := by
      rw [hxr, Nat.mul_add_div hpos, Nat.div_eq_of_lt (rev4_lt q _), Nat.add_zero]
    have hmod : x % 4 ^ q = rev4 q r.1 := by
      rw [hxr, Nat.mul_add_mod, Nat.mod_eq_of_lt (rev4_lt q _)]
    exact Prod.ext (hinj hr1 ht (by rw [hrev, hmod])) hdiv.symm

end

/-- Settles O37: below the top bit an entry is the doubled digit reversal, which is a permutation. -/
theorem bitReversalReadsEachPositionOnce : Obligations.BitReversalReadsEachPositionOnce := by
  intro p hp
  obtain ⟨q, hw⟩ := exists_width_eq hp
  have hhalf : 2 ^ (width (2 ^ p) - 1) = 4 ^ q := by
    rw [hw, Nat.add_sub_cancel, pow_mul, show 2 ^ 2 = 4 from rfl]
  have hfull : 2 ^ width (2 ^ p) = 2 * 4 ^ q := by rw [← hhalf, hw, ← pow_succ', Nat.add_sub_cancel]
  have hdigits : (width (2 ^ p) - 1) / 2 = q := by omega
  have hsize : 4 ^ q * (len0 (2 ^ p) / 2) = 2 ^ p := by
    have htile := groups_mul_len0 hp
    rw [hhalf, ← Nat.div_mul_cancel (show 2 ∣ len0 (2 ^ p) by rw [len0_two_pow hp]; split <;> decide),
      ← Nat.mul_assoc] at htile
    omega
  rw [hhalf, hfull, hdigits]
  refine ⟨fun t ht => ?_, rev4_bijOn q, fun x hx => ?_, fun j hlo hhi => ?_⟩
  · have := rev4_lt q t
    rw [brt_lower hw ht]
    omega
  · obtain ⟨r, ⟨h1, h2, h⟩, huniq⟩ := existsUnique_reader (hsize.symm ▸ hx)
    exact ⟨r, ⟨h1, h2, by rwa [brt_lower hw h1]⟩,
      fun r' ⟨h1', h2', h'⟩ => huniq r' ⟨h1', h2', by rwa [brt_lower hw h1'] at h'⟩⟩
  · obtain ⟨t, rfl⟩ := Nat.exists_eq_add_of_le' hlo
    have ht : t < 4 ^ q := by omega
    rw [Nat.add_sub_cancel, brt_upper hw ht, brt_lower hw ht]
    omega

end Sys2Proof.Machine

/-! ## The twiddle table by quadrants: nesting and the exact entries (40_plan_and_control.md R77 to R79) -/

namespace Sys2Proof.Machine

/-! ### Rounding a fixed-point number -/

/-- The magnitude bits of a fixed-point number. -/
def fixMag (v : Nat) : Nat := roundMag (v * 2 ^ (1074 - fixBits)) 1

theorem fixWord_eq (neg : Bool) (v : Nat) : fixWord neg v = pack (neg && fixMag v != 0) (fixMag v) := rfl

theorem fixMag_lt (v : Nat) : fixMag v < 2 ^ 63 := lt_of_le_infMag (roundMag_le _ _)

theorem fixWord_eq_plusZero {v : Nat} (h : fixMag v = 0) (neg : Bool) : fixWord neg v = plusZero := by
  rw [fixWord_eq, h, bne_self_eq_false, Bool.and_false]
  rfl

theorem fixWord_of_ne_zero {v : Nat} (h : fixMag v ≠ 0) (neg : Bool) : fixWord neg v = pack neg (fixMag v) := by
  rw [fixWord_eq, bne_iff_ne.mpr h, Bool.and_true]

/-- Both signs of a number give the same magnitude, and only a zero has no sign to flip (R18). -/
theorem fixWord_not {v : Nat} (h : fixMag v ≠ 0) (neg : Bool) : fixWord (!neg) v = fneg (fixWord neg v) := by
  rw [fixWord_of_ne_zero h, fixWord_of_ne_zero h, fneg_pack _ (fixMag_lt v)]

/-- A rounded number that is a zero is `+0` (R18). -/
theorem fixWord_of_isZeroWord {neg : Bool} {v : Nat} (h : isZeroWord (fixWord neg v) = true) :
    fixWord neg v = plusZero := by
  rw [isZeroWord_iff, fixWord_eq, magBits_pack _ (fixMag_lt v)] at h
  exact fixWord_eq_plusZero h neg

/-- A whole number of units is not rounded to zero. -/
theorem roundMag_ne_zero {p : Nat} (hp : 0 < p) : roundMag p 1 ≠ 0 := by
  have hinf : 0 < infMag := by decide
  obtain ⟨m, n, h, heq⟩ := roundMag_roundsTo p one_pos
  have hm : 0 < m := by
    by_contra hm
    have hup := h.upper
    obtain rfl : m = 0 := by omega
    rw [Nat.cast_one, div_one, show bitsUnits (0 + 1) = 1 from rfl] at hup
    have : p < 1 := by exact_mod_cast hup
    omega
  have := h.choice
  omega

theorem fixMag_ne_zero {v : Nat} (hv : 0 < v) : fixMag v ≠ 0 :=
  roundMag_ne_zero (Nat.mul_pos hv (Nat.two_pow_pos _))

theorem fixMag_zero : fixMag 0 = 0 := by
  rw [fixMag, Nat.zero_mul]
  decide

theorem fixMag_one : fixMag fixOne = 1022 * 2 ^ 52 + 2 ^ 52 := by
  have hunits : fixOne * 2 ^ (1074 - fixBits) = bitsUnits (1022 * 2 ^ 52 + 2 ^ 52) * 1 := by
    rw [bitsUnits_significand (.inr le_rfl) (by norm_num), Nat.mul_one, fixOne, ← pow_add, ← pow_add,
      show fixBits + (1074 - fixBits) = 52 + 1022 from rfl]
  rw [fixMag, roundMag_exact Nat.one_pos hunits, infMag_eq]
  norm_num

theorem fixWord_zero (neg : Bool) : fixWord neg 0 = plusZero := fixWord_eq_plusZero fixMag_zero neg

theorem fixWord_one (neg : Bool) : fixWord neg fixOne = if neg then minusOne else plusOne := by
  rw [fixWord_of_ne_zero (by rw [fixMag_one]; norm_num), fixMag_one]
  cases neg <;> rfl

/-! ### Quadrants -/

/-- The rounded cosine and sine of the angle of `P`, a point of the first quadrant, turned by `q` quarter
turns. -/
def quadrantWords (P : CirclePt) : Nat → Word × Word
  | 0 => (fixWord false P.cos, fixWord false P.sin)
  | 1 => (fixWord true P.sin, fixWord false P.cos)
  | 2 => (fixWord true P.cos, fixWord true P.sin)
  | _ => (fixWord false P.sin, fixWord true P.cos)

theorem quadrantWords_zero (P : CirclePt) :
    quadrantWords P 0 = (fixWord false P.cos, fixWord false P.sin) := rfl

theorem quadrantWords_one (P : CirclePt) :
    quadrantWords P 1 = (fixWord true P.sin, fixWord false P.cos) := rfl

theorem quadrantWords_two (P : CirclePt) :
    quadrantWords P 2 = (fixWord true P.cos, fixWord true P.sin) := rfl

theorem quadrantWords_three (P : CirclePt) :
    quadrantWords P 3 = (fixWord false P.sin, fixWord true P.cos) := rfl

/-- With `H = N/2 = 2^k`, index `q*H + r` lies in quadrant `q`. -/
theorem roundedCosSin_quadrant {k q r : Nat} (hr : r < 2 ^ k) :
    roundedCosSin (2 ^ (k + 1)) (q * 2 ^ k + r) = quadrantWords (quadrantPt (k + 1) r) q := by
  have hpos := Nat.two_pow_pos k
  have hhalf : 2 ^ (k + 1) / 2 = 2 ^ k := by rw [pow_succ, Nat.mul_div_cancel _ two_pos]
  have hrest : (q * 2 ^ k + r) % 2 ^ k = r := by rw [Nat.mul_comm, Nat.mul_add_mod, Nat.mod_eq_of_lt hr]
  have hquad : (q * 2 ^ k + r) * 2 / 2 ^ (k + 1) = q := by
    rw [pow_succ, Nat.mul_div_mul_right _ _ two_pos, Nat.mul_comm, Nat.mul_add_div hpos,
      Nat.div_eq_of_lt hr, Nat.add_zero]
  simp only [roundedCosSin, power_two_pow, hhalf, hrest, hquad]
  rfl

theorem roundedCosSin_eq (k i : Nat) :
    roundedCosSin (2 ^ (k + 1)) i = quadrantWords (quadrantPt (k + 1) (i % 2 ^ k)) (i / 2 ^ k) :=
  (congrArg _ (Nat.div_add_mod' i (2 ^ k)).symm).trans (roundedCosSin_quadrant (Nat.mod_lt i (Nat.two_pow_pos k)))

theorem twt_even {i : Nat} (hi : i % 2 = 0) (N : Nat) : twt N i = (roundedCosSin N i).1 := by
  rw [twt, if_pos hi, twPair]

theorem twt_odd {i : Nat} (hi : i % 2 = 0) (N : Nat) : twt N (i + 1) = fneg (roundedCosSin N i).2 := by
  rw [twt, if_neg (by omega), twPair, Nat.add_sub_cancel]

/-! ### Nesting -/

/-- A zero bit below the others halves the unit of turning once more and turns by nothing. -/
theorem rotate_double (r m : Nat) (unit acc : CirclePt) :
    rotate (2 * r) (m + 1) unit acc = rotate r m unit acc := by
  induction m generalizing unit acc with
  | zero => simp [rotate]
  | succ m ih => rw [rotate, ih, rotate, Nat.testBit_succ, Nat.mul_div_cancel_left _ two_pos]

theorem octantPt_double {p : Nat} (hp : 1 ≤ p) (r : Nat) : octantPt (p + 1) (2 * r) = octantPt p r := by
  obtain ⟨k, rfl⟩ := Nat.exists_eq_add_of_le' hp
  exact rotate_double r k _ _

theorem quadrantPt_double {p : Nat} (hp : 1 ≤ p) (r : Nat) : quadrantPt (p + 1) (2 * r) = quadrantPt p r := by
  obtain ⟨k, rfl⟩ := Nat.exists_eq_add_of_le' hp
  have hoctant : 4 * (2 * r) ≤ 2 ^ (k + 1 + 1) ↔ 4 * r ≤ 2 ^ (k + 1) := by rw [pow_succ _ (k + 1)]; omega
  have hmirror : 2 ^ (k + 1 + 1) / 2 - 2 * r = 2 * (2 ^ (k + 1) / 2 - r) := by
    rw [pow_succ _ (k + 1), pow_succ]; omega
  simp only [quadrantPt, hoctant, hmirror, octantPt_double hp]

/-- The table nests in that of twice the size (R79). -/
theorem roundedCosSin_double {p : Nat} (hp : 1 ≤ p) (i : Nat) :
    roundedCosSin (2 ^ (p + 1)) (2 * i) = roundedCosSin (2 ^ p) i := by
  obtain ⟨k, rfl⟩ := Nat.exists_eq_add_of_le' hp
  rw [roundedCosSin_eq, roundedCosSin_eq, pow_succ', Nat.mul_mod_mul_left, Nat.mul_div_mul_left _ _ two_pos,
    quadrantPt_double hp]

/-! ### The exact entries -/

theorem rotate_zero (m : Nat) (unit acc : CirclePt) : rotate 0 m unit acc = acc := by
  induction m generalizing unit with
  | zero => rfl
  | succ m ih => rw [rotate, Nat.zero_testBit, if_neg Bool.false_ne_true, ih]

@[simp] theorem quadrantPt_zero (p : Nat) : quadrantPt p 0 = .start := by
  rw [quadrantPt, if_pos (Nat.zero_le _), octantPt, rotate_zero]

/-- The entries at the quarter turns (R78). -/
theorem roundedCosSin_quarter (k q : Nat) :
    roundedCosSin (2 ^ (k + 1)) (q * 2 ^ k) = quadrantWords .start q := by
  simpa using roundedCosSin_quadrant (q := q) (Nat.two_pow_pos k)

/-- The four quarter turns: (1, 0), (0, 1), (-1, 0), (0, -1), with every zero `+0`. -/
theorem quadrantWords_start :
    quadrantWords .start 0 = (plusOne, plusZero) ∧ quadrantWords .start 1 = (plusZero, plusOne) ∧
    quadrantWords .start 2 = (minusOne, plusZero) ∧ quadrantWords .start 3 = (plusZero, minusOne) := by
  rw [quadrantWords_zero, quadrantWords_one, quadrantWords_two, quadrantWords_three, CirclePt.start]
  dsimp only
  rw [fixWord_one, fixWord_one, fixWord_zero, fixWord_zero]
  exact ⟨rfl, rfl, rfl, rfl⟩

/-- Settles O36: the four entries are the quarter turns of the point at angle 0. -/
theorem twiddleExactEntries : Obligations.TwiddleExactEntries := by
  intro p hp _
  obtain ⟨k, rfl⟩ := Nat.exists_eq_add_of_le' hp
  obtain ⟨h0, h1, h2, h3⟩ := quadrantWords_start
  have hN : 2 ^ (k + 1) = 2 * 2 ^ k := pow_succ' 2 k
  have e0 : roundedCosSin (2 ^ (k + 1)) 0 = (plusOne, plusZero) := by
    rw [← h0, ← roundedCosSin_quarter k, Nat.zero_mul]
  have e2 : roundedCosSin (2 ^ (k + 1)) (2 ^ (k + 1)) = (minusOne, plusZero) := by
    rw [← h2, ← roundedCosSin_quarter k, hN]
  refine ⟨⟨?_, ?_⟩, ⟨?_, ?_⟩, fun h2p => ?_⟩
  · rw [twt_even rfl, e0]; rfl
  · rw [twt_odd rfl, e0]; rfl
  · rw [twt_even (by omega), e2]; rfl
  · rw [twt_odd (by omega), e2]; rfl
  · have heven : 2 ^ k % 2 = 0 := Nat.two_pow_mod_two_eq_zero.mpr (by omega)
    have i1 : 2 ^ (k + 1) / 2 = 1 * 2 ^ k := by omega
    have i3 : 3 * 2 ^ (k + 1) / 2 = 3 * 2 ^ k := by omega
    rw [i1, i3, twt_even (by omega), twt_odd (by omega), twt_even (by omega), twt_odd (by omega),
      roundedCosSin_quarter, roundedCosSin_quarter, h1, h3]
    exact ⟨rfl, rfl, rfl, rfl⟩

end Sys2Proof.Machine

/-! ## The precision of the fixed-point points of the circle (40_plan_and_control.md R77; log 9) -/

namespace Sys2Proof.Machine

/-! ### Rounding in fixed point -/

theorem fixOne_cast : (fixOne : ℝ) = 2 ^ 192 := by rw [fixOne, fixBits, Nat.cast_pow, Nat.cast_ofNat]

theorem fixOne_pos : (0 : ℝ) < fixOne := by rw [fixOne_cast]; positivity

/-- A division that rounds down, of a difference cut off at zero, is off by one place at most. -/
theorem abs_natDiv_sub_le {a b d : Nat} (hd : 0 < d) {x : ℝ} (hx : 0 ≤ x) :
    |(((a - b) / d : Nat) : ℝ) - x| ≤ |((a : ℝ) - b) / d - x| + 1 := by
  have hd' : (0 : ℝ) < d := by exact_mod_cast hd
  obtain hab | hab := Nat.le_total a b
  · have hab' : ((a : ℝ) - b) / d ≤ 0 :=
      div_nonpos_of_nonpos_of_nonneg (sub_nonpos.mpr (by exact_mod_cast hab)) hd'.le
    rw [Nat.sub_eq_zero_of_le hab, Nat.zero_div, Nat.cast_zero, zero_sub, abs_neg, abs_of_nonneg hx,
      abs_of_nonpos (by linarith)]
    linarith
  · have hlo : (((a - b) / d : Nat) : ℝ) ≤ ((a : ℝ) - b) / d := by
      rw [← Nat.cast_sub hab]
      exact Nat.cast_div_le
    have hhi : ((a : ℝ) - b) / d < ((a - b) / d : Nat) + 1 := by
      rw [← Nat.cast_sub hab, div_lt_iff₀ hd']
      exact_mod_cast Nat.lt_mul_of_div_lt (Nat.lt_succ_self _) hd
    have hfloor : |(((a - b) / d : Nat) : ℝ) - ((a : ℝ) - b) / d| ≤ 1 := abs_le.mpr ⟨by linarith, by linarith⟩
    linarith [abs_sub_le (((a - b) / d : Nat) : ℝ) (((a : ℝ) - b) / d) x]

/-- The product of two approximate values of the unit interval. -/
theorem abs_mul_div_sub_le {O p q x y e f : ℝ} (hO : 0 < O) (hp : |p - O * x| ≤ e) (hq : |q - O * y| ≤ f)
    (hx : |x| ≤ 1) (hy : |y| ≤ 1) : |p * q / O - O * (x * y)| ≤ e + f + e * f / O := by
  have he : 0 ≤ e := (abs_nonneg _).trans hp
  have hsplit : p * q / O - O * (x * y) = (p - O * x) * (q / O) + x * (q - O * y) := by
    field_simp
    ring
  have hqO : |q / O| ≤ 1 + f / O := by
    have : q / O = y + (q - O * y) / O := by field_simp; ring
    rw [this]
    refine (abs_add_le _ _).trans (add_le_add hy ?_)
    rw [abs_div, abs_of_pos hO]
    exact div_le_div_of_nonneg_right hq hO.le
  calc |p * q / O - O * (x * y)| ≤ |p - O * x| * |q / O| + |x| * |q - O * y| := by
        rw [hsplit, ← abs_mul, ← abs_mul]
        exact abs_add_le _ _
    _ ≤ e * (1 + f / O) + 1 * f :=
        add_le_add (mul_le_mul hp hqO (abs_nonneg _) he) (mul_le_mul hx hq (abs_nonneg _) zero_le_one)
    _ = e + f + e * f / O := by ring

/-! ### Points near an angle -/

/-- The coordinates of `P` are within `ec` and `es` places of those of the exact point at angle `x`. -/
structure CirclePt.Near (P : CirclePt) (x ec es : ℝ) : Prop where
  cos : |(P.cos : ℝ) - fixOne * Real.cos x| ≤ ec
  sin : |(P.sin : ℝ) - fixOne * Real.sin x| ≤ es

theorem CirclePt.Near.mono {P : CirclePt} {x ec es ec' es' : ℝ} (h : P.Near x ec es) (hc : ec ≤ ec')
    (hs : es ≤ es') : P.Near x ec' es' := ⟨h.cos.trans hc, h.sin.trans hs⟩

theorem start_near : CirclePt.start.Near 0 0 0 := by constructor <;> simp [CirclePt.start]

theorem quarter_near : CirclePt.quarter.Near (Real.pi / 2) 0 0 := by constructor <;> simp [CirclePt.quarter]

/-- Exchanging the coordinates is the mirror image in the first octant's end. -/
theorem CirclePt.Near.mirror {P : CirclePt} {x ec es : ℝ} (h : P.Near x ec es) :
    CirclePt.Near { cos := P.sin, sin := P.cos } (Real.pi / 2 - x) es ec :=
  ⟨by rw [Real.cos_pi_div_two_sub]; exact h.sin, by rw [Real.sin_pi_div_two_sub]; exact h.cos⟩

/-! ### Adding an angle -/

/-- Turning by a unit at most doubles the error, up to a few places. -/
theorem CirclePt.Near.turn {P Q : CirclePt} {x y e : ℝ} (hP : P.Near x e e) (hQ : Q.Near y 2 16)
    (he : e ≤ 2 ^ 100) (hx : 0 ≤ x) (hy : 0 ≤ y) (hxy : x + y ≤ Real.pi / 2) :
    (P.turn Q).Near (x + y) (2 * e + 64) (2 * e + 64) := by
  have hO := fixOne_pos
  have hsmall : e + 16 + e * 16 / fixOne ≤ e + 31 := by
    have : e * 16 / fixOne ≤ 1 := by
      rw [div_le_one hO, fixOne_cast]
      exact (mul_le_mul_of_nonneg_right he (by norm_num)).trans (by norm_num)
    linarith
  have hQ' := hQ.mono (show (2 : ℝ) ≤ 16 by norm_num) le_rfl
  have hmul : ∀ {a b : Nat} {u v : ℝ}, |(a : ℝ) - fixOne * u| ≤ e → |(b : ℝ) - fixOne * v| ≤ 16 →
      |u| ≤ 1 → |v| ≤ 1 → |(a : ℝ) * b / fixOne - fixOne * (u * v)| ≤ e + 31 := fun ha hb hu hv =>
    (abs_mul_div_sub_le hO ha hb hu hv).trans hsmall
  have hcc := abs_le.mp (hmul hP.cos hQ'.cos (Real.abs_cos_le_one x) (Real.abs_cos_le_one y))
  have hss := abs_le.mp (hmul hP.sin hQ'.sin (Real.abs_sin_le_one x) (Real.abs_sin_le_one y))
  have hsc := abs_le.mp (hmul hP.sin hQ'.cos (Real.abs_sin_le_one x) (Real.abs_cos_le_one y))
  have hcs := abs_le.mp (hmul hP.cos hQ'.sin (Real.abs_cos_le_one x) (Real.abs_sin_le_one y))
  have hcos : 0 ≤ Real.cos (x + y) := Real.cos_nonneg_of_neg_pi_div_two_le_of_le (by linarith) hxy
  have hsin : 0 ≤ Real.sin (x + y) := Real.sin_nonneg_of_nonneg_of_le_pi (by linarith) (by linarith [Real.pi_pos])
  constructor
  · refine (abs_natDiv_sub_le (by exact_mod_cast hO) (mul_nonneg hO.le hcos)).trans ?_
    rw [← le_sub_iff_add_le, Real.cos_add, Nat.cast_mul, Nat.cast_mul, sub_div, mul_sub, abs_le]
    constructor <;> linarith [hcc.1, hcc.2, hss.1, hss.2]
  · have hdiv := abs_natDiv_sub_le (a := P.sin * Q.cos + P.cos * Q.sin) (b := 0) (by exact_mod_cast hO)
      (mul_nonneg hO.le hsin)
    refine hdiv.trans ?_
    rw [← le_sub_iff_add_le, Real.sin_add, Nat.cast_zero, sub_zero, Nat.cast_add, Nat.cast_mul, Nat.cast_mul,
      add_div, mul_add, abs_le]
    constructor <;> linarith [hsc.1, hsc.2, hcs.1, hcs.2]

/-! ### Halving an angle -/

/-- `c` is the square root of `n`, rounded down. -/
abbrev IsFloorSqrt (n c : Nat) : Prop := c * c ≤ n ∧ n < (c + 1) * (c + 1)

/-- The radicand of the half-angle formula. -/
def CirclePt.radicand (P : CirclePt) : Nat := (fixOne + P.cos) * 2 ^ (fixBits - 1)

/-- A root rounded down, of a radicand within `O` of the square of `O * u`, is within 2 of `O * u`. -/
theorem abs_floorSqrt_sub_le {n c : Nat} {O u : ℝ} (hO : 100 ≤ O) (hu : 7 / 10 ≤ u) (hc : IsFloorSqrt n c)
    (hn : |(n : ℝ) - O * u * (O * u)| ≤ O) : |(c : ℝ) - O * u| ≤ 2 := by
  obtain ⟨hlo, hhi⟩ := hc
  have hlo' : (c : ℝ) * c ≤ n := by exact_mod_cast hlo
  have hhi' : (n : ℝ) < (c + 1) * (c + 1) := by exact_mod_cast hhi
  have hc0 : (0 : ℝ) ≤ c := Nat.cast_nonneg c
  have hOu : 7 / 10 * O ≤ O * u := by nlinarith
  obtain ⟨hn1, hn2⟩ := abs_le.mp hn
  generalize O * u = w at *
  rw [abs_le]
  constructor <;> by_contra hfar <;> nlinarith

/-- An angle up to an eighth of a turn has a cosine above 7/10. -/
theorem cos_ge_of_le_pi_div_four {x : ℝ} (hx : 0 ≤ x) (hx' : x ≤ Real.pi / 4) : 7 / 10 ≤ Real.cos x := by
  have hpi := Real.pi_pos
  have hcos : 0 ≤ Real.cos x := Real.cos_nonneg_of_neg_pi_div_two_le_of_le (by linarith) (by linarith)
  have hdouble : 0 ≤ Real.cos (2 * x) :=
    Real.cos_nonneg_of_neg_pi_div_two_le_of_le (by linarith) (by linarith)
  rw [Real.cos_two_mul] at hdouble
  nlinarith

theorem radicand_cast (P : CirclePt) : (P.radicand : ℝ) = (fixOne + P.cos) * (fixOne / 2) := by
  have hhalf : (2 : ℝ) ^ (fixBits - 1) = fixOne / 2 := by
    rw [fixOne_cast, fixBits]
    norm_num
  rw [CirclePt.radicand, Nat.cast_mul, Nat.cast_add, Nat.cast_pow, Nat.cast_ofNat, hhalf]

/-- Halving keeps the error of a unit bounded: the root is well conditioned, and the quotient halves the sine's
error before it adds its own. -/
theorem CirclePt.Near.halve {P : CirclePt} {x : ℝ} (h : P.Near (2 * x) 2 16) (hx : 0 ≤ x)
    (hx' : x ≤ Real.pi / 4) (hsqrt : IsFloorSqrt P.radicand (fixSqrt P.radicand)) : P.halve.Near x 2 16 := by
  have hO : (100 : ℝ) ≤ fixOne := by rw [fixOne_cast]; norm_num
  have hu := cos_ge_of_le_pi_div_four hx hx'
  have hv0 : 0 ≤ Real.sin x := Real.sin_nonneg_of_nonneg_of_le_pi hx (by linarith [Real.pi_pos])
  have hv1 := Real.sin_le_one x
  obtain ⟨hcos, hsin⟩ := h
  rw [Real.cos_two_mul, abs_le] at hcos
  rw [Real.sin_two_mul, abs_le] at hsin
  have hroot : |(P.halve.cos : ℝ) - fixOne * Real.cos x| ≤ 2 := by
    refine abs_floorSqrt_sub_le hO hu hsqrt ?_
    rw [radicand_cast, abs_le]
    constructor <;> nlinarith
  obtain ⟨hroot1, hroot2⟩ := abs_le.mp hroot
  have hc : 2 / 3 * (fixOne : ℝ) ≤ P.halve.cos := by nlinarith
  have hc0 : (0 : ℝ) < 2 * P.halve.cos := by linarith
  have hdiff : (P.sin * fixOne : ℝ) / (2 * P.halve.cos) - fixOne * Real.sin x
      = (P.sin - 2 * P.halve.cos * Real.sin x) * fixOne / (2 * P.halve.cos) := by
    rw [div_sub' hc0.ne']
    ring
  have hnum : |(P.sin : ℝ) - 2 * P.halve.cos * Real.sin x| ≤ 20 := by
    rw [abs_le]
    constructor <;> nlinarith
  refine ⟨hroot, (abs_natDiv_sub_le (a := P.sin * fixOne) (b := 0) (d := 2 * P.halve.cos)
    (by exact_mod_cast hc0) (mul_nonneg (by linarith) hv0)).trans ?_⟩
  rw [← le_sub_iff_add_le, Nat.cast_zero, sub_zero, Nat.cast_mul, Nat.cast_mul, Nat.cast_ofNat, hdiff, abs_div,
    abs_of_pos hc0, div_le_iff₀ hc0, abs_mul, abs_of_nonneg (show (0 : ℝ) ≤ fixOne by linarith)]
  nlinarith

/-! ### The units of turning -/

/-- The angle `pi * r / 2^p` of index `r` at size `2^p` (R77). -/
noncomputable def gridAngle (p r : Nat) : ℝ := Real.pi * r / 2 ^ p

@[simp] theorem gridAngle_zero (p : Nat) : gridAngle p 0 = 0 := by simp [gridAngle]

theorem gridAngle_add (p r s : Nat) : gridAngle p (r + s) = gridAngle p r + gridAngle p s := by
  rw [gridAngle, Nat.cast_add, mul_add, add_div, gridAngle, gridAngle]

theorem gridAngle_mul_two_pow (p r m : Nat) : gridAngle (p + m) (r * 2 ^ m) = gridAngle p r := by
  rw [gridAngle, gridAngle, pow_add, Nat.cast_mul, Nat.cast_pow, Nat.cast_ofNat, ← mul_assoc,
    mul_div_mul_right _ _ (by positivity)]

theorem gridAngle_mono (p : Nat) {r s : Nat} (h : r ≤ s) : gridAngle p r ≤ gridAngle p s := by
  have hrs : (r : ℝ) ≤ s := by exact_mod_cast h
  exact div_le_div_of_nonneg_right (mul_le_mul_of_nonneg_left hrs Real.pi_pos.le) (by positivity)

theorem gridAngle_nonneg (p r : Nat) : 0 ≤ gridAngle p r :=
  (gridAngle_zero p).ge.trans (gridAngle_mono p (Nat.zero_le r))

theorem gridAngle_half (k : Nat) : gridAngle (k + 1) (2 ^ k) = Real.pi / 2 := by
  rw [← Nat.one_mul (2 ^ k), Nat.add_comm k 1, gridAngle_mul_two_pow, gridAngle, Nat.cast_one, mul_one, pow_one]

theorem gridAngle_le_pi_div_two {p r : Nat} (h : 2 * r ≤ 2 ^ p) : gridAngle p r ≤ Real.pi / 2 := by
  have hcast : 2 * (r : ℝ) ≤ 2 ^ p := by exact_mod_cast h
  rw [gridAngle, div_le_div_iff₀ (by positivity) two_pos, mul_assoc, mul_comm (r : ℝ)]
  exact mul_le_mul_of_nonneg_left hcast Real.pi_pos.le

/-- The point at angle `pi / 2^(k+1)`, the unit of turning after `k` halvings of a quarter turn. -/
def unitPt : Nat → CirclePt
  | 0 => .quarter
  | k + 1 => (unitPt k).halve

/-- The roots that the legal sizes take are exact floors: the 23 evaluations of `fixSqrt` that any table makes. -/
theorem fixSqrt_unitPt : ∀ k < 23, IsFloorSqrt (unitPt k).radicand (fixSqrt (unitPt k).radicand) := by
  decide +kernel

theorem unitPt_near {k : Nat} (hk : k ≤ 23) : (unitPt k).Near (gridAngle (k + 1) 1) 2 16 := by
  induction k with
  | zero =>
    rw [show gridAngle (0 + 1) 1 = Real.pi / 2 from gridAngle_half 0]
    exact quarter_near.mono (by norm_num) (by norm_num)
  | succ k ih =>
    have hdouble : 2 * gridAngle (k + 1 + 1) 1 = gridAngle (k + 1) 1 := by
      rw [two_mul]
      exact (gridAngle_add _ 1 1).symm.trans (gridAngle_mul_two_pow (k + 1) 1 1)
    have hle : gridAngle (k + 1 + 1) 1 ≤ Real.pi / 4 := by
      have := gridAngle_mono (k + 1) (Nat.one_le_two_pow (n := k))
      rw [gridAngle_half] at this
      linarith
    exact CirclePt.Near.halve (hdouble ▸ ih (by omega)) (gridAngle_nonneg _ _) hle (fixSqrt_unitPt k (by omega))

/-! ### The points of a quadrant -/

/-- The bits of `r` from bit `m` on, by those from bit `m + 1` on. -/
theorem highBits_eq (r m : Nat) :
    r / 2 ^ m * 2 ^ m = r / 2 ^ (m + 1) * 2 ^ (m + 1) + if r.testBit m then 2 ^ m else 0 := by
  have hsplit := Nat.div_add_mod (r / 2 ^ m) 2
  have hbit : (if r.testBit m then 2 ^ m else 0) = r / 2 ^ m % 2 * 2 ^ m := by
    rw [Nat.testBit_eq_decide_div_mod_eq]
    obtain h | h := Nat.mod_two_eq_zero_or_one (r / 2 ^ m) <;> simp [h]
  rw [hbit, pow_succ, ← Nat.div_div_eq_div_mul, ← Nat.mul_assoc, Nat.mul_right_comm, ← Nat.add_mul,
    Nat.mul_comm _ 2, hsplit]

/-- With the bits of `r` from bit `m` on turned by, turning by the others leads to the angle of `r`; the error at
most doubles at each bit. -/
theorem rotate_near {p r m k : Nat} {acc : CirclePt} {e : ℝ} (hp : k + 1 + m = p) (hp24 : p ≤ 24)
    (hr : 2 * r ≤ 2 ^ p) (he : 0 ≤ e) (hbound : (e + 64) * 2 ^ m ≤ 2 ^ 100)
    (hacc : acc.Near (gridAngle p (r / 2 ^ m * 2 ^ m)) e e) :
    (rotate r m (unitPt k) acc).Near (gridAngle p r) ((e + 64) * 2 ^ m) ((e + 64) * 2 ^ m) := by
  induction m generalizing k acc e with
  | zero =>
    simp only [pow_zero, Nat.div_one, mul_one, rotate] at hacc ⊢
    exact hacc.mono (by linarith) (by linarith)
  | succ m ih =>
    have hunit : gridAngle p (2 ^ m) = gridAngle (k + 1 + 1) 1 := by
      rw [← gridAngle_mul_two_pow (k + 1 + 1) 1 m, Nat.one_mul, ← hp, Nat.add_right_comm (k + 1) 1 m,
        Nat.add_assoc (k + 1)]
    have hdouble : (e + 64) * 2 ^ (m + 1) = (2 * e + 64 + 64) * 2 ^ m := by rw [pow_succ]; ring
    have hsmall : e ≤ 2 ^ 100 := by
      have : (1 : ℝ) ≤ 2 ^ (m + 1) := one_le_pow₀ (by norm_num)
      nlinarith
    have hbits := highBits_eq r m
    rw [hdouble] at hbound ⊢
    rw [rotate]
    refine ih (k := k + 1) (by omega) (by linarith) hbound ?_
    split at hbits
    case isTrue hbit =>
      rw [if_pos hbit, hbits, gridAngle_add, hunit]
      refine hacc.turn (unitPt_near (k := k + 1) (by omega)) hsmall (gridAngle_nonneg _ _) (gridAngle_nonneg _ _) ?_
      rw [← hunit, ← gridAngle_add, ← hbits]
      have := Nat.div_mul_le_self r (2 ^ m)
      exact gridAngle_le_pi_div_two (by omega)
    case isFalse hbit =>
      rw [if_neg hbit, hbits]
      exact hacc.mono (by linarith) (by linarith)

/-- The bound on the error of a table's points, of the 192 places after the binary point. -/
def errBound : Nat := 2 ^ 30

theorem octantPt_near {k r : Nat} (hk : k ≤ 23) (hr : r < 2 ^ k) :
    (octantPt (k + 1) r).Near (gridAngle (k + 1) r) errBound errBound := by
  have hgrow : ((0 : ℝ) + 64) * 2 ^ k ≤ errBound := by
    have : (2 : ℝ) ^ k ≤ 2 ^ 23 := pow_le_pow_right₀ (by norm_num) hk
    rw [errBound, Nat.cast_pow, Nat.cast_ofNat]
    linarith
  have hcap : (errBound : ℝ) ≤ 2 ^ 100 := by
    rw [errBound]
    norm_num
  have hstart : CirclePt.start.Near (gridAngle (k + 1) (r / 2 ^ k * 2 ^ k)) 0 0 := by
    rw [Nat.div_eq_of_lt hr, Nat.zero_mul, gridAngle_zero]
    exact start_near
  have hrot := rotate_near (k := 0) (by omega) (by omega) (by rw [pow_succ]; omega) le_rfl
    (hgrow.trans hcap) hstart
  exact hrot.mono hgrow hgrow

theorem gridAngle_mirror {k r : Nat} (hr : r ≤ 2 ^ k) :
    gridAngle (k + 1) (2 ^ k - r) = Real.pi / 2 - gridAngle (k + 1) r := by
  rw [eq_sub_iff_add_eq, ← gridAngle_add, Nat.sub_add_cancel hr, gridAngle_half]

theorem quadrantPt_near {k r : Nat} (hk : k ≤ 23) (hr : r < 2 ^ k) :
    (quadrantPt (k + 1) r).Near (gridAngle (k + 1) r) errBound errBound := by
  have hhalf : 2 ^ (k + 1) / 2 = 2 ^ k := by rw [pow_succ, Nat.mul_div_cancel _ two_pos]
  rw [quadrantPt, hhalf]
  split
  case isTrue => exact octantPt_near hk hr
  case isFalse hoct =>
    have hmirror := (octantPt_near hk (r := 2 ^ k - r) (by omega)).mirror
    rwa [gridAngle_mirror hr.le, sub_sub_cancel] at hmirror

/-- The sine of an angle of the table is far above the error. -/
theorem errBound_lt_sin {k r : Nat} (hk : k ≤ 23) (h0 : 0 < r) (hr : r ≤ 2 ^ k) :
    (errBound : ℝ) < fixOne * Real.sin (gridAngle (k + 1) r) := by
  have hsin := Real.mul_le_sin (gridAngle_nonneg (k + 1) r) (gridAngle_le_pi_div_two (by rw [pow_succ]; omega))
  have hgrid : 2 / Real.pi * gridAngle (k + 1) r = r / 2 ^ k := by
    rw [gridAngle, pow_succ]
    field_simp
  have hstep : (1 : ℝ) / 2 ^ 23 ≤ r / 2 ^ k :=
    div_le_div₀ (by positivity) (by exact_mod_cast h0) (by positivity) (pow_le_pow_right₀ (by norm_num) hk)
  rw [hgrid] at hsin
  calc (errBound : ℝ) < fixOne * (1 / 2 ^ 23) := by rw [errBound, fixOne_cast]; norm_num
    _ ≤ fixOne * Real.sin (gridAngle (k + 1) r) := mul_le_mul_of_nonneg_left (hstep.trans hsin) (Nat.cast_nonneg _)

/-- Off the quarter turns no coordinate is zero. -/
theorem quadrantPt_pos {k r : Nat} (hk : k ≤ 23) (h0 : 0 < r) (hr : r < 2 ^ k) :
    0 < (quadrantPt (k + 1) r).cos ∧ 0 < (quadrantPt (k + 1) r).sin := by
  obtain ⟨hcos, hsin⟩ := quadrantPt_near hk hr
  have hcos' := errBound_lt_sin hk (r := 2 ^ k - r) (by omega) (by omega)
  have hsin' := errBound_lt_sin hk h0 hr.le
  rw [gridAngle_mirror hr.le, Real.sin_pi_div_two_sub] at hcos'
  rw [abs_le] at hcos hsin
  constructor
  · have : (0 : ℝ) < (quadrantPt (k + 1) r).cos := by linarith
    exact_mod_cast this
  · have : (0 : ℝ) < (quadrantPt (k + 1) r).sin := by linarith
    exact_mod_cast this

end Sys2Proof.Machine

/-! ## The symmetries of the twiddle table (40_plan_and_control.md R79) -/

namespace Sys2Proof.Machine

section
variable {P Q : CirclePt} {k q r i : Nat}

/-! ### Mirror images in a quadrant -/

theorem fixWord_congr {v w : Nat} (h : fixMag v = fixMag w) (neg : Bool) : fixWord neg v = fixWord neg w := by
  rw [fixWord_eq, fixWord_eq, h]

/-- `Q` rounds to the mirror image of `P` in the end of the first octant. -/
structure RoundsToMirror (P Q : CirclePt) : Prop where
  cos : fixMag Q.cos = fixMag P.sin
  sin : fixMag Q.sin = fixMag P.cos

theorem octantPt_eighth (k : Nat) : octantPt (k + 2) (2 ^ k) = octantPt 2 1 := by
  induction k with
  | zero => rfl
  | succ k ih => rw [pow_succ', octantPt_double (by omega), ih]

/-- The point at `pi / 4` rounds to its own mirror image, though its coordinates differ in the last place. -/
theorem eighth_roundsToMirror : RoundsToMirror (octantPt 2 1) (octantPt 2 1) := by
  have h : fixMag (octantPt 2 1).cos = fixMag (octantPt 2 1).sin := by decide +kernel
  exact ⟨h, h.symm⟩

/-- The points of the second octant are those of the first, mirrored. -/
theorem quadrantPt_mirror (h0 : 0 < r) (hr : r < 2 ^ k) :
    RoundsToMirror (quadrantPt (k + 1) r) (quadrantPt (k + 1) (2 ^ k - r)) := by
  have hpow : 2 ^ (k + 1) = 2 * 2 ^ k := pow_succ' 2 k
  have hhalf : 2 ^ (k + 1) / 2 = 2 ^ k := by omega
  have hback : 2 ^ k - (2 ^ k - r) = r := Nat.sub_sub_self hr.le
  obtain hlt | heq | hgt := Nat.lt_trichotomy (2 * r) (2 ^ k)
  · rw [quadrantPt, if_pos (by omega), quadrantPt, if_neg (by omega), hhalf, hback]
    exact ⟨rfl, rfl⟩
  · obtain ⟨j, rfl⟩ := Nat.exists_eq_succ_of_ne_zero (show k ≠ 0 by rintro rfl; omega)
    obtain rfl : r = 2 ^ j := by rw [pow_succ'] at heq; omega
    rw [show 2 ^ (j + 1) - 2 ^ j = 2 ^ j by omega, quadrantPt, if_pos (by omega), octantPt_eighth]
    exact eighth_roundsToMirror
  · rw [quadrantPt, if_neg (by omega), quadrantPt, if_pos (by omega), hhalf]
    exact ⟨rfl, rfl⟩

/-! ### The quadrants' words under a mirror image and a half turn -/

/-- A mirror image in the axis of cosines flips the sign of the sine. -/
theorem quadrantWords_mirror (h : RoundsToMirror P Q) (hcos : fixMag P.cos ≠ 0) (hsin : fixMag P.sin ≠ 0)
    (hq : q ≤ 3) :
    quadrantWords Q (3 - q) = ((quadrantWords P q).1, fneg (quadrantWords P q).2) := by
  have hc := fixWord_congr h.cos
  have hs := fixWord_congr h.sin
  have hcn := fixWord_not hcos
  have hsn := fixWord_not hsin
  interval_cases q
  · rw [quadrantWords_three, quadrantWords_zero, hc, hs, ← hsn, Bool.not_false]
  · rw [quadrantWords_two, quadrantWords_one, hc, hs, ← hcn, Bool.not_false]
  · rw [quadrantWords_one, quadrantWords_two, hc, hs, ← hsn, Bool.not_true]
  · rw [quadrantWords_zero, quadrantWords_three, hc, hs, ← hcn, Bool.not_true]

theorem fixWord_not_of_ne {v : Nat} {neg : Bool} (h : fixWord neg v ≠ plusZero) :
    fixWord (!neg) v = fneg (fixWord neg v) := fixWord_not (fun h0 => h (fixWord_eq_plusZero h0 neg)) neg

/-- Half a turn flips the sign of every word that is not a zero. -/
theorem quadrantWords_half_turn (P : CirclePt) (hq : q < 2) :
    ((quadrantWords P q).1 ≠ plusZero → (quadrantWords P (q + 2)).1 = fneg (quadrantWords P q).1) ∧
    ((quadrantWords P q).2 ≠ plusZero → (quadrantWords P (q + 2)).2 = fneg (quadrantWords P q).2) := by
  interval_cases q <;> exact ⟨fixWord_not_of_ne, fixWord_not_of_ne⟩

/-! ### The symmetries of the rounded cosine and sine -/

theorem roundedCosSin_mirror (hk : k ≤ 23) (h0 : 0 < i) (hi : i < 4 * 2 ^ k) (hne : i ≠ 2 * 2 ^ k) :
    roundedCosSin (2 ^ (k + 1)) (4 * 2 ^ k - i) =
      ((roundedCosSin (2 ^ (k + 1)) i).1, fneg (roundedCosSin (2 ^ (k + 1)) i).2) := by
  have hpos := Nat.two_pow_pos k
  have hr := Nat.mod_lt i hpos
  have hq : i / 2 ^ k < 4 := Nat.div_lt_of_lt_mul (by omega)
  have hsplit := (Nat.div_add_mod' i (2 ^ k)).symm
  generalize i / 2 ^ k = q at hsplit hq
  generalize i % 2 ^ k = r at hsplit hr
  subst hsplit
  obtain rfl | hr0 := Nat.eq_zero_or_pos r
  · obtain ⟨-, h1, -, h3⟩ := quadrantWords_start
    simp only [Nat.add_zero] at *
    obtain rfl | rfl : q = 1 ∨ q = 3 := by interval_cases q <;> omega
    · rw [show 4 * 2 ^ k - 1 * 2 ^ k = 3 * 2 ^ k by omega, roundedCosSin_quarter, roundedCosSin_quarter, h1, h3]
      rfl
    · rw [show 4 * 2 ^ k - 3 * 2 ^ k = 1 * 2 ^ k by omega, roundedCosSin_quarter, roundedCosSin_quarter, h1, h3]
      rfl
  · have hidx : 4 * 2 ^ k - (q * 2 ^ k + r) = (3 - q) * 2 ^ k + (2 ^ k - r) := by
      interval_cases q <;> omega
    obtain ⟨hcos, hsin⟩ := quadrantPt_pos hk hr0 hr
    rw [hidx, roundedCosSin_quadrant (by omega), roundedCosSin_quadrant hr]
    exact quadrantWords_mirror (quadrantPt_mirror hr0 hr) (fixMag_ne_zero hcos) (fixMag_ne_zero hsin) (by omega)

theorem roundedCosSin_half_turn (hi : i < 2 * 2 ^ k) :
    ((roundedCosSin (2 ^ (k + 1)) i).1 ≠ plusZero →
      (roundedCosSin (2 ^ (k + 1)) (i + 2 * 2 ^ k)).1 = fneg (roundedCosSin (2 ^ (k + 1)) i).1) ∧
    ((roundedCosSin (2 ^ (k + 1)) i).2 ≠ plusZero →
      (roundedCosSin (2 ^ (k + 1)) (i + 2 * 2 ^ k)).2 = fneg (roundedCosSin (2 ^ (k + 1)) i).2) := by
  have hpos := Nat.two_pow_pos k
  rw [roundedCosSin_eq, roundedCosSin_eq, Nat.add_mul_mod_self_right, Nat.add_mul_div_right _ _ hpos]
  exact quadrantWords_half_turn _ (Nat.div_lt_of_lt_mul (by omega))

theorem roundedCosSin_quarter_turn (hi : i ≤ 2 ^ k) :
    (roundedCosSin (2 ^ (k + 1)) (2 ^ k - i)).1 = (roundedCosSin (2 ^ (k + 1)) i).2 := by
  obtain ⟨h0, h1, -, -⟩ := quadrantWords_start
  have e0 := (roundedCosSin_quarter k 0).trans h0
  have e1 := (roundedCosSin_quarter k 1).trans h1
  rw [Nat.zero_mul] at e0
  rw [Nat.one_mul] at e1
  obtain rfl | h0i := Nat.eq_zero_or_pos i
  · rw [Nat.sub_zero, e0, e1]
  obtain rfl | hlt := Nat.eq_or_lt_of_le hi
  · rw [Nat.sub_self, e0, e1]
  have hQ := roundedCosSin_quadrant (q := 0) (show 2 ^ k - i < 2 ^ k by omega)
  have hP := roundedCosSin_quadrant (q := 0) hlt
  rw [Nat.zero_mul, Nat.zero_add, quadrantWords_zero] at hQ hP
  rw [hQ, hP]
  exact fixWord_congr (quadrantPt_mirror h0i hlt).cos false

end

/-- Settles O35: each symmetry of R79 is one of the rounded cosine and sine, read at an even index. -/
theorem twiddleSymmetries : Obligations.TwiddleSymmetries := by
  intro p hp hp24 i hi
  obtain ⟨k, rfl⟩ := Nat.exists_eq_add_of_le' hp
  have hN : 2 ^ (k + 1) = 2 * 2 ^ k := pow_succ' 2 k
  have hk : k ≤ 23 := by omega
  refine ⟨fun _ => ?_, fun h0 hlt hne => ?_, fun hlt => ⟨fun hz => ?_, fun hz => ?_⟩, fun h2 hle => ?_⟩
  · rw [twt_even hi, twt_odd hi, twt_even (by omega), twt_odd (by omega), roundedCosSin_double hp]
    exact ⟨rfl, rfl⟩
  · have hmirror := roundedCosSin_mirror hk h0 (by omega) (hN ▸ hne)
    have hidx : 2 * 2 ^ (k + 1) - i = 4 * 2 ^ k - i := by omega
    rw [hidx, twt_even (by omega), twt_odd (by omega), hmirror, twt_even hi, twt_odd hi]
    exact ⟨rfl, rfl⟩
  · rw [twt_even hi] at hz ⊢
    rw [twt_even (by omega), show i + 2 ^ (k + 1) = i + 2 * 2 ^ k by omega]
    exact (roundedCosSin_half_turn (by omega)).1 hz
  · rw [twt_odd hi] at hz ⊢
    rw [twt_odd (by omega), show i + 2 ^ (k + 1) = i + 2 * 2 ^ k by omega]
    refine congrArg fneg ((roundedCosSin_half_turn (by omega)).2 fun h => hz ?_)
    rw [h]
    rfl
  · have heven : 2 ^ k % 2 = 0 := Nat.two_pow_mod_two_eq_zero.mpr (by omega)
    have hhalf : 2 ^ (k + 1) / 2 = 2 ^ k := by omega
    rw [hhalf] at hle ⊢
    rw [twt_even (by omega), twt_odd hi, fneg_fneg, roundedCosSin_quarter_turn hle]

end Sys2Proof.Machine

/-! ## The twiddle table is correctly rounded up to size 4096 (40_plan_and_control.md R77; log 9) -/

namespace Sys2Proof.Machine

/-! ### Words nearest to an interval -/

/-- The difference of two distances, as an affine function of the point they are taken to. -/
theorem abs_sub_le_abs_sub_iff (w v t : ℝ) : |w - t| ≤ |v - t| ↔ (w - v) * (w + v - 2 * t) ≤ 0 := by
  rw [← sq_le_sq]
  constructor <;> intro h <;> linarith

/-- What is nearest at both ends of an interval is nearest inside. -/
theorem abs_sub_le_of_between {a b x w v : ℝ} (hax : a ≤ x) (hxb : x ≤ b) (ha : |w - a| ≤ |v - a|)
    (hb : |w - b| ≤ |v - b|) : |w - x| ≤ |v - x| := by
  rw [abs_sub_le_abs_sub_iff] at *
  obtain h | h := le_total v w <;> nlinarith

/-- A tie inside an interval is a tie at one of its ends. -/
theorem eq_end_of_tie {a b x w v : ℝ} (hax : a ≤ x) (hxb : x ≤ b) (ha : |w - a| ≤ |v - a|)
    (hb : |w - b| ≤ |v - b|) (hne : v ≠ w) (htie : |v - x| = |w - x|) : x = a ∨ x = b := by
  have hvw := (abs_sub_le_abs_sub_iff v w x).mp htie.le
  have hwv := (abs_sub_le_abs_sub_iff w v x).mp htie.ge
  rw [abs_sub_le_abs_sub_iff] at ha hb
  obtain h | h := lt_or_gt_of_ne hne
  · exact .inl (by nlinarith)
  · exact .inr (by nlinarith)

/-- `IsNearestEven` below the overflow threshold. -/
theorem isNearestEven_iff {x : ℝ} {w : Word} (hx : |x| < 2 ^ 1024 - 2 ^ 970) : IsNearestEven x w ↔
    finiteWord w = true ∧
    (∀ v, finiteWord v = true → |(wordValue w : ℝ) - x| ≤ |(wordValue v : ℝ) - x|) ∧
    (∀ v, finiteWord v = true → wordValue v ≠ wordValue w →
      |(wordValue v : ℝ) - x| = |(wordValue w : ℝ) - x| → w.toNat % 2 = 0) := by
  rw [IsNearestEven, if_pos hx]

/-- A word nearest to both ends of an interval is nearest to every number inside. -/
theorem isNearestEven_of_between {a b x : ℝ} {w : Word} (ha : IsNearestEven a w) (hb : IsNearestEven b w)
    (hax : a ≤ x) (hxb : x ≤ b) (hacap : |a| < 2 ^ 1024 - 2 ^ 970) (hbcap : |b| < 2 ^ 1024 - 2 ^ 970) :
    IsNearestEven x w := by
  have hxcap := (abs_le_max_abs_abs hax hxb).trans_lt (max_lt hacap hbcap)
  obtain ⟨hfin, hnearA, hevenA⟩ := (isNearestEven_iff hacap).mp ha
  obtain ⟨-, hnearB, hevenB⟩ := (isNearestEven_iff hbcap).mp hb
  refine (isNearestEven_iff hxcap).mpr ⟨hfin, fun v hv => ?_, fun v hv hne htie => ?_⟩
  · exact abs_sub_le_of_between hax hxb (hnearA v hv) (hnearB v hv)
  · obtain rfl | rfl := eq_end_of_tie hax hxb (hnearA v hv) (hnearB v hv) (by exact_mod_cast hne) htie
    · exact hevenA v hv hne htie
    · exact hevenB v hv hne htie

/-- A fixed-point number is rounded to the word nearest to it. -/
theorem isNearestEven_fixWord (neg : Bool) (v : Nat) :
    IsNearestEven (signUnit neg * ((v : ℝ) / fixOne)) (fixWord neg v) := by
  have hscale : ((v * 2 ^ (1074 - fixBits) : Nat) : ℝ) / (1 : Nat) / 2 ^ 1074 = v / fixOne := by
    have hsplit : (2 : ℝ) ^ 1074 = 2 ^ (1074 - fixBits) * fixOne := by
      rw [fixOne_cast, ← pow_add, show 1074 - fixBits + 192 = 1074 from rfl]
    rw [hsplit, Nat.cast_mul, Nat.cast_pow, Nat.cast_ofNat, Nat.cast_one, div_one, mul_comm (v : ℝ),
      mul_div_mul_left _ _ (by positivity)]
  obtain rfl | hv := Nat.eq_zero_or_pos v
  · have h := isNearestEven_roundMag false (0 * 2 ^ (1074 - fixBits)) Nat.one_pos
    rw [hscale, Nat.cast_zero, zero_div, mul_zero, Nat.zero_mul] at h
    rw [Nat.cast_zero, zero_div, mul_zero, fixWord_zero]
    exact h
  · have h := isNearestEven_roundMag neg (v * 2 ^ (1074 - fixBits)) Nat.one_pos
    rw [hscale] at h
    rw [fixWord_of_ne_zero (fixMag_ne_zero hv)]
    exact h

/-! ### Fixed-point numbers whose rounding no error within the bound changes -/

theorem divHalfEven_mul_right (p d : Nat) {c : Nat} (hc : 0 < c) : divHalfEven (p * c) (d * c) = divHalfEven p d := by
  have hlt : d * c < 2 * (p % d * c) ↔ d < 2 * (p % d) := by
    rw [← Nat.mul_assoc, Nat.mul_lt_mul_right hc]
  have heq : 2 * (p % d * c) = d * c ↔ 2 * (p % d) = d := by
    rw [← Nat.mul_assoc, Nat.mul_left_inj hc.ne']
  simp only [divHalfEven, Nat.mul_div_mul_right _ _ hc, Nat.mul_mod_mul_right, hlt, heq]

/-- The bits below the last place kept, by the significand that is left. -/
theorem droppedBits_eq {k e : Nat} (he : 0 < e) (hlo : 2 ^ 52 ≤ k / 2 ^ e) (hhi : k / 2 ^ e < 2 ^ 53) :
    droppedBits k = e := by
  rw [Nat.le_div_iff_mul_le (Nat.two_pow_pos e), ← pow_add] at hlo
  rw [Nat.div_lt_iff_lt_mul (Nat.two_pow_pos e), ← pow_add, Nat.add_right_comm 52 1 e] at hhi
  have hbig : 2 ^ 53 ≤ k := (Nat.pow_le_pow_right two_pos (by omega)).trans hlo
  have hlog : k.log2 = 52 + e := (Nat.log2_eq_iff (by omega)).mpr ⟨hlo, hhi⟩
  rw [droppedBits, if_neg (by omega), hlog, Nat.add_sub_cancel_left]

/-- The unit in the last place of `v` as a number of 53 bits. -/
def lastPlace (v : Nat) : Nat := 1 <<< (v.log2 - 52)

/-- Rounding a number whose last place kept is `2^e`. -/
theorem fixMag_eq {v e : Nat} (hlo : 2 ^ 52 ≤ v / 2 ^ e) (hhi : v / 2 ^ e < 2 ^ 53) :
    fixMag v = min ((e + (1074 - fixBits)) * 2 ^ 52 + divHalfEven v (2 ^ e)) infMag := by
  have hquot : v * 2 ^ (1074 - fixBits) / 2 ^ (e + (1074 - fixBits)) = v / 2 ^ e := by
    rw [pow_add, Nat.mul_div_mul_right _ _ (Nat.two_pow_pos _)]
  have hpos : 0 < e + (1074 - fixBits) := Nat.add_pos_right e (by decide)
  rw [fixMag, roundMag_eq, Nat.div_one, droppedBits_eq hpos (hlo.trans_eq hquot.symm) (hquot.trans_lt hhi),
    Nat.one_mul, pow_add, divHalfEven_mul_right _ _ (Nat.two_pow_pos _)]

/-- `v` and the numbers at the distance of the error bound have one last place, and round alike in it. -/
abbrev RoundingStable (v : Nat) : Prop :=
  2 ^ 52 ≤ (v - errBound) / lastPlace v ∧ (v + errBound) / lastPlace v < 2 ^ 53 ∧
    divHalfEven (v - errBound) (lastPlace v) = divHalfEven v (lastPlace v) ∧
    divHalfEven (v + errBound) (lastPlace v) = divHalfEven v (lastPlace v)

theorem RoundingStable.fixMag_ends {v : Nat} (h : RoundingStable v) :
    errBound ≤ v ∧ fixMag (v - errBound) = fixMag v ∧ fixMag (v + errBound) = fixMag v := by
  obtain ⟨hlo, hhi, hdown, hup⟩ := h
  rw [lastPlace, Nat.one_shiftLeft] at *
  generalize v.log2 - 52 = e at *
  have hle : (v - errBound) / 2 ^ e ≤ v / 2 ^ e := Nat.div_le_div_right (Nat.sub_le _ _)
  have hle' : v / 2 ^ e ≤ (v + errBound) / 2 ^ e := Nat.div_le_div_right (Nat.le_add_right _ _)
  have hmid := fixMag_eq (hlo.trans hle) (hle'.trans_lt hhi)
  refine ⟨?_, ?_, ?_⟩
  · by_contra hlt
    rw [Nat.sub_eq_zero_of_le (by omega), Nat.zero_div] at hlo
    omega
  · rw [fixMag_eq hlo ((hle.trans hle').trans_lt hhi), hmid, hdown]
  · rw [fixMag_eq ((hlo.trans hle).trans hle') hhi, hmid, hup]

/-- Both coordinates of every point of the first octant at size 4096, but of the one at angle 0, are stable: the
finite fact that correct rounding rests on (log 9), since how near a cosine comes to a rounding boundary is
found only by computing it. -/
theorem octantPt_roundingStable : ∀ j < 512,
    RoundingStable (octantPt 11 (j + 1)).cos ∧ RoundingStable (octantPt 11 (j + 1)).sin := by
  decide +kernel

/-! ### Correctly rounded points -/

theorem abs_lt_overflow {y : ℝ} (h : |y| ≤ 3) : |y| < 2 ^ 1024 - 2 ^ 970 := by
  have hpow : (2 : ℝ) ^ 1024 = 2 ^ 54 * 2 ^ 970 := by rw [← pow_add]
  have hone : (1 : ℝ) ≤ 2 ^ 970 := one_le_pow₀ (by norm_num)
  rw [hpow]
  generalize (2 : ℝ) ^ 970 = c at hone
  norm_num
  linarith

theorem abs_div_fixOne_lt_overflow {x z : ℝ} (hz : |z - fixOne * x| ≤ errBound + errBound) (hx : |x| ≤ 1) :
    |z / fixOne| < 2 ^ 1024 - 2 ^ 970 := by
  have hO := fixOne_pos
  have hE : (errBound : ℝ) ≤ fixOne := by rw [errBound, fixOne_cast]; norm_num
  refine abs_lt_overflow ?_
  rw [abs_le] at hz hx ⊢
  rw [le_div_iff₀ hO, div_le_iff₀ hO]
  constructor <;> nlinarith

/-- A stable number rounds to the word nearest to what it approximates. -/
theorem RoundingStable.isNearestEven {v : Nat} {x : ℝ} (h : RoundingStable v)
    (hv : |(v : ℝ) - fixOne * x| ≤ errBound) (hx : |x| ≤ 1) (neg : Bool) :
    IsNearestEven (signUnit neg * x) (fixWord neg v) := by
  obtain ⟨hle, hdown, hup⟩ := h.fixMag_ends
  have hO := fixOne_pos
  have hlo := isNearestEven_fixWord false (v - errBound)
  have hhi := isNearestEven_fixWord false (v + errBound)
  rw [signUnit_false, Int.cast_one, one_mul, fixWord_congr hdown, Nat.cast_sub hle] at hlo
  rw [signUnit_false, Int.cast_one, one_mul, fixWord_congr hup, Nat.cast_add] at hhi
  rw [abs_le] at hv
  have hpos : IsNearestEven x (fixWord false v) := by
    refine isNearestEven_of_between hlo hhi ?_ ?_ (abs_div_fixOne_lt_overflow ?_ hx)
      (abs_div_fixOne_lt_overflow ?_ hx)
    · rw [div_le_iff₀ hO]
      linarith
    · rw [le_div_iff₀ hO]
      linarith
    all_goals
      rw [abs_le]
      constructor <;> linarith
  cases neg with
  | false => simpa using hpos
  | true =>
    have hv0 : 0 < v := (show 0 < errBound by decide).trans_le hle
    have hneg := isNearestEven_fneg hpos
    rw [← fixWord_not (fixMag_ne_zero hv0)] at hneg
    simpa using hneg

/-- Both coordinates of `P`, under either sign, round to the words nearest to those of the point at angle `x`. -/
structure CirclePt.Rounds (P : CirclePt) (x : ℝ) : Prop where
  cos (neg : Bool) : IsNearestEven (signUnit neg * Real.cos x) (fixWord neg P.cos)
  sin (neg : Bool) : IsNearestEven (signUnit neg * Real.sin x) (fixWord neg P.sin)

/-- The point at angle 0 is exact. -/
theorem start_rounds : CirclePt.start.Rounds 0 := by
  constructor <;> intro neg
  · have h := isNearestEven_fixWord neg fixOne
    rwa [div_self fixOne_pos.ne', ← Real.cos_zero] at h
  · have h := isNearestEven_fixWord neg 0
    rwa [Nat.cast_zero, zero_div, ← Real.sin_zero] at h

/-- At size 4096 every point of the first quadrant at an even index, but the first, is stable. -/
theorem quadrantPt_roundingStable {j : Nat} (h0 : 0 < j) (hj : j < 1024) :
    RoundingStable (quadrantPt 12 (2 * j)).cos ∧ RoundingStable (quadrantPt 12 (2 * j)).sin := by
  rw [quadrantPt_double (by norm_num), quadrantPt]
  split
  case isTrue =>
    obtain ⟨n, rfl⟩ := Nat.exists_eq_add_of_le' h0
    exact octantPt_roundingStable n (by omega)
  case isFalse =>
    obtain ⟨n, hn⟩ := Nat.exists_eq_add_of_le' (show 1 ≤ 2 ^ 11 / 2 - j by omega)
    rw [hn]
    exact (octantPt_roundingStable n (by omega)).symm

theorem quadrantPt_rounds {j : Nat} (hj : j < 1024) : (quadrantPt 12 (2 * j)).Rounds (gridAngle 12 (2 * j)) := by
  obtain rfl | h0 := Nat.eq_zero_or_pos j
  · rw [Nat.mul_zero, quadrantPt_zero, gridAngle_zero]
    exact start_rounds
  · obtain ⟨hc, hs⟩ := quadrantPt_roundingStable h0 hj
    obtain ⟨hcos, hsin⟩ := quadrantPt_near (k := 11) (by norm_num) (show 2 * j < 2 ^ 11 by omega)
    exact ⟨hc.isNearestEven hcos (Real.abs_cos_le_one _), hs.isNearestEven hsin (Real.abs_sin_le_one _)⟩

/-- The words of the quadrant `q` are nearest to the cosine and the sine of the angle turned by `q` quarters. -/
theorem CirclePt.Rounds.quadrantWords {P : CirclePt} {x : ℝ} (h : P.Rounds x) {q : Nat} (hq : q < 4) :
    IsNearestEven (Real.cos (q * (Real.pi / 2) + x)) (quadrantWords P q).1 ∧
    IsNearestEven (Real.sin (q * (Real.pi / 2) + x)) (quadrantWords P q).2 := by
  have hcp := h.cos false
  have hcn := h.cos true
  have hsp := h.sin false
  have hsn := h.sin true
  simp only [signUnit_false, signUnit_true, Int.cast_one, Int.cast_neg, one_mul, neg_one_mul] at hcp hcn hsp hsn
  have htwo : (2 : ℝ) * (Real.pi / 2) = Real.pi := by ring
  have hthree : (3 : ℝ) * (Real.pi / 2) = Real.pi + Real.pi / 2 := by ring
  interval_cases q
  · simpa [quadrantWords_zero] using And.intro hcp hsp
  · simpa [quadrantWords_one, Real.cos_add, Real.sin_add] using And.intro hsn hcp
  · simpa [quadrantWords_two, htwo, Real.cos_add, Real.sin_add] using And.intro hcn hsn
  · simpa [quadrantWords_three, hthree, Real.cos_add, Real.sin_add] using And.intro hsp hcn

/-! ### The table of size 4096, and those nested in it -/

theorem gridAngle_quarter (k q : Nat) : gridAngle (k + 1) (q * 2 ^ k) = q * (Real.pi / 2) := by
  rw [Nat.add_comm k 1, gridAngle_mul_two_pow, gridAngle, pow_one]
  ring

theorem roundedCosSin_nearest_4096 {i : Nat} (hi : i % 2 = 0) (hlt : i < 8192) :
    IsNearestEven (Real.cos (gridAngle 12 i)) (roundedCosSin (2 ^ 12) i).1 ∧
    IsNearestEven (Real.sin (gridAngle 12 i)) (roundedCosSin (2 ^ 12) i).2 := by
  have hangle : gridAngle 12 i = (i / 2 ^ 11 : Nat) * (Real.pi / 2) + gridAngle 12 (i % 2 ^ 11) := by
    rw [← gridAngle_quarter 11, ← gridAngle_add, Nat.div_add_mod']
  have hrounds := quadrantPt_rounds (show i % 2 ^ 11 / 2 < 1024 by omega)
  rw [show 2 * (i % 2 ^ 11 / 2) = i % 2 ^ 11 by omega] at hrounds
  rw [hangle, roundedCosSin_eq 11]
  exact hrounds.quadrantWords (by omega)

theorem roundedCosSin_mul_two_pow {p : Nat} (hp : 1 ≤ p) (i d : Nat) :
    roundedCosSin (2 ^ (p + d)) (i * 2 ^ d) = roundedCosSin (2 ^ p) i := by
  induction d with
  | zero => rw [pow_zero, Nat.mul_one, Nat.add_zero]
  | succ d ih =>
    rw [pow_succ', Nat.mul_left_comm, ← Nat.add_assoc, roundedCosSin_double (by omega), ih]

/-- Every zero of the table's rounded values is `+0` (R18). -/
theorem roundedCosSin_of_isZeroWord (k i : Nat) :
    (isZeroWord (roundedCosSin (2 ^ (k + 1)) i).1 = true → (roundedCosSin (2 ^ (k + 1)) i).1 = plusZero) ∧
    (isZeroWord (roundedCosSin (2 ^ (k + 1)) i).2 = true → (roundedCosSin (2 ^ (k + 1)) i).2 = plusZero) := by
  rw [roundedCosSin_eq]
  obtain _ | _ | _ | q := i / 2 ^ k <;> exact ⟨fixWord_of_isZeroWord, fixWord_of_isZeroWord⟩

/-- Settles O34: the fixed-point points are within the error bound of the exact ones, no number that near rounds
differently at size 4096, and the smaller tables nest in that one. -/
theorem twiddlesAreCorrectlyRounded : Obligations.TwiddlesAreCorrectlyRounded := by
  intro p hp hp12 m hm
  obtain ⟨d, hd⟩ := Nat.exists_eq_add_of_le hp12
  have hlt : 2 * m * 2 ^ d < 8192 := by
    have : 2 ^ p * 2 ^ d = 4096 := by rw [← pow_add, ← hd]; rfl
    have := Nat.mul_lt_mul_of_pos_right hm (Nat.two_pow_pos d)
    rw [Nat.mul_assoc]
    omega
  have hnear := roundedCosSin_nearest_4096 (by rw [Nat.mul_assoc, Nat.mul_mod_right]) hlt
  rw [hd, gridAngle_mul_two_pow, roundedCosSin_mul_two_pow hp] at hnear
  obtain ⟨hcos, hsin⟩ := hnear
  obtain ⟨k, rfl⟩ := Nat.exists_eq_add_of_le' hp
  obtain ⟨hcz, hsz⟩ := roundedCosSin_of_isZeroWord k (2 * m)
  exact ⟨_, _, hcos, hsin, hcz, hsz, twt_even (Nat.mul_mod_right 2 m) _, twt_odd (Nat.mul_mod_right 2 m) _⟩

end Sys2Proof.Machine

/-! ## The buffer utilities (41_buffer_utilities.md R85 to R88) -/

namespace Sys2Proof.Machine

section

variable {s : State} {c : Ctx} {i : Instr} {b lo n : Nat} {ws : List (Option Word)}

/-- The completion of a command whose pseudocode stores one run of words (R57, R114). -/
theorem exec_engine_storeBank (ht : s.turn = .engine) (hs : s.seq = .running c) (hc : c.instr = i)
    (hbody : bodyOf i c s = s.storeBank b lo ws) (hn : ws.length = n) :
    ∃ t, exec i s = .next t ∧ CompletedWriting s t b lo n ∧
      ∀ k w, ws[k]? = some w → t.bankWord b (lo + k) = w := by
  subst hn
  refine ⟨_, exec_engine ht hs hc, by rw [hbody]; exact completedWriting_storeBank s b lo ws, fun k w hk => ?_⟩
  obtain ⟨hlt, rfl⟩ := List.getElem?_eq_some_iff.mp hk
  rw [State.bankWord_finish, hbody, State.bankWord_storeBank s b lo ws k hlt]

theorem State.snapshot_getElem? {k : Nat} (hk : k < n) : (s.snapshot b n)[k]? = some (s.bankWord b k) := by
  simp [State.snapshot, hk]

/-- A snapshot does not see a run stored after its last word. -/
theorem State.snapshot_storeBank (hn : n ≤ lo) : (s.storeBank b lo ws).snapshot b n = s.snapshot b n :=
  List.map_congr_left fun _ hk =>
    State.bankWord_storeBank_outside s b lo ws _ (.inl ((List.mem_range.mp hk).trans_le hn))

/-- Storing the same run again changes no word of the bank. -/
theorem State.bankWord_storeBank_again (k : Nat) :
    ((s.storeBank b lo ws).storeBank b lo ws).bankWord b k = (s.storeBank b lo ws).bankWord b k := by
  by_cases hk : k < lo ∨ lo + ws.length ≤ k
  · exact State.bankWord_storeBank_outside _ b lo ws k hk
  · obtain ⟨j, rfl⟩ := Nat.exists_eq_add_of_le (show lo ≤ k by omega)
    rw [State.bankWord_storeBank _ b lo ws j (by omega), State.bankWord_storeBank s b lo ws j (by omega)]

end

/-! ### The words CSPEC writes (R88) -/

/-- Bin `N/2 - 1 - t` of the words `D` below word `N`, conjugated. -/
def conjugateBin (N : Nat) (D : List (Option Word)) (t : Nat) : Option Word × Option Word :=
  (D.getD (N - 2 - 2 * t) none, (D.getD (N - 2 - 2 * t + 1) none).map fneg)

/-- The words `N+2, N+3, ..` that CSPEC makes of the words `D` below word `N`: the bins `N/2-1, .., 1`, each
conjugated. -/
def conjugateBins (N : Nat) (D : List (Option Word)) : List (Option Word) :=
  (List.range (N / 2 - 1)).flatMap fun t => [(conjugateBin N D t).1, (conjugateBin N D t).2]

theorem conjugateBins_length {N : Nat} (hN : N % 2 = 0) (D : List (Option Word)) :
    (conjugateBins N D).length = N - 2 := by
  rw [conjugateBins, pairs_length, List.length_range]
  omega

/-- Bin `m` of the words read goes, conjugated, to bin `N-m`: `N - 2 - 2m` words after word `N+2`. -/
theorem conjugateBins_getElem? {N m : Nat} (hN : N % 2 = 0) (h1 : 1 ≤ m) (hm : m < N / 2)
    (D : List (Option Word)) :
    (conjugateBins N D)[N - 2 - 2 * m]? = some (D.getD (2 * m) none) ∧
    (conjugateBins N D)[N - 2 - 2 * m + 1]? = some ((D.getD (2 * m + 1) none).map fneg) := by
  have hpos : N - 2 - 2 * m = 2 * (N / 2 - 1 - m) := by omega
  have hbin : N - 2 - 2 * (N / 2 - 1 - m) = 2 * m := by omega
  obtain ⟨hre, him⟩ := pairs_getElem? (conjugateBin N D) (List.range (N / 2 - 1)) (N / 2 - 1 - m)
  rw [List.getElem?_range (by omega), Option.map_some, conjugateBin, hbin] at hre him
  rw [hpos]
  exact ⟨hre, him⟩

/-- Bank `d` with its spectrum completed: the effect of CSPEC's pseudocode. -/
def State.completeSpectrum (s : State) (d : Nat) : State :=
  s.storeBank d (s.pn + 2) (conjugateBins s.pn (s.snapshot d s.pn))

theorem cspecBody_eq (c : Ctx) (s : State) : cspecBody c s = s.completeSpectrum c.dst := rfl

theorem exec_cspec {s : State} {c : Ctx} {d : Nat} (ht : s.turn = .engine) (hs : s.seq = .running c)
    (hc : c.instr = .cspec d) : exec (.cspec d) s = .next (s.completeSpectrum d).finish := by
  rw [exec_engine ht hs hc, bodyOf, cspecBody_eq, Ctx.dst_of_instr hc rfl]

/-- CSPEC reads only words below `N` and writes only words from `N+2` on, so the second time it stores the run it
stored the first time. -/
theorem State.bankWord_completeSpectrum_again (s : State) (d i : Nat) :
    ((s.completeSpectrum d).completeSpectrum d).bankWord d i = (s.completeSpectrum d).bankWord d i := by
  have hsnap : (s.completeSpectrum d).snapshot d s.pn = s.snapshot d s.pn :=
    State.snapshot_storeBank (Nat.le_add_right _ _)
  have hrun : (s.completeSpectrum d).completeSpectrum d =
      (s.completeSpectrum d).storeBank d (s.pn + 2) (conjugateBins s.pn (s.snapshot d s.pn)) := by
    rw [← hsnap]
    rfl
  rw [hrun]
  exact State.bankWord_storeBank_again i

/-! ### The statements -/

/-- Settles O20: the run stored is a list of pairs, one for each word of the source's snapshot. -/
theorem r2cCompletes : Obligations.R2cCompletes := by
  intro s c d x ht hs hc
  obtain rfl := Ctx.dst_of_instr hc rfl
  obtain rfl := Ctx.src_of_instr hc rfl
  have hlen := pairs_length (fun r => (r, some plusZero)) (s.snapshot c.src s.pn)
  rw [State.snapshot_length] at hlen
  obtain ⟨t, hexec, hframe, hword⟩ := exec_engine_storeBank ht hs hc rfl hlen
  refine ⟨t, hexec, hframe, fun k hk => ?_⟩
  obtain ⟨hre, him⟩ := pairs_getElem? (fun r => (r, some plusZero)) (s.snapshot c.src s.pn) k
  rw [State.snapshot_getElem? hk] at hre him
  rw [← Nat.zero_add (2 * k), Nat.add_assoc]
  exact ⟨hword _ _ hre, hword _ _ him⟩

/-- Settles O21: word `k` of the run stored is word `2k` of the source's snapshot. -/
theorem c2rCompletes : Obligations.C2rCompletes := by
  intro s c d x ht hs hc
  obtain rfl := Ctx.dst_of_instr hc rfl
  obtain rfl := Ctx.src_of_instr hc rfl
  obtain ⟨t, hexec, hframe, hword⟩ :=
    exec_engine_storeBank (n := s.pn) ht hs hc rfl (by rw [List.length_map, List.length_range])
  refine ⟨t, hexec, hframe, fun k hk => ?_⟩
  rw [← Nat.zero_add k]
  refine hword k _ ?_
  rw [List.getElem?_map, List.getElem?_range hk, Option.map_some, State.snapshot_getD _ _ _ _ (by omega),
    Nat.zero_add]

/-- Settles O22: every word of the run stored is +0.0. -/
theorem clrCompletes : Obligations.ClrCompletes := by
  intro s c d ht hs hc
  obtain rfl := Ctx.dst_of_instr hc rfl
  obtain ⟨t, hexec, hframe, hword⟩ := exec_engine_storeBank ht hs hc rfl List.length_replicate
  refine ⟨t, hexec, hframe, fun k hk => ?_⟩
  rw [← Nat.zero_add k]
  exact hword k _ (List.getElem?_replicate_of_lt hk)

/-- Settles O23: the run stored starts at word `N+2` and holds the conjugated bins. -/
theorem cspecCompletes : Obligations.CspecCompletes := by
  intro s c d ht hs hc heven _
  obtain rfl := Ctx.dst_of_instr hc rfl
  obtain ⟨t, hexec, hframe, hword⟩ :=
    exec_engine_storeBank ht hs hc (cspecBody_eq c s) (conjugateBins_length heven _)
  refine ⟨t, hexec, hframe, fun m h1 hm => ?_⟩
  obtain ⟨hre, him⟩ := conjugateBins_getElem? heven h1 hm (s.snapshot c.dst s.pn)
  rw [State.snapshot_getD _ _ _ _ (by omega)] at hre him
  have haddr : 2 * (s.pn - m) = s.pn + 2 + (s.pn - 2 - 2 * m) := by omega
  rw [haddr]
  exact ⟨hword _ _ hre, hword _ _ him⟩

/-- Settles O24: the second completion runs on the bank the first one left, so it stores the same run. -/
theorem cspecTwiceIsOnce : Obligations.CspecTwiceIsOnce := by
  intro s t u c d ht hs hc _ _ hst htu i
  obtain rfl := Host.Outcome.next.inj ((exec_cspec ht hs hc).symm.trans hst)
  have hagain := exec_cspec (s := { (s.completeSpectrum d).finish with seq := .running c }) ht rfl hc
  obtain rfl := Host.Outcome.next.inj (hagain.symm.trans htu)
  exact State.bankWord_completeSpectrum_again s d i

end Sys2Proof.Machine

/-! ## The completions of the transforms (42_complex_engine.md R98 to R101, 60_exceptions.md R114) -/

namespace Sys2Proof.Machine

section

variable {s : State} {c : Ctx} {i : Instr} {n : Nat} {f : List Word → List Word} {X : List Word}

/-- The completion of a transform whose `n` input words `X` are there: its words `f X` are in the destination. -/
theorem exec_engine_transform (ht : s.turn = .engine) (hs : s.seq = .running c) (hc : c.instr = i)
    (hbody : bodyOf i c s = transform c s n f) (hX : X.length = n)
    (hword : ∀ k (h : k < X.length), s.bankWord c.src k = some X[k]) (hlen : (f X).length = 2 * s.pn) :
    ∃ t, exec i s = .next t ∧ CompletedWriting s t c.dst 0 (2 * s.pn) ∧
      ∀ k < 2 * s.pn, t.bankWord c.dst k = (f X)[k]? := by
  refine ⟨_, exec_engine ht hs hc, ?_⟩
  rw [hbody]
  exact transform_completed (State.allSome_snapshot.mpr ⟨hX, hword⟩) hlen

/-- The words a transform leaves depend on the snapshot it takes of the source and on nothing else (R99, R126). -/
theorem transform_bankWord_congr {s' : State} (hpn : s'.pn = s.pn)
    (hsnap : s'.snapshot c.src n = s.snapshot c.src n) (hlen : ∀ X, (f X).length = 2 * s.pn) {k : Nat}
    (hk : k < 2 * s.pn) :
    (transform c s' n f).finish.bankWord c.dst k = (transform c s n f).finish.bankWord c.dst k := by
  cases hin : allSome (s.snapshot c.src n) with
  | none =>
    obtain ⟨-, hword⟩ := transform_completed_none (f := f) hin
    obtain ⟨-, hword'⟩ := transform_completed_none (f := f) (hsnap ▸ hin)
    rw [hword k hk, hword' k (by omega)]
  | some X =>
    obtain ⟨-, hword⟩ := transform_completed hin (hlen X)
    obtain ⟨-, hword'⟩ := transform_completed (hsnap ▸ hin) ((hlen X).trans (by rw [hpn]))
    rw [hword k hk, hword' k (by omega)]

end

/-- A transform's pseudocode reads at most `2N` words and, at a plan size, makes `2N` words of them. -/
theorem bodyOf_transform {i : Instr} (hi : isTransform i = true) (c : Ctx) {p : Nat} (hp : 1 ≤ p) :
    ∃ n f, n ≤ 2 * 2 ^ p ∧ (∀ X, (f X).length = 2 * 2 ^ p) ∧
      ∀ s : State, s.pn = 2 ^ p → bodyOf i c s = transform c s n f := by
  cases i
  case fwd => exact ⟨_, fwdWords (2 ^ p) c.inv.word, le_rfl, fwdWords_length hp _, fun s hs => by rw [← hs]; rfl⟩
  case inv => exact ⟨_, invWords (2 ^ p) c.inv.word, le_rfl, invWords_length hp _, fun s hs => by rw [← hs]; rfl⟩
  case rfwd =>
    exact ⟨2 ^ p, rfwdWords (2 ^ p) c.inv.word, by omega, rfwdWords_length hp _, fun s hs => by rw [← hs]; rfl⟩
  all_goals exact absurd hi Bool.false_ne_true

/-- Settles O25: FWD's pseudocode is the transform by ENGINE(+1.0). -/
theorem fwdCompletes : Obligations.FwdCompletes := by
  intro s c d x p X ht hs hc hinv hp hpn hX hword
  obtain rfl := Ctx.dst_of_instr hc rfl
  obtain rfl := Ctx.src_of_instr hc rfl
  have hlen : (fwdWords s.pn c.inv.word X).length = 2 * s.pn := hpn ▸ fwdWords_length hp _ X
  have h := exec_engine_transform ht hs hc rfl hX hword hlen
  rwa [hinv] at h

/-- Settles O26: INV's pseudocode is the transform by ENGINE(-1.0) and the division after it. -/
theorem invCompletes : Obligations.InvCompletes := by
  intro s c d x p X ht hs hc hinv hp hpn hX hword
  obtain rfl := Ctx.dst_of_instr hc rfl
  obtain rfl := Ctx.src_of_instr hc rfl
  have hlen : (invWords s.pn c.inv.word X).length = 2 * s.pn := hpn ▸ invWords_length hp _ X
  have h := exec_engine_transform ht hs hc rfl hX hword hlen
  simp only [invWords, List.getElem?_map, hinv] at h
  exact h

/-- Settles O29: the two completions take the same snapshot of the source. -/
theorem destinationContentsDoNotMatter : Obligations.DestinationContentsDoNotMatter := by
  intro s s' t t' c d x p i hi hc hp hpn ht ht' hs hs' hpn' hsrc hst hst' k hk
  obtain ⟨hdst, hxsrc, htrans⟩ : dstOf i = some d ∧ srcOf i = some x ∧ isTransform i = true := by
    rcases hi with rfl | rfl | rfl <;> exact ⟨rfl, rfl, rfl⟩
  obtain rfl := Ctx.dst_of_instr hc hdst
  obtain rfl := Ctx.src_of_instr hc hxsrc
  obtain ⟨n, f, hn, hlen, hbody⟩ := bodyOf_transform htrans c hp
  obtain rfl := Host.Outcome.next.inj ((exec_engine ht hs hc).symm.trans hst)
  obtain rfl := Host.Outcome.next.inj ((exec_engine ht' hs' hc).symm.trans hst')
  rw [hbody s hpn, hbody s' (hpn'.trans hpn)]
  rw [← hpn] at hn hlen
  refine transform_bankWord_congr hpn' (List.map_congr_left fun j hj => hsrc j ?_) hlen hk
  exact (List.mem_range.mp hj).trans_le hn

end Sys2Proof.Machine

/-! ## INV's scaling: dividing by a power of two (00_scope.md R15, R18, 42_complex_engine.md R101) -/

namespace Sys2Proof.Machine

theorem roundMag_mul_right (p q : Nat) {c : Nat} (hc : 0 < c) : roundMag (p * c) (q * c) = roundMag p q := by
  rw [roundMag_eq, roundMag_eq, Nat.mul_div_mul_right _ _ hc, Nat.mul_right_comm q c, divHalfEven_mul_right _ _ hc]

/-- Equal quotients are rounded alike. -/
theorem roundMag_congr {p q p' q' : Nat} (hq : 0 < q) (hq' : 0 < q') (h : p * q' = p' * q) :
    roundMag p q = roundMag p' q' := by
  rw [← roundMag_mul_right p q hq', h, Nat.mul_comm q q', roundMag_mul_right p' q' hq]

/-! ### Powers of two as words -/

/-- The positive word with biased exponent `e + 1` and no fraction: `2^(52 + e)` units. -/
def powerWord (e : Nat) : Word := pack false (e * 2 ^ 52 + 2 ^ 52)

/-- `RN(2^p)` is exact (R18). -/
theorem natWord_two_pow {p : Nat} (hp : p ≤ 24) : natWord (2 ^ p) = powerWord (1022 + p) := by
  have hunits : 2 ^ p * 2 ^ 1074 = bitsUnits ((1022 + p) * 2 ^ 52 + 2 ^ 52) * 1 := by
    rw [bitsUnits_significand (.inr le_rfl) (by norm_num), Nat.mul_one, ← pow_add, ← pow_add]
    congr 1
    omega
  rw [natWord, roundMag_exact Nat.one_pos hunits, Nat.min_eq_left (by rw [infMag_eq]; omega), powerWord]

section

variable {e : Nat}

theorem magBits_powerWord (he : e < 2046) : magBits (powerWord e) = e * 2 ^ 52 + 2 ^ 52 :=
  magBits_pack false (by omega)

theorem msb_powerWord (he : e < 2046) : (powerWord e).msb = false := msb_pack false (by omega)

theorem finiteWord_powerWord (he : e < 2046) : finiteWord (powerWord e) = true := by
  rw [finiteWord_iff, magBits_powerWord he, infMag_eq]
  omega

theorem isZeroWord_powerWord (he : e < 2046) : isZeroWord (powerWord e) = false := by
  rw [Bool.eq_false_iff, ne_eq, isZeroWord_iff, magBits_powerWord he]
  omega

theorem magUnits_powerWord (he : e < 2046) : magUnits (powerWord e) = 2 ^ (52 + e) := by
  rw [magUnits_eq, magBits_powerWord he, bitsUnits_significand (.inr le_rfl) (by norm_num), pow_add]

theorem wordValue_powerWord (he : e < 2046) : wordValue (powerWord e) = 2 ^ (52 + e) / 2 ^ 1074 := by
  rw [wordValue, units_eq, msb_powerWord he, magUnits_powerWord he, signUnit_false, one_mul, Int.cast_natCast,
    Nat.cast_pow, Nat.cast_ofNat]

/-- Dividing by a power of two is multiplying by its reciprocal, for every word (R101). -/
theorem fdiv_powerWord {e' : Nat} (he : e + e' = 2044) (y : Word) :
    fdiv y (powerWord e) = fmul y (powerWord e') := by
  have hlt : e < 2046 := by omega
  have hlt' : e' < 2046 := by omega
  have hfin := finiteWord_powerWord hlt
  have hfin' := finiteWord_powerWord hlt'
  have hzero := isZeroWord_powerWord hlt
  have hzero' := isZeroWord_powerWord hlt'
  have hsign : (powerWord e').msb = (powerWord e).msb := by rw [msb_powerWord hlt, msb_powerWord hlt']
  obtain hnan | hinf | hy := word_cases y
  · rw [fdiv_of_isNaN (.inl hnan), fmul_of_isNaN (.inl hnan)]
  · rw [fdiv_inf_finite hinf hfin, fmul_inf_finite hinf hfin', hzero', if_neg Bool.false_ne_true, xorInf, xorInf, hsign]
  · rw [fdiv_finite hy hfin hzero, fmul_finite hy hfin', magUnits_powerWord hlt, magUnits_powerWord hlt', hsign]
    refine congrArg _ (roundMag_congr (Nat.two_pow_pos _) (by positivity) ?_)
    rw [Nat.mul_assoc, Nat.mul_assoc, ← pow_add, ← pow_add, show 1074 + 1074 = 52 + e' + (52 + e) by omega]

end

/-- Settles O42: both words are powers of two, each the reciprocal of the other. -/
theorem inverseScalingIsAMultiplication : Obligations.InverseScalingIsAMultiplication := by
  intro p y _ hp
  have hrecip : pack false ((1023 - p) * 2 ^ 52) = powerWord (1022 - p) := by
    rw [powerWord, show (1023 - p) * 2 ^ 52 = (1022 - p) * 2 ^ 52 + 2 ^ 52 by omega]
  rw [natWord_two_pow hp, hrecip]
  refine ⟨?_, fdiv_powerWord (by omega) y⟩
  rw [wordValue_powerWord (by omega), show 52 + (1022 + p) = p + 1074 by omega, pow_add,
    mul_div_cancel_right₀ _ (by positivity)]

end Sys2Proof.Machine

/-! ## The geometry of the combining passes, and the twiddle indexes (42_complex_engine.md R91, R97) -/

namespace Sys2Proof.Machine

/-- A plan size by the digits of its WIDTH: a first phase of `4^q` groups of `c` samples, and then `q` passes. -/
structure SizeSplit (p q c : Nat) : Prop where
  samples : c = 2 ∨ c = 4
  size : 2 ^ p = c * 4 ^ q
  width_eq : width (2 ^ p) = 2 * q + 1
  len0_eq : len0 (2 ^ p) = 2 * c

theorem exists_sizeSplit {p : Nat} (hp : 1 ≤ p) : ∃ q c, SizeSplit p q c := by
  obtain ⟨q, hq⟩ := exists_width_eq hp
  have htile := groups_mul_len0 hp
  have hlen := len0_two_pow hp
  rw [hq, Nat.add_sub_cancel, pow_mul, show 2 ^ 2 = 4 from rfl] at htile
  obtain ⟨c, hc, hsamples⟩ : ∃ c, len0 (2 ^ p) = 2 * c ∧ (c = 2 ∨ c = 4) := by
    split at hlen
    · exact ⟨4, hlen, .inr rfl⟩
    · exact ⟨2, hlen, .inl rfl⟩
  rw [hc] at htile
  exact ⟨q, c, hsamples, by linarith, hq, hc⟩

/-- The stride of pass `i` (counted from 0) of `q` passes. -/
def passStride (q i : Nat) : Nat := 2 * 4 ^ (q - 1 - i)

/-- The quarter of a block, in samples, of pass `i`: the block length of the pass before, or of the first phase. -/
def quarterLen (c i : Nat) : Nat := c * 4 ^ i

theorem quarterLen_succ (c i : Nat) : quarterLen c (i + 1) = 4 * quarterLen c i := by
  rw [quarterLen, quarterLen, pow_succ]
  ring

namespace SizeSplit

variable {p q c : Nat}

theorem strides_eq (h : SizeSplit p q c) : strides (2 ^ p) = (List.range q).map (passStride q) := by
  rw [strides, npass, h.width_eq, Nat.add_sub_cancel, Nat.mul_div_cancel_left _ two_pos]
  refine List.map_congr_left fun i hi => ?_
  have hi := List.mem_range.mp hi
  have hq : 2 ^ (2 * q + 1) = passStride q i * 4 ^ (i + 1) := by
    rw [passStride, Nat.mul_assoc, ← pow_add, show q - 1 - i + (i + 1) = q by omega, pow_succ', pow_mul,
      show 2 ^ 2 = 4 from rfl]
  rw [hq, Nat.mul_div_cancel _ (by positivity)]

/-- A block of pass `i` has four quarters (R91): `2N/s` samples. -/
theorem size_eq (h : SizeSplit p q c) {i : Nat} (hi : i < q) : 2 ^ p = 2 * passStride q i * quarterLen c i := by
  rw [h.size, show q = q - 1 - i + 1 + i by omega, pow_add, pow_succ, passStride, quarterLen,
    show q - 1 - i + 1 + i - 1 - i = q - 1 - i by omega]
  ring

theorem blockLen_eq (h : SizeSplit p q c) {i : Nat} (hi : i < q) :
    2 * 2 ^ p / passStride q i * 2 = 8 * quarterLen c i := by
  have hpos : 0 < passStride q i := by rw [passStride]; positivity
  rw [h.size_eq hi, show 2 * (2 * passStride q i * quarterLen c i) = 4 * quarterLen c i * passStride q i by ring,
    Nat.mul_div_cancel _ hpos]
  ring

/-- The last pass has stride 2 (R91). -/
theorem two_mem_strides (h : SizeSplit p q c) (hq : 1 ≤ q) : 2 ∈ strides (2 ^ p) := by
  rw [h.strides_eq, List.mem_map]
  refine ⟨q - 1, List.mem_range.mpr (by omega), ?_⟩
  rw [passStride, Nat.sub_self, pow_zero, Nat.mul_one]

/-- From N = 8 on there is a pass. -/
theorem one_le_passes (h : SizeSplit p q c) (hp : 3 ≤ p) : 1 ≤ q := by
  have hw := h.width_eq
  rw [width_two_pow] at hw
  split at hw <;> omega

end SizeSplit

/-- Whoever asks for the twiddles of a position of a pass asks inside the bound (R97). -/
theorem twiddle_index_bound {p s m f : Nat} (hp : 1 ≤ p) (hs : s ∈ strides (2 ^ p))
    (hm : m < 2 * 2 ^ p / s * 2 / 8) (hf : f ∈ [1, 2, 3]) :
    f * (s * m) % 2 = 0 ∧ f * (s * m) + 1 ≤ 3 * 2 ^ p / 2 - 5 ∧ s * (2 * 2 ^ p / s * 2 / 8 - 1) = 2 ^ p / 2 - s := by
  obtain ⟨q, c, h⟩ := exists_sizeSplit hp
  rw [h.strides_eq, List.mem_map] at hs
  obtain ⟨i, hi, rfl⟩ := hs
  have hi := List.mem_range.mp hi
  rw [h.blockLen_eq hi, Nat.mul_div_cancel_left _ (by norm_num)] at hm ⊢
  obtain ⟨h4, hstride⟩ : 0 < 4 ^ (q - 1 - i) ∧ passStride q i = 2 * 4 ^ (q - 1 - i) := ⟨by positivity, rfl⟩
  have hsize := h.size_eq hi
  generalize passStride q i = s at *
  generalize quarterLen c i = Q at *
  obtain ⟨k, rfl⟩ := Nat.exists_eq_add_of_lt hm
  have hle : ∀ f ∈ [1, 2, 3], f ≤ 3 := by decide
  have hbound : f * (s * m) ≤ 3 * (s * m) := Nat.mul_le_mul_right _ (hle f hf)
  have hexpand : 2 * s * (m + k + 1) = 2 * (s * m) + 2 * (s * k) + 2 * s := by ring
  have hlast : s * (m + k + 1 - 1) = s * m + s * k := by rw [Nat.add_sub_cancel]; ring
  refine ⟨?_, by omega, by omega⟩
  rw [hstride, show f * (2 * 4 ^ (q - 1 - i) * m) = 2 * (f * (4 ^ (q - 1 - i) * m)) by ring, Nat.mul_mod_right]

/-- Both phases' users see the lookup only inside the bound. -/
theorem phase2_lookup_bound {α : Type} (A : Arith α) {p : Nat} (hp : 1 ≤ p) {tw tw' : Nat → α × α}
    (h : 3 ≤ p → ∀ k, k % 2 = 0 → k + 1 ≤ 3 * 2 ^ p / 2 - 5 → tw k = tw' k) (inv : α) (Y : List α) :
    phase2 A tw inv (2 ^ p) Y = phase2 A tw' inv (2 ^ p) Y := by
  refine phase2_lookup_congr A (fun s hs m hm f hf => ?_) inv Y
  obtain ⟨heven, hbound, -⟩ := twiddle_index_bound hp hs hm hf
  refine h ?_ _ heven hbound
  by_contra hlt
  obtain rfl | rfl : p = 1 ∨ p = 2 := by omega
  · exact absurd (show s ∈ [] from hs) List.not_mem_nil
  · exact absurd (show s ∈ [] from hs) List.not_mem_nil

/-- Settles O33: the index of a position is below `N/2` by its stride, and every stride is even. -/
theorem twiddleIndexBound : Obligations.TwiddleIndexBound := by
  refine ⟨fun p hp s hs m hm f hf => ?_, fun p hp => ?_, rfl, rfl, fun α A p inv X tw tw' hp h => ?_,
    fun p hp k hk => ?_⟩
  · obtain ⟨heven, hbound, hlast⟩ := twiddle_index_bound (by omega) hs hm hf
    have := Nat.two_pow_pos p
    exact ⟨heven, hbound, by omega, hlast⟩
  · obtain ⟨q, c, hsplit⟩ := exists_sizeSplit (p := p) (by omega)
    obtain ⟨k, rfl⟩ := Nat.exists_eq_add_of_le' hp
    refine ⟨hsplit.two_mem_strides (hsplit.one_le_passes hp), ?_⟩
    have := Nat.two_pow_pos k
    rw [pow_add]
    omega
  · exact ⟨phase2_lookup_bound A hp h inv _, phase2_lookup_bound A hp h inv _⟩
  · rw [tw, Nat.mod_eq_of_lt (by omega)]

end Sys2Proof.Machine

/-! ## All words +0 in gives all words +0 out (42_complex_engine.md R100, R102) -/

namespace Sys2Proof.Machine

/-! ### No twiddle is an infinity or a NaN -/

theorem finiteWord_fixWord {v : Nat} {x : ℝ} (hv : |(v : ℝ) - fixOne * x| ≤ errBound) (hx : |x| ≤ 1) (neg : Bool) :
    finiteWord (fixWord neg v) = true := by
  have hE : (0 : ℝ) ≤ errBound := Nat.cast_nonneg _
  have hcap : |signUnit neg * ((v : ℝ) / fixOne)| < 2 ^ 1024 - 2 ^ 970 := by
    have hsign : |((signUnit neg : Int) : ℝ)| = 1 := by cases neg <;> simp
    rw [abs_mul, hsign, one_mul]
    exact abs_div_fixOne_lt_overflow (hv.trans (by linarith)) hx
  exact ((isNearestEven_iff hcap).mp (isNearestEven_fixWord neg v)).1

theorem CirclePt.Near.finiteWord_quadrantWords {P : CirclePt} {x : ℝ} (h : P.Near x errBound errBound) (q : Nat) :
    finiteWord (quadrantWords P q).1 = true ∧ finiteWord (quadrantWords P q).2 = true := by
  have hcos := finiteWord_fixWord h.cos (Real.abs_cos_le_one x)
  have hsin := finiteWord_fixWord h.sin (Real.abs_sin_le_one x)
  match q with
  | 0 => exact ⟨hcos false, hsin false⟩
  | 1 => exact ⟨hsin true, hcos false⟩
  | 2 => exact ⟨hcos true, hsin true⟩
  | _ + 3 => exact ⟨hsin false, hcos true⟩

theorem finiteWord_twt {p : Nat} (h1 : 1 ≤ p) (hp : p ≤ 24) (i : Nat) : finiteWord (twt (2 ^ p) i) = true := by
  obtain ⟨k, rfl⟩ := Nat.exists_eq_add_of_le' h1
  have hfin : ∀ i, finiteWord (roundedCosSin (2 ^ (k + 1)) i).1 = true ∧
      finiteWord (roundedCosSin (2 ^ (k + 1)) i).2 = true := fun i => by
    rw [roundedCosSin_eq]
    exact (quadrantPt_near (by omega) (Nat.mod_lt i (Nat.two_pow_pos k))).finiteWord_quadrantWords _
  rw [twt, twPair, twPair]
  split
  · exact (hfin i).1
  · rw [finiteWord_fneg]
    exact (hfin (i - 1)).2

/-! ### Sums and products of zeros -/

theorem roundMag_zero {q : Nat} (hq : 0 < q) : roundMag 0 q = 0 := by
  rw [roundMag_exact (k := 0) hq (by rw [bitsUnits_zero, Nat.zero_mul]), Nat.zero_min]

theorem isZeroWord_pack_zero (neg : Bool) : isZeroWord (pack neg 0) = true := by cases neg <;> decide

section

variable {a b : Word}

/-- A sum of zeros is a zero; only its sign is a matter of theirs. -/
theorem fadd_zeros (ha : isZeroWord a = true) (hb : isZeroWord b = true) :
    fadd a b = pack (a.msb && b.msb) 0 := by
  have hsum : units a + units b = 0 := by rw [(units_eq_zero a).mpr ha, (units_eq_zero b).mpr hb, add_zero]
  rw [fadd_finite (finite_of_isZeroWord ha) (finite_of_isZeroWord hb), sumSign, if_pos hsum, hsum, Int.natAbs_zero,
    roundMag_zero Nat.one_pos]

theorem isZeroWord_fadd (ha : isZeroWord a = true) (hb : isZeroWord b = true) : isZeroWord (fadd a b) = true := by
  rw [fadd_zeros ha hb, isZeroWord_pack_zero]

theorem isZeroWord_fneg (ha : isZeroWord a = true) : isZeroWord (fneg a) = true := by
  rw [isZeroWord_iff] at *
  rw [magBits_fneg, ha]

theorem isZeroWord_fsub (ha : isZeroWord a = true) (hb : isZeroWord b = true) : isZeroWord (fsub a b) = true :=
  isZeroWord_fadd ha (isZeroWord_fneg hb)

/-- `+0` plus or minus a zero of either sign is `+0`. -/
theorem fadd_plusZero (hb : isZeroWord b = true) : fadd plusZero b = plusZero := by
  rw [fadd_zeros (by decide) hb]
  rfl

theorem fsub_plusZero (hb : isZeroWord b = true) : fsub plusZero b = plusZero := fadd_plusZero (isZeroWord_fneg hb)

theorem isZeroWord_fmul (ha : finiteWord a = true) (hb : finiteWord b = true)
    (h : isZeroWord a = true ∨ isZeroWord b = true) : isZeroWord (fmul a b) = true := by
  have hunits : magUnits a * magUnits b = 0 := by
    rw [Nat.mul_eq_zero, magUnits_eq_zero, magUnits_eq_zero]
    exact h
  rw [fmul_finite ha hb, hunits, roundMag_zero (by positivity), isZeroWord_pack_zero]

end

/-! ### The engine on zeros -/

/-- A sample both of whose words are zeros, of either sign. -/
def ZeroSample (z : Word × Word) : Prop := isZeroWord z.1 = true ∧ isZeroWord z.2 = true

/-- The sample `+0, +0`. -/
def zeroSample : Word × Word := (plusZero, plusZero)

theorem zeroSample_zero : ZeroSample zeroSample := ⟨by decide, by decide⟩

theorem finiteWord_fmul_direction {inv x : Word} (hinv : inv = plusOne ∨ inv = minusOne) (hx : finiteWord x = true) :
    finiteWord (fmul inv x) = true := by
  obtain ⟨hone, hminus⟩ := (directionMultiply x).1 (isNaN_of_finite hx)
  obtain rfl | rfl := hinv
  · rwa [plusOne, hone]
  · rw [minusOne, hminus]
    exact (finiteWord_fneg x).trans hx

theorem finiteWord_direction {inv : Word} (hinv : inv = plusOne ∨ inv = minusOne) : finiteWord inv = true := by
  obtain rfl | rfl := hinv <;> decide

section

variable {inv : Word} {tw : Nat → Word × Word}

/-- The radix-4 kernel gives `+0` words when its first sample is `+0` and the others are zeros (R93). -/
theorem radix4_zeros {b c d : Word × Word} (hinv : finiteWord inv = true) (hb : ZeroSample b) (hc : ZeroSample c)
    (hd : ZeroSample d) : radix4 binary64 zeroSample b c d inv = ⟨zeroSample, zeroSample, zeroSample, zeroSample⟩ := by
  obtain ⟨hbr, hbi⟩ := hb
  obtain ⟨hcr, hci⟩ := hc
  obtain ⟨hdr, hdi⟩ := hd
  have hturn : ∀ {x y : Word}, isZeroWord x = true → isZeroWord y = true → isZeroWord (fmul inv (fsub x y)) = true :=
    fun hx hy => isZeroWord_fmul hinv (finite_of_isZeroWord (isZeroWord_fsub hx hy)) (.inr (isZeroWord_fsub hx hy))
  simp only [radix4, binary64, zeroSample, fadd_plusZero, fsub_plusZero, hcr, hci, hturn hbr hdr, hturn hbi hdi,
    isZeroWord_fadd hbr hdr, isZeroWord_fadd hbi hdi]

/-- The twiddle multiply of zeros by a finite factor gives zeros (R95). -/
theorem cmul_zeros {z : Word × Word} {k : Nat} (hinv : inv = plusOne ∨ inv = minusOne) (hz : ZeroSample z)
    (htw : finiteWord (tw k).1 = true ∧ finiteWord (tw k).2 = true) : ZeroSample (cmul binary64 tw z k inv) := by
  obtain ⟨hzr, hzi⟩ := hz
  obtain ⟨htr, hti⟩ := htw
  have hti' := finiteWord_fmul_direction hinv hti
  have hmul : ∀ {x y : Word}, isZeroWord x = true → finiteWord y = true → isZeroWord (fmul x y) = true :=
    fun hx hy => isZeroWord_fmul (finite_of_isZeroWord hx) hy (.inl hx)
  exact ⟨isZeroWord_fsub (hmul hzr htr) (hmul hzi hti'), isZeroWord_fadd (hmul hzr hti') (hmul hzi htr)⟩

theorem sampleOf_replicate_plusZero (n i : Nat) : sampleOf binary64 (List.replicate n plusZero) i = zeroSample := by
  have hword : ∀ j, wordOf binary64 (List.replicate n plusZero) j = plusZero := fun j => by
    rw [wordOf, List.getD_eq_getElem?_getD, List.getElem?_replicate]
    split <;> rfl
  rw [sampleOf, hword, hword, zeroSample]

theorem putSample_replicate_plusZero (n i : Nat) :
    putSample (List.replicate n plusZero) i zeroSample = List.replicate n plusZero := by
  rw [putSample, zeroSample, List.set_replicate_self, List.set_replicate_self]

/-- The combining phase keeps `+0` words (R96). -/
theorem phase2_zeros (hinv : inv = plusOne ∨ inv = minusOne)
    (htw : ∀ k, finiteWord (tw k).1 = true ∧ finiteWord (tw k).2 = true) (N n : Nat) :
    phase2 binary64 tw inv N (List.replicate n plusZero) = List.replicate n plusZero := by
  have hpos : ∀ s q off m, butterfly binary64 tw inv s q off (List.replicate n plusZero) m =
      List.replicate n plusZero := by
    intro s q off m
    have hfactor : ∀ k, ZeroSample (cmul binary64 tw zeroSample k inv) := fun k =>
      cmul_zeros hinv zeroSample_zero (htw k)
    simp only [butterfly, sampleOf_replicate_plusZero, putSample_replicate_plusZero,
      radix4_zeros (finiteWord_direction hinv) (hfactor _) (hfactor _) (hfactor _)]
  refine foldl_keeps (· = List.replicate n plusZero) _ (fun Y s hY => ?_) _ _ rfl
  refine foldl_keeps (· = List.replicate n plusZero) _ (fun Y blk hY => ?_) _ _ hY
  refine foldl_keeps (· = List.replicate n plusZero) _ (fun Y m hY => ?_) _ _ hY
  rw [hY, hpos]

/-- The first phase makes `+0` words of `+0` words (R94). -/
theorem phase1_zeros {p : Nat} (hp : 1 ≤ p) (hinv : finiteWord inv = true) (n : Nat) :
    phase1 binary64 (2 ^ p) inv (List.replicate n plusZero) = List.replicate (2 * 2 ^ p) plusZero := by
  refine List.eq_replicate_iff.mpr ⟨phase1_length _ hp _ _, fun w hw => ?_⟩
  obtain ⟨t, -, ht⟩ := List.mem_flatMap.mp hw
  simp only [sampleOf_replicate_plusZero, radix4_zeros hinv zeroSample_zero zeroSample_zero zeroSample_zero] at ht
  have hzero : isZeroWord plusZero = true := by decide
  split at ht
  · simpa [radix2, binary64, zeroSample, fadd_plusZero hzero, fsub_plusZero hzero] using ht
  · simpa [Quad.words, zeroSample] using ht

end

/-- INV's scaling keeps `+0` (R101). -/
theorem fdiv_plusZero_natWord {p : Nat} (hp : p ≤ 24) : fdiv plusZero (natWord (2 ^ p)) = plusZero := by
  have he : 1022 + p < 2046 := by omega
  have hunits : magUnits plusZero = 0 := (magUnits_eq_zero _).mpr (by decide)
  rw [natWord_two_pow hp, fdiv_finite (by decide) (finiteWord_powerWord he) (isZeroWord_powerWord he), hunits,
    Nat.zero_mul, magUnits_powerWord he, roundMag_zero (Nat.two_pow_pos _), msb_powerWord he]
  rfl

/-- Settles O32: every word the kernels make of `+0` words is `+0` again, whatever the finite twiddles are. -/
theorem zeroInGivesZeroOut : Obligations.ZeroInGivesZeroOut := by
  intro p inv h1 hp hinv
  have hengine : engine binary64 (tw (2 ^ p)) (2 ^ p) inv (List.replicate (2 * 2 ^ p) plusZero) =
      List.replicate (2 * 2 ^ p) plusZero := by
    rw [engine, phase1_zeros h1 (finiteWord_direction hinv),
      phase2_zeros hinv fun k => ⟨finiteWord_twt h1 hp _, finiteWord_twt h1 hp _⟩]
  refine ⟨hengine, ?_⟩
  rw [invWords, hengine, List.map_replicate, fdiv_plusZero_natWord hp]

end Sys2Proof.Machine

/-! ## The engine in exact arithmetic is the discrete Fourier transform (42_complex_engine.md R94, R96, R102)

A block of `M` samples that a phase leaves is the transform of `M` samples of the input, taken from some offset
on with some step; the offset is the digit reversal of the block's number. -/

namespace Sys2Proof.Machine

noncomputable section

open Finset

/-! ### Splitting a transform into four -/

/-- Bin `k` of the transform of the `M` samples `x o, x (o + σ), x (o + 2σ), ..`, with the root `W^σ`. -/
def subDft (x : ℕ → ℂ) (W : ℂ) (σ o M k : ℕ) : ℂ := ∑ n ∈ range M, x (o + n * σ) * (W ^ σ) ^ (n * k)

/-- A position of a combining pass in exact arithmetic: output `i` of position `r` of the block at sample `B`. -/
def combine (η W : ℂ) (σ Q B : ℕ) (z : ℕ → ℂ) (r i : ℕ) : ℂ :=
  ∑ j ∈ range 4, W ^ (j * (σ * r)) * z (B + r + j * Q) * η ^ (j * i)

theorem sum_range_four_mul (f : ℕ → ℂ) (Q : ℕ) :
    ∑ n ∈ range (4 * Q), f n = ∑ j ∈ range 4, ∑ n ∈ range Q, f (4 * n + j) := by
  induction Q with
  | zero => simp
  | succ Q ih =>
    rw [Nat.mul_succ, sum_range_add, ih, ← sum_add_distrib]
    exact sum_congr rfl fun j _ => (sum_range_succ _ _).symm

/-- The transform of `4Q` samples from those of its four interleaved parts (decimation in time). -/
theorem subDft_four_mul {η W : ℂ} {σ Q : ℕ} (hη : η ^ 4 = 1) (hW : W ^ (σ * Q) = η) (x : ℕ → ℂ) (o r i : ℕ) :
    subDft x W σ o (4 * Q) (r + i * Q) =
      ∑ j ∈ range 4, W ^ (j * (σ * r)) * subDft x W (4 * σ) (o + j * σ) Q r * η ^ (j * i) := by
  rw [subDft, sum_range_four_mul]
  refine sum_congr rfl fun j _ => ?_
  rw [subDft, mul_sum, sum_mul]
  refine sum_congr rfl fun n _ => ?_
  have hpow : (W ^ σ) ^ ((4 * n + j) * (r + i * Q)) = W ^ (j * (σ * r)) * (W ^ (4 * σ)) ^ (n * r) * η ^ (j * i) := by
    calc (W ^ σ) ^ ((4 * n + j) * (r + i * Q))
        = (W ^ (σ * Q)) ^ (4 * (n * i)) * (W ^ (j * (σ * r)) * (W ^ (4 * σ)) ^ (n * r) * (W ^ (σ * Q)) ^ (j * i)) := by
          simp only [← pow_mul, ← pow_add]
          congr 1
          ring
      _ = W ^ (j * (σ * r)) * (W ^ (4 * σ)) ^ (n * r) * η ^ (j * i) := by
          rw [hW, pow_mul η 4, hη, one_pow, one_mul]
  rw [hpow, show o + (4 * n + j) * σ = o + j * σ + n * (4 * σ) by ring]
  ring

/-! ### Samples of a buffer of real words -/

/-- The complex number of a sample (R20). -/
def toComplex (z : ℝ × ℝ) : ℂ := ⟨z.1, z.2⟩

/-- Sample `j` of a buffer. -/
def sampleAt (Y : List ℝ) (j : ℕ) : ℂ := toComplex (sampleOf (exactArith ℝ) Y (2 * j))

theorem sampleAt_eq (Y : List ℝ) (j : ℕ) : sampleAt Y j = ⟨Y.getD (2 * j) 0, Y.getD (2 * j + 1) 0⟩ := rfl

theorem sampleAt_congr {Y Z : List ℝ} {j k : ℕ} (hre : Y[2 * j]? = Z[2 * k]?)
    (him : Y[2 * j + 1]? = Z[2 * k + 1]?) : sampleAt Y j = sampleAt Z k := by
  simp only [sampleAt_eq, List.getD_eq_getElem?_getD, hre, him]

theorem sampleAt_putSample_same {Y : List ℝ} {a : ℕ} (h : 2 * a + 1 < Y.length) (z : ℝ × ℝ) :
    sampleAt (putSample Y (2 * a) z) a = toComplex z := by
  have h0 : 2 * a < Y.length := by omega
  simp [sampleAt_eq, putSample, toComplex, h, h0]

theorem sampleAt_putSample_ne {Y : List ℝ} {a x : ℕ} (h : x ≠ a) (z : ℝ × ℝ) :
    sampleAt (putSample Y (2 * a) z) x = sampleAt Y x :=
  sampleAt_congr (putSample_getElem?_ne _ _ _ _ (by omega)) (putSample_getElem?_ne _ _ _ _ (by omega))

/-- Word `i` of part `t` of a list of parts of `k` words each. -/
theorem flatMap_getElem?_const {β γ : Type} {f : β → List γ} {k : ℕ} (hf : ∀ x, (f x).length = k) (xs : List β)
    (t : ℕ) {i : ℕ} (hi : i < k) : (xs.flatMap f)[k * t + i]? = xs[t]?.bind fun x => (f x)[i]? := by
  induction xs generalizing t with
  | nil => simp
  | cons x xs ih =>
    cases t with
    | zero => simp [List.getElem?_append, hf, hi]
    | succ t =>
      rw [List.flatMap_cons, Nat.mul_succ, List.getElem?_append_right (by rw [hf]; omega), hf,
        show k * t + k + i - k = k * t + i by omega, ih, List.getElem?_cons_succ]

/-- Sample `k` of group `t` of a buffer of `n` groups of `c` samples each. -/
theorem sampleAt_flatMap {f : ℕ → List ℝ} {c n t k : ℕ} (hf : ∀ t, (f t).length = 2 * c) (ht : t < n) (hk : k < c) :
    sampleAt ((List.range n).flatMap f) (t * c + k) = sampleAt (f t) k := by
  have hword : ∀ i, i < 2 * c → ((List.range n).flatMap f)[2 * c * t + i]? = (f t)[i]? := fun i hi => by
    rw [flatMap_getElem?_const hf _ t hi, List.getElem?_range ht, Option.bind_some]
  refine sampleAt_congr ?_ ?_
  · rw [← hword _ (by omega)]
    congr 1
    ring
  · rw [← hword _ (by omega)]
    congr 1
    ring

/-! ### The kernels -/

/-- The quarter turn of a direction: `-i` forward, `+i` inverse. -/
def quarterTurn (dir : ℝ) : ℂ := -dir * Complex.I

section

variable {dir : ℝ}

theorem quarterTurn_sq (hdir : dir = 1 ∨ dir = -1) : quarterTurn dir ^ 2 = -1 := by
  obtain rfl | rfl := hdir <;> simp [quarterTurn]

theorem quarterTurn_pow_four (hdir : dir = 1 ∨ dir = -1) : quarterTurn dir ^ 4 = 1 := by
  rw [show 4 = 2 * 2 from rfl, pow_mul, quarterTurn_sq hdir, neg_one_sq]

/-- RADIX4 is the four-point transform (R93). -/
theorem sampleAt_radix4 (hdir : dir = 1 ∨ dir = -1) (w : ℕ → ℝ × ℝ) {i : ℕ} (hi : i < 4) :
    sampleAt (radix4 (exactArith ℝ) (w 0) (w 1) (w 2) (w 3) dir).words i =
      ∑ j ∈ range 4, toComplex (w j) * quarterTurn dir ^ (j * i) := by
  have h2 := quarterTurn_sq hdir
  have h3 : quarterTurn dir ^ 3 = -quarterTurn dir := by rw [pow_succ, h2, neg_one_mul]
  have h4 := quarterTurn_pow_four hdir
  have h6 : quarterTurn dir ^ 6 = -1 := by rw [show 6 = 4 + 2 from rfl, pow_add, h4, h2, one_mul]
  have h9 : quarterTurn dir ^ 9 = quarterTurn dir := by rw [show 9 = 4 * 2 + 1 from rfl, pow_add, pow_mul, h4]; simp
  have hmul : ∀ z : ℂ, z * quarterTurn dir = ⟨dir * z.im, -(dir * z.re)⟩ := fun z => by
    simp [quarterTurn, Complex.ext_iff, mul_comm]
  interval_cases i <;>
    simp [sum_range_succ, h2, h3, h4, h6, h9, hmul, sampleAt_eq, Quad.words, radix4, exactArith, Complex.ext_iff,
      toComplex]
  all_goals constructor <;> ring

/-- RADIX2 is the two-point transform (R92). -/
theorem sampleAt_radix2 (w : ℕ → ℝ × ℝ) {i : ℕ} (hi : i < 2) :
    sampleAt (radix2 (exactArith ℝ) (w 0) (w 1)) i = ∑ j ∈ range 2, toComplex (w j) * (-1) ^ (j * i) := by
  interval_cases i <;>
    simp [sum_range_succ, sampleAt_eq, radix2, exactArith, Complex.ext_iff, toComplex, sub_eq_add_neg]

/-- The factor that CMUL multiplies by in exact arithmetic (R95). -/
def twiddleFactor (tw : ℕ → ℝ × ℝ) (dir : ℝ) (k : ℕ) : ℂ := toComplex ((tw k).1, dir * (tw k).2)

theorem toComplex_cmul (tw : ℕ → ℝ × ℝ) (z : ℝ × ℝ) (k : ℕ) (dir : ℝ) :
    toComplex (cmul (exactArith ℝ) tw z k dir) = twiddleFactor tw dir k * toComplex z := by
  simp only [toComplex, twiddleFactor, cmul, exactArith, Complex.ext_iff, Complex.mul_re, Complex.mul_im]
  constructor <;> ring

/-! ### One position, one block, one pass -/

section

variable {tw : ℕ → ℝ × ℝ} {W : ℂ} {σ Q : ℕ}

theorem eq_of_add_mul_eq {r n i j : ℕ} (hr : r < Q) (hn : n < Q) (h : r + i * Q = n + j * Q) : r = n := by
  have hmod := congrArg (· % Q) h
  simpa only [Nat.add_mul_mod_self_right, Nat.mod_eq_of_lt hr, Nat.mod_eq_of_lt hn] using hmod

/-- The four outputs of a kernel, written to the samples of position `r` of the block at sample `B` (R96). -/
def putQuad (Q B r : ℕ) (Y : List ℝ) (K : Quad ℝ) : List ℝ :=
  putSample (putSample (putSample (putSample Y (2 * (B + r + 0 * Q)) K.fa) (2 * (B + r + 1 * Q)) K.fb)
    (2 * (B + r + 2 * Q)) K.fc) (2 * (B + r + 3 * Q)) K.fd

theorem sampleAt_putQuad {B r i : ℕ} {Y : List ℝ} (hlen : 2 * (B + 4 * Q) ≤ Y.length) (hr : r < Q) (hi : i < 4)
    (K : Quad ℝ) : sampleAt (putQuad Q B r Y K) (B + r + i * Q) = sampleAt K.words i := by
  rw [putQuad]
  interval_cases i
  · rw [sampleAt_putSample_ne (by omega), sampleAt_putSample_ne (by omega), sampleAt_putSample_ne (by omega),
      sampleAt_putSample_same (by omega)]
    rfl
  · rw [sampleAt_putSample_ne (by omega), sampleAt_putSample_ne (by omega),
      sampleAt_putSample_same (by rw [putSample_length]; omega)]
    rfl
  · rw [sampleAt_putSample_ne (by omega), sampleAt_putSample_same (by simp only [putSample_length]; omega)]
    rfl
  · rw [sampleAt_putSample_same (by simp only [putSample_length]; omega)]
    rfl

theorem sampleAt_putQuad_frame {B r x : ℕ} (hx : ∀ i < 4, x ≠ B + r + i * Q) (Y : List ℝ) (K : Quad ℝ) :
    sampleAt (putQuad Q B r Y K) x = sampleAt Y x := by
  rw [putQuad, sampleAt_putSample_ne (hx 3 (by decide)), sampleAt_putSample_ne (hx 2 (by decide)),
    sampleAt_putSample_ne (hx 1 (by decide)), sampleAt_putSample_ne (hx 0 (by decide))]

/-- The four samples that the kernel of a position takes: the first as it is, the others after their CMUL. -/
def kernelInput (tw : ℕ → ℝ × ℝ) (dir : ℝ) (σ Q B : ℕ) (Y : List ℝ) (r : ℕ) : ℕ → ℝ × ℝ
  | 0 => sampleOf (exactArith ℝ) Y (2 * (B + r + 0 * Q))
  | j + 1 => cmul (exactArith ℝ) tw (sampleOf (exactArith ℝ) Y (2 * (B + r + (j + 1) * Q))) ((j + 1) * (2 * σ * r)) dir

theorem butterfly_eq (B : ℕ) (Y : List ℝ) (r : ℕ) :
    butterfly (exactArith ℝ) tw dir (2 * σ) (2 * Q) (2 * B) Y r = putQuad Q B r Y
      (radix4 (exactArith ℝ) (kernelInput tw dir σ Q B Y r 0) (kernelInput tw dir σ Q B Y r 1)
        (kernelInput tw dir σ Q B Y r 2) (kernelInput tw dir σ Q B Y r 3) dir) := by
  have h0 : 2 * B + 2 * r = 2 * (B + r + 0 * Q) := by ring
  have h1 : 2 * (B + r + 0 * Q) + 2 * Q = 2 * (B + r + 1 * Q) := by ring
  have h2 : 2 * (B + r + 1 * Q) + 2 * Q = 2 * (B + r + 2 * Q) := by ring
  have h3 : 2 * (B + r + 2 * Q) + 2 * Q = 2 * (B + r + 3 * Q) := by ring
  simp only [butterfly, h0, h1, h2, h3]
  simp only [putQuad, kernelInput, Nat.zero_add, Nat.one_mul, Nat.reduceAdd]

theorem toComplex_kernelInput (htw : ∀ e, twiddleFactor tw dir (2 * e) = W ^ e) (B : ℕ) (Y : List ℝ) (r j : ℕ) :
    toComplex (kernelInput tw dir σ Q B Y r j) = W ^ (j * (σ * r)) * sampleAt Y (B + r + j * Q) := by
  cases j with
  | zero => rw [Nat.zero_mul, pow_zero, one_mul, kernelInput, sampleAt]
  | succ j =>
    rw [kernelInput, toComplex_cmul, show (j + 1) * (2 * σ * r) = 2 * ((j + 1) * (σ * r)) by ring, htw, sampleAt]

/-- The four samples of a position become the kernel's outputs. -/
theorem sampleAt_butterfly (hdir : dir = 1 ∨ dir = -1) (htw : ∀ e, twiddleFactor tw dir (2 * e) = W ^ e) {B r i : ℕ}
    {Y : List ℝ} (hlen : 2 * (B + 4 * Q) ≤ Y.length) (hr : r < Q) (hi : i < 4) :
    sampleAt (butterfly (exactArith ℝ) tw dir (2 * σ) (2 * Q) (2 * B) Y r) (B + r + i * Q) =
      combine (quarterTurn dir) W σ Q B (sampleAt Y) r i := by
  rw [butterfly_eq, sampleAt_putQuad hlen hr hi, sampleAt_radix4 hdir _ hi, combine]
  exact sum_congr rfl fun j _ => by rw [toComplex_kernelInput htw]

theorem sampleAt_butterfly_frame {B r x : ℕ} {Y : List ℝ} (hx : ∀ i < 4, x ≠ B + r + i * Q) :
    sampleAt (butterfly (exactArith ℝ) tw dir (2 * σ) (2 * Q) (2 * B) Y r) x = sampleAt Y x := by
  rw [butterfly_eq, sampleAt_putQuad_frame hx]

/-- Two buffers that agree on a position's four samples have the same outputs there. -/
theorem combine_congr {η : ℂ} {B r i : ℕ} {z z' : ℕ → ℂ} (h : ∀ j < 4, z (B + r + j * Q) = z' (B + r + j * Q)) :
    combine η W σ Q B z r i = combine η W σ Q B z' r i :=
  sum_congr rfl fun j hj => by rw [h j (mem_range.mp hj)]

/-- The first `n` positions of the block at sample `B`. -/
def blockUpTo (tw : ℕ → ℝ × ℝ) (dir : ℝ) (σ Q B : ℕ) (Y : List ℝ) (n : ℕ) : List ℝ :=
  (List.range n).foldl (butterfly (exactArith ℝ) tw dir (2 * σ) (2 * Q) (2 * B)) Y

theorem blockUpTo_succ (B : ℕ) (Y : List ℝ) (n : ℕ) : blockUpTo tw dir σ Q B Y (n + 1) =
    butterfly (exactArith ℝ) tw dir (2 * σ) (2 * Q) (2 * B) (blockUpTo tw dir σ Q B Y n) n := by
  rw [blockUpTo, List.range_succ, List.foldl_append, List.foldl_cons, List.foldl_nil, blockUpTo]

theorem blockUpTo_length (B : ℕ) (Y : List ℝ) (n : ℕ) : (blockUpTo tw dir σ Q B Y n).length = Y.length := by
  induction n with
  | zero => rfl
  | succ n ih => rw [blockUpTo_succ, butterfly_length, ih]

/-- The positions of a block do not disturb each other: each is combined from the samples before the pass (R96). -/
theorem sampleAt_blockUpTo (hdir : dir = 1 ∨ dir = -1) (htw : ∀ e, twiddleFactor tw dir (2 * e) = W ^ e) {B : ℕ}
    {Y : List ℝ} (hlen : 2 * (B + 4 * Q) ≤ Y.length) {n : ℕ} (hn : n ≤ Q) {r i : ℕ} (hr : r < Q) (hi : i < 4) :
    sampleAt (blockUpTo tw dir σ Q B Y n) (B + r + i * Q) =
      if r < n then combine (quarterTurn dir) W σ Q B (sampleAt Y) r i else sampleAt Y (B + r + i * Q) := by
  induction n generalizing r i with
  | zero => rfl
  | succ n ih =>
    have hn' : n ≤ Q := by omega
    rw [blockUpTo_succ]
    obtain rfl | hne := eq_or_ne r n
    · rw [sampleAt_butterfly hdir htw (by rwa [blockUpTo_length]) hr hi, if_pos (Nat.lt_succ_self r)]
      exact combine_congr fun j hj => by rw [ih hn' hr hj, if_neg (lt_irrefl r)]
    · rw [sampleAt_butterfly_frame, ih hn' hr hi]
      · exact if_congr (by omega) rfl rfl
      · intro j _ heq
        rw [Nat.add_assoc, Nat.add_assoc, Nat.add_left_cancel_iff] at heq
        exact hne (eq_of_add_mul_eq hr (by omega) heq)

/-- Samples outside the block keep their values. -/
theorem sampleAt_blockUpTo_frame {B x : ℕ} {Y : List ℝ} {n : ℕ} (hn : n ≤ Q) (hx : x < B ∨ B + 4 * Q ≤ x) :
    sampleAt (blockUpTo tw dir σ Q B Y n) x = sampleAt Y x := by
  induction n with
  | zero => rfl
  | succ n ih =>
    rw [blockUpTo_succ, sampleAt_butterfly_frame, ih (by omega)]
    intro i hi
    interval_cases i <;> omega

/-- The first `n` blocks of a pass. -/
def passUpTo (tw : ℕ → ℝ × ℝ) (dir : ℝ) (σ Q : ℕ) (Y : List ℝ) (n : ℕ) : List ℝ :=
  (List.range n).foldl (fun Z b => blockUpTo tw dir σ Q (b * (4 * Q)) Z Q) Y

theorem passUpTo_succ (Y : List ℝ) (n : ℕ) : passUpTo tw dir σ Q Y (n + 1) =
    blockUpTo tw dir σ Q (n * (4 * Q)) (passUpTo tw dir σ Q Y n) Q := by
  rw [passUpTo, List.range_succ, List.foldl_append, List.foldl_cons, List.foldl_nil, passUpTo]

theorem passUpTo_length (Y : List ℝ) (n : ℕ) : (passUpTo tw dir σ Q Y n).length = Y.length := by
  induction n with
  | zero => rfl
  | succ n ih => rw [passUpTo_succ, blockUpTo_length, ih]

/-- The blocks of a pass do not disturb each other (R96). -/
theorem sampleAt_passUpTo (hdir : dir = 1 ∨ dir = -1) (htw : ∀ e, twiddleFactor tw dir (2 * e) = W ^ e)
    {Y : List ℝ} {n : ℕ} (hlen : 2 * (n * (4 * Q)) ≤ Y.length) {b r i : ℕ} (hr : r < Q) (hi : i < 4) :
    sampleAt (passUpTo tw dir σ Q Y n) (b * (4 * Q) + r + i * Q) =
      if b < n then combine (quarterTurn dir) W σ Q (b * (4 * Q)) (sampleAt Y) r i
      else sampleAt Y (b * (4 * Q) + r + i * Q) := by
  induction n generalizing i with
  | zero => rfl
  | succ n ih =>
    rw [Nat.succ_mul n] at hlen
    have hlen' : 2 * (n * (4 * Q)) ≤ Y.length := by omega
    have hin : r + i * Q < 4 * Q := by interval_cases i <;> omega
    rw [passUpTo_succ]
    obtain hlt | rfl | hgt := Nat.lt_trichotomy b n
    · have hbefore : b * (4 * Q) + 4 * Q ≤ n * (4 * Q) := by
        rw [← Nat.succ_mul]
        exact Nat.mul_le_mul_right _ hlt
      rw [sampleAt_blockUpTo_frame le_rfl (.inl (by omega)), ih hlen' hi, if_pos hlt, if_pos (by omega)]
    · rw [sampleAt_blockUpTo hdir htw (by rw [passUpTo_length]; omega) le_rfl hr hi, if_pos hr,
        if_pos (Nat.lt_succ_self b)]
      exact combine_congr fun j hj => by rw [ih hlen' hj, if_neg (lt_irrefl b)]
    · have hafter : n * (4 * Q) + 4 * Q ≤ b * (4 * Q) := by
        rw [← Nat.succ_mul]
        exact Nat.mul_le_mul_right _ hgt
      rw [sampleAt_blockUpTo_frame le_rfl (.inr (by omega)), ih hlen' hi, if_neg (by omega), if_neg (by omega)]

/-- A pass of stride `2σ` at size `4σQ` has `σ` blocks of `4Q` samples (R91). -/
theorem pass_eq_passUpTo {N : ℕ} (hN : N = 4 * σ * Q) (hσ : 0 < σ) (hQ : 0 < Q) (Y : List ℝ) :
    pass (exactArith ℝ) tw dir N Y (2 * σ) = passUpTo tw dir σ Q Y σ := by
  have hlen : 2 * N / (2 * σ) * 2 = 8 * Q := by
    rw [hN, show 2 * (4 * σ * Q) = 4 * Q * (2 * σ) by ring, Nat.mul_div_cancel _ (by omega)]
    ring
  have hblocks : 2 * N / (8 * Q) = σ := by
    rw [hN, show 2 * (4 * σ * Q) = σ * (8 * Q) by ring, Nat.mul_div_cancel _ (by omega)]
  have hpositions : 8 * Q / 8 = Q := Nat.mul_div_cancel_left _ (by norm_num)
  have hquarter : 8 * Q / 4 = 2 * Q := by omega
  have hoffset : ∀ b, b * (8 * Q) = 2 * (b * (4 * Q)) := fun b => by ring
  simp only [pass, hlen, hblocks, hpositions, hquarter, hoffset]
  rfl

/-! ### The phases -/

/-- The block number `4b + j` of a pass has the offset of block `b` of the next, `j` steps on. -/
theorem rev4_four_mul_add {q b j : ℕ} (hj : j < 4) : rev4 (q + 1) (4 * b + j) = rev4 q b + j * 4 ^ q := by
  rw [rev4, Nat.mul_add_mod, Nat.mod_eq_of_lt hj, Nat.mul_add_div (by norm_num), Nat.div_eq_of_lt hj, Nat.add_zero,
    Nat.add_comm]

/-- The buffer holds the transforms of the input `x`: in blocks of `M` samples, block `b` that of every `4^l`-th
sample from the digit reversal of `b` on. -/
def HoldsTransforms (W : ℂ) (x : ℕ → ℂ) (l M : ℕ) (Y : List ℝ) : Prop :=
  ∀ b < 4 ^ l, ∀ k < M, sampleAt Y (b * M + k) = subDft x W (4 ^ l) (rev4 l b) M k

/-- A pass turns the transforms of four blocks into that of one. -/
theorem holdsTransforms_pass (hdir : dir = 1 ∨ dir = -1) (htw : ∀ e, twiddleFactor tw dir (2 * e) = W ^ e) {N l : ℕ}
    {x : ℕ → ℂ} {Y : List ℝ} (hN : N = 4 * 4 ^ l * Q) (hQ : 0 < Q) (hW : W ^ (4 ^ l * Q) = quarterTurn dir)
    (hlen : 2 * N ≤ Y.length) (h : HoldsTransforms W x (l + 1) Q Y) :
    HoldsTransforms W x l (4 * Q) (pass (exactArith ℝ) tw dir N Y (2 * 4 ^ l)) := by
  intro b hb k hk
  have hsplit : k = k % Q + k / Q * Q := (Nat.mod_add_div' k Q).symm
  have hi : k / Q < 4 := Nat.div_lt_of_lt_mul (by rwa [Nat.mul_comm])
  rw [hsplit, pass_eq_passUpTo hN (by positivity) hQ, ← Nat.add_assoc,
    sampleAt_passUpTo hdir htw (by rw [hN] at hlen; linarith) (Nat.mod_lt k hQ) hi, if_pos hb,
    combine, subDft_four_mul (quarterTurn_pow_four hdir) hW]
  refine sum_congr rfl fun j hj => ?_
  have hj := mem_range.mp hj
  have hblock := h (4 * b + j) (by rw [pow_succ]; omega) (k % Q) (Nat.mod_lt k hQ)
  rw [rev4_four_mul_add hj, pow_succ'] at hblock
  rw [← hblock, show (4 * b + j) * Q + k % Q = b * (4 * Q) + k % Q + j * Q by ring]

/-- Sample `j` of group `t` of the first phase. -/
def groupInput (X : List ℝ) (q t j : ℕ) : ℝ × ℝ := sampleOf (exactArith ℝ) X (2 * (rev4 q t + j * 4 ^ q))

/-- The first phase makes the transforms of `c` samples each, by RADIX2 or RADIX4 (R94). -/
theorem holdsTransforms_phase1 (hdir : dir = 1 ∨ dir = -1) {p q c : ℕ} (h : SizeSplit p q c)
    (hW2 : c = 2 → W ^ 4 ^ q = -1) (hW4 : c = 4 → W ^ 4 ^ q = quarterTurn dir) (X : List ℝ) :
    HoldsTransforms W (sampleAt X) q c (phase1 (exactArith ℝ) (2 ^ p) dir X) := by
  intro b hb k hk
  have hgroups : 2 ^ (width (2 ^ p) - 1) = 4 ^ q := by
    rw [h.width_eq, Nat.add_sub_cancel, pow_mul, show 2 ^ 2 = 4 from rfl]
  have hstep : 2 ^ width (2 ^ p) = 2 * 4 ^ q := by rw [h.width_eq, pow_succ', pow_mul, show 2 ^ 2 = 4 from rfl]
  have hlen := h.len0_eq
  have h0 : 2 * rev4 q b = 2 * (rev4 q b + 0 * 4 ^ q) := by ring
  have h1 : 2 * rev4 q b + 2 * 4 ^ q = 2 * (rev4 q b + 1 * 4 ^ q) := by ring
  have h2 : 2 * rev4 q b + 2 * (2 * 4 ^ q) = 2 * (rev4 q b + 2 * 4 ^ q) := by ring
  have h3 : 2 * rev4 q b + 3 * (2 * 4 ^ q) = 2 * (rev4 q b + 3 * 4 ^ q) := by ring
  obtain rfl | rfl := h.samples
  · have hkernel := sampleAt_radix2 (groupInput X q b) hk
    simp only [phase1, hgroups, hstep, hlen]
    rw [sampleAt_flatMap (fun t => by simp) hb hk, subDft, hW2 rfl, brt_lower h.width_eq hb,
      if_pos trivial, h1, h0]
    exact hkernel
  · have hkernel := sampleAt_radix4 hdir (groupInput X q b) hk
    simp only [phase1, hgroups, hstep, hlen]
    rw [sampleAt_flatMap (fun t => by simp) hb hk, subDft, hW4 rfl, brt_lower h.width_eq hb,
      if_neg (by decide), h1, h2, h3, h0]
    exact hkernel

/-- The first `m` passes of the combining phase, of `q` in all. -/
def passesUpTo (tw : ℕ → ℝ × ℝ) (dir : ℝ) (N q : ℕ) (Y : List ℝ) (m : ℕ) : List ℝ :=
  ((List.range m).map (passStride q)).foldl (pass (exactArith ℝ) tw dir N) Y

theorem passesUpTo_succ (N q : ℕ) (Y : List ℝ) (m : ℕ) : passesUpTo tw dir N q Y (m + 1) =
    pass (exactArith ℝ) tw dir N (passesUpTo tw dir N q Y m) (passStride q m) := by
  rw [passesUpTo, List.range_succ, List.map_append, List.foldl_append, List.map_singleton, List.foldl_cons,
    List.foldl_nil, passesUpTo]

theorem passesUpTo_length (N q : ℕ) (Y : List ℝ) (m : ℕ) : (passesUpTo tw dir N q Y m).length = Y.length := by
  induction m with
  | zero => rfl
  | succ m ih => rw [passesUpTo_succ, pass_length, ih]

/-- Each pass joins the transforms of the pass before it, four by four. -/
theorem holdsTransforms_passesUpTo (hdir : dir = 1 ∨ dir = -1) (htw : ∀ e, twiddleFactor tw dir (2 * e) = W ^ e)
    {p q c : ℕ} (h : SizeSplit p q c) (hW : ∀ M, 2 ^ p = 4 * M → W ^ M = quarterTurn dir) {x : ℕ → ℂ} {Y : List ℝ}
    (hlen : Y.length = 2 * 2 ^ p) (hY : HoldsTransforms W x q c Y) {m : ℕ} (hm : m ≤ q) :
    HoldsTransforms W x (q - m) (quarterLen c m) (passesUpTo tw dir (2 ^ p) q Y m) := by
  induction m with
  | zero => rwa [Nat.sub_zero, quarterLen, pow_zero, Nat.mul_one]
  | succ m ih =>
    have hsize : 2 ^ p = 4 * 4 ^ (q - 1 - m) * quarterLen c m := by
      rw [h.size_eq hm, passStride]
      ring
    have hQ : 0 < quarterLen c m := by
      obtain rfl | rfl := h.samples <;> rw [quarterLen] <;> positivity
    have hbefore := ih (by omega)
    rw [show q - m = q - 1 - m + 1 by omega] at hbefore
    rw [passesUpTo_succ, quarterLen_succ, passStride, show q - (m + 1) = q - 1 - m by omega]
    exact holdsTransforms_pass hdir htw hsize hQ (hW _ (by rw [hsize, Nat.mul_assoc]))
      (by rw [passesUpTo_length, hlen]) hbefore

/-- The combining phase makes one transform of those of the first phase (R96). -/
theorem holdsTransforms_phase2 (hdir : dir = 1 ∨ dir = -1) (htw : ∀ e, twiddleFactor tw dir (2 * e) = W ^ e)
    {p q c : ℕ} (h : SizeSplit p q c) (hW : ∀ M, 2 ^ p = 4 * M → W ^ M = quarterTurn dir) {x : ℕ → ℂ} {Y : List ℝ}
    (hlen : Y.length = 2 * 2 ^ p) (hY : HoldsTransforms W x q c Y) :
    HoldsTransforms W x 0 (2 ^ p) (phase2 (exactArith ℝ) tw dir (2 ^ p) Y) := by
  have hlast := holdsTransforms_passesUpTo hdir htw h hW hlen hY le_rfl
  rwa [Nat.sub_self, quarterLen, ← h.size, passesUpTo, ← h.strides_eq] at hlast

end

/-! ### The root of unity -/

/-- `e^(-+2*pi*i/N)`, by the direction (R102). -/
def dftRoot (dir : ℝ) (N : ℕ) : ℂ := Complex.exp (((-dir * (2 * Real.pi / N) : ℝ) : ℂ) * Complex.I)

theorem dftRoot_pow (dir : ℝ) (N e : ℕ) :
    dftRoot dir N ^ e = Complex.exp (((-dir * (2 * Real.pi * e / N) : ℝ) : ℂ) * Complex.I) := by
  rw [dftRoot, ← Complex.exp_nat_mul]
  congr 1
  push_cast
  ring

/-- A power of `e` at an angle against the direction. -/
theorem exp_direction (hdir : dir = 1 ∨ dir = -1) (θ : ℝ) :
    Complex.exp (((-dir * θ : ℝ) : ℂ) * Complex.I) = ⟨Real.cos θ, dir * -Real.sin θ⟩ := by
  refine Complex.ext ?_ ?_
  · rw [Complex.exp_ofReal_mul_I_re]
    obtain rfl | rfl := hdir <;> simp
  · rw [Complex.exp_ofReal_mul_I_im]
    obtain rfl | rfl := hdir <;> simp

theorem dftRoot_pow_half {N M : ℕ} (hM : 0 < M) (hN : N = 2 * M) (hdir : dir = 1 ∨ dir = -1) :
    dftRoot dir N ^ M = -1 := by
  have hangle : 2 * Real.pi * M / N = Real.pi := by
    rw [hN]
    push_cast
    field_simp
  rw [dftRoot_pow, hangle, exp_direction hdir]
  simp [Complex.ext_iff]

theorem dftRoot_pow_quarter {N M : ℕ} (hM : 0 < M) (hN : N = 4 * M) (hdir : dir = 1 ∨ dir = -1) :
    dftRoot dir N ^ M = quarterTurn dir := by
  have hangle : 2 * Real.pi * M / N = Real.pi / 2 := by
    rw [hN]
    push_cast
    field_simp
    norm_num
  rw [dftRoot_pow, hangle, exp_direction hdir, quarterTurn]
  simp [Complex.ext_iff]

theorem twiddleFactor_exact {tw : ℕ → ℝ × ℝ} {p : ℕ} (hdir : dir = 1 ∨ dir = -1)
    (htw : ∀ j : ℕ, tw j = (Real.cos (Real.pi * j / 2 ^ p), -Real.sin (Real.pi * j / 2 ^ p))) (e : ℕ) :
    twiddleFactor tw dir (2 * e) = dftRoot dir (2 ^ p) ^ e := by
  have hangle : Real.pi * (2 * e : ℕ) / 2 ^ p = 2 * Real.pi * e / (2 ^ p : ℕ) := by
    push_cast
    ring
  rw [twiddleFactor, htw, hangle, dftRoot_pow, exp_direction hdir, toComplex]

end

/-- Settles O31: the first phase makes small transforms, each pass joins four of them, and the last makes one. -/
theorem exactEngineIsDft : Obligations.ExactEngineIsDft := by
  intro p X dir tw hp _ hdir htw k re im hk hre him
  obtain ⟨q, c, h⟩ := exists_sizeSplit hp
  have hpos : ∀ {M n : ℕ}, 2 ^ p = n * M → 0 < M := fun hM =>
    Nat.pos_of_ne_zero (by rintro rfl; exact absurd hM (by simp))
  have hfirst := holdsTransforms_phase1 (W := dftRoot dir (2 ^ p)) hdir h
    (fun hc => dftRoot_pow_half (by positivity) (hc ▸ h.size) hdir)
    (fun hc => dftRoot_pow_quarter (by positivity) (hc ▸ h.size) hdir) X
  have hall := holdsTransforms_phase2 hdir (twiddleFactor_exact hdir htw) h
    (fun M hM => dftRoot_pow_quarter (hpos hM) hM hdir) (phase1_length _ hp dir X) hfirst 0 (by norm_num) k hk
  have hsample : sampleAt (engine (exactArith ℝ) tw (2 ^ p) dir X) k = ⟨re, im⟩ := by
    rw [sampleAt_eq, List.getD_eq_getElem?_getD, List.getD_eq_getElem?_getD, hre, him]
    rfl
  rw [Nat.zero_mul, Nat.zero_add, ← engine, hsample] at hall
  rw [hall, subDft]
  refine sum_congr rfl fun n _ => ?_
  rw [pow_zero, pow_one, Nat.mul_one, rev4, Nat.zero_add, dftRoot_pow, sampleAt_eq]
  push_cast
  simp only [mul_assoc]

end

end Sys2Proof.Machine

/-! ## The completion of RFWD (43_real_engine.md R105 to R107) -/

namespace Sys2Proof.Machine

/-- Settles O27: RFWD's pseudocode is the transform by PHASE1R(+1.0) and PHASE2(+1.0). -/
theorem rfwdCompletes : Obligations.RfwdCompletes := by
  intro s c d x p X ht hs hc hinv hp hpn hX hword
  obtain rfl := Ctx.dst_of_instr hc rfl
  obtain rfl := Ctx.src_of_instr hc rfl
  have hlen : (rfwdWords s.pn c.inv.word X).length = 2 * s.pn := hpn ▸ rfwdWords_length hp _ X
  have h := exec_engine_transform ht hs hc rfl hX hword hlen
  rwa [hinv] at h

end Sys2Proof.Machine

/-! ## Words equal as numbers: what the operations make of them (00_scope.md R15; 43_real_engine.md R108) -/

namespace Sys2Proof.Machine

/-- The same word, or zeros that may differ in sign. -/
def SameUpToZeroSign (a b : Word) : Prop := a = b ∨ (isZeroWord a = true ∧ isZeroWord b = true)

/-- A NaN is CNAN, as in the result of every operation but `fneg` (R15). -/
def Canonical (w : Word) : Prop := isNaN w = true → w = cnan

section

variable {a a' b b' : Word}

theorem canonical_fadd (a b : Word) : Canonical (fadd a b) := eq_cnan_of_isNaN fadd_of_isNaN fadd_cnanExactlyIf

theorem canonical_fsub (a b : Word) : Canonical (fsub a b) := eq_cnan_of_isNaN fsub_of_isNaN fsub_cnanExactlyIf

theorem canonical_fmul (a b : Word) : Canonical (fmul a b) := eq_cnan_of_isNaN fmul_of_isNaN fmul_cnanExactlyIf

theorem SameUpToZeroSign.trans {c : Word} (h : SameUpToZeroSign a b) (h' : SameUpToZeroSign b c) :
    SameUpToZeroSign a c := by
  obtain rfl | ⟨ha, hb⟩ := h
  · exact h'
  obtain rfl | ⟨-, hc⟩ := h'
  · exact .inr ⟨ha, hb⟩
  · exact .inr ⟨ha, hc⟩

theorem sameNumber_refl (a : Word) : sameNumber a a := by
  cases hn : isNaN a
  · exact .inr ⟨hn, hn, .inl rfl⟩
  · exact .inl ⟨hn, hn⟩

theorem SameUpToZeroSign.sameNumber (h : SameUpToZeroSign a b) : sameNumber a b := by
  obtain rfl | ⟨ha, hb⟩ := h
  · exact sameNumber_refl a
  · exact .inr ⟨isNaN_of_finite (finite_of_isZeroWord ha), isNaN_of_finite (finite_of_isZeroWord hb), .inr ⟨ha, hb⟩⟩

/-- Only a NaN's sign and payload, and a zero's sign, are no part of the number. -/
theorem sameUpToZeroSign_of_canonical (h : sameNumber a b) (ha : Canonical a) (hb : Canonical b) :
    SameUpToZeroSign a b := by
  obtain ⟨hna, hnb⟩ | ⟨-, -, h⟩ := h
  · exact .inl ((ha hna).trans (hb hnb).symm)
  · exact h

/-! ### Adding a zero -/

/-- A zero of either sign added to a word that is neither a NaN nor a zero leaves the word. -/
theorem fadd_zero_left (ha : isZeroWord a = true) (hn : isNaN b = false) (h0 : isZeroWord b = false) :
    fadd a b = b := by
  have hfa := finite_of_isZeroWord ha
  obtain hb | hb | hb := word_cases b
  · simp [hn] at hb
  · exact fadd_finite_inf hfa hb
  have hpos : 0 < magUnits b := Nat.pos_of_ne_zero fun h => by simp [(magUnits_eq_zero b).mp h] at h0
  have hsum : units a + units b = units b := by rw [(units_eq_zero a).mpr ha, zero_add]
  have hsign : sumSign a b = b.msb := by
    rw [sumSign, hsum, if_neg (by rw [units_eq_zero, h0]; decide), units_eq]
    cases b.msb <;> simp [hpos]
  have hmag : roundMag (magUnits b) 1 = magBits b := by
    rw [roundMag_exact Nat.one_pos (by rw [magUnits_eq, Nat.mul_one]), Nat.min_eq_left ((finiteWord_iff b).mp hb).le]
  rw [fadd_finite hfa hb, hsign, hsum, natAbs_units, hmag, pack_msb_magBits]

theorem sameUpToZeroSign_fadd_zero_left (ha : isZeroWord a = true) (hb : Canonical b) :
    SameUpToZeroSign b (fadd a b) := by
  cases hn : isNaN b with
  | true => exact .inl ((hb hn).trans (fadd_of_isNaN (.inr hn)).symm)
  | false =>
    cases h0 : isZeroWord b with
    | true => exact .inr ⟨h0, isZeroWord_fadd ha h0⟩
    | false => exact .inl (fadd_zero_left ha hn h0).symm

theorem fadd_comm (a b : Word) : fadd a b = fadd b a := by
  by_cases hnan : isNaN a = true ∨ isNaN b = true
  · rw [fadd_of_isNaN hnan, fadd_of_isNaN hnan.symm]
  simp only [not_or, Bool.not_eq_true] at hnan
  obtain ⟨ha, hb⟩ | ⟨ha, hb⟩ | ⟨ha, hb⟩ | ⟨ha, hb⟩ := operand_cases hnan.1 hnan.2
  · rw [fadd_inf_inf ha hb, fadd_inf_inf hb ha]
    by_cases hs : a.msb = b.msb
    · rw [if_pos hs, if_pos hs.symm]
      exact word_ext hs (((isInf_iff a).mp ha).trans ((isInf_iff b).mp hb).symm)
    · rw [if_neg hs, if_neg (Ne.symm hs)]
  · rw [fadd_inf_finite ha hb, fadd_finite_inf hb ha]
  · rw [fadd_finite_inf ha hb, fadd_inf_finite hb ha]
  · rw [fadd_finite ha hb, fadd_finite hb ha, sumSign, sumSign, Int.add_comm, Bool.and_comm]

theorem fmul_comm (a b : Word) : fmul a b = fmul b a := by
  by_cases hnan : isNaN a = true ∨ isNaN b = true
  · rw [fmul_of_isNaN hnan, fmul_of_isNaN hnan.symm]
  simp only [not_or, Bool.not_eq_true] at hnan
  obtain ⟨ha, hb⟩ | ⟨ha, hb⟩ | ⟨ha, hb⟩ | ⟨ha, hb⟩ := operand_cases hnan.1 hnan.2
  · rw [fmul_inf_inf ha hb, fmul_inf_inf hb ha, xorInf_comm]
  · rw [fmul_inf_finite ha hb, fmul_finite_inf hb ha, xorInf_comm]
  · rw [fmul_finite_inf ha hb, fmul_inf_finite hb ha, xorInf_comm]
  · rw [fmul_finite ha hb, fmul_finite hb ha, Bool.xor_comm, Nat.mul_comm]

/-! ### The operations on numbers -/

/-- The number of the first addend decides the sum, but for the sign of a zero. -/
theorem sameNumber.fadd_left (h : sameNumber a a') (b : Word) : SameUpToZeroSign (fadd a b) (fadd a' b) := by
  obtain ⟨hn, hn'⟩ | ⟨-, -, rfl | ⟨hz, hz'⟩⟩ := h
  · exact .inl ((fadd_of_isNaN (.inl hn)).trans (fadd_of_isNaN (.inl hn')).symm)
  · exact .inl rfl
  cases hn : isNaN b with
  | true => exact .inl ((fadd_of_isNaN (.inr hn)).trans (fadd_of_isNaN (.inr hn)).symm)
  | false =>
    cases h0 : isZeroWord b with
    | true => exact .inr ⟨isZeroWord_fadd hz h0, isZeroWord_fadd hz' h0⟩
    | false => exact .inl ((fadd_zero_left hz hn h0).trans (fadd_zero_left hz' hn h0).symm)

/-- The number of the first factor decides the product, but for the sign of a zero. -/
theorem sameNumber.fmul_left (h : sameNumber a a') (b : Word) : SameUpToZeroSign (fmul a b) (fmul a' b) := by
  obtain ⟨hn, hn'⟩ | ⟨-, -, rfl | ⟨hz, hz'⟩⟩ := h
  · exact .inl ((fmul_of_isNaN (.inl hn)).trans (fmul_of_isNaN (.inl hn')).symm)
  · exact .inl rfl
  have hfa := finite_of_isZeroWord hz
  have hfa' := finite_of_isZeroWord hz'
  obtain hb | hb | hb := word_cases b
  · exact .inl ((fmul_of_isNaN (.inr hb)).trans (fmul_of_isNaN (.inr hb)).symm)
  · rw [fmul_finite_inf hfa hb, fmul_finite_inf hfa' hb, if_pos hz, if_pos hz']
    exact .inl rfl
  · exact .inr ⟨isZeroWord_fmul hfa hb (.inl hz), isZeroWord_fmul hfa' hb (.inl hz')⟩

theorem sameNumber.fadd (ha : sameNumber a a') (hb : sameNumber b b') : sameNumber (fadd a b) (fadd a' b') := by
  refine ((ha.fadd_left b).trans ?_).sameNumber
  rw [fadd_comm a' b, fadd_comm a' b']
  exact hb.fadd_left a'

theorem sameNumber.fmul (ha : sameNumber a a') (hb : sameNumber b b') : sameNumber (fmul a b) (fmul a' b') := by
  refine ((ha.fmul_left b).trans ?_).sameNumber
  rw [fmul_comm a' b, fmul_comm a' b']
  exact hb.fmul_left a'

theorem sameNumber.fneg (h : sameNumber a b) : sameNumber (fneg a) (fneg b) := by
  obtain ⟨ha, hb⟩ | ⟨ha, hb, rfl | ⟨hza, hzb⟩⟩ := h
  · exact .inl ⟨(isNaN_fneg a).trans ha, (isNaN_fneg b).trans hb⟩
  · exact sameNumber_refl _
  · exact SameUpToZeroSign.sameNumber (.inr ⟨isZeroWord_fneg hza, isZeroWord_fneg hzb⟩)

theorem sameNumber.fsub (ha : sameNumber a a') (hb : sameNumber b b') : sameNumber (fsub a b) (fsub a' b') :=
  ha.fadd hb.fneg

end

end Sys2Proof.Machine

/-! ## The combining phase on equal numbers (42_complex_engine.md R95, R96; 43_real_engine.md R108) -/

namespace Sys2Proof.Machine

/-- Samples whose words are equal as numbers. -/
def SameSample (z z' : Word × Word) : Prop := sameNumber z.1 z'.1 ∧ sameNumber z.2 z'.2

/-- Buffers whose words are equal as numbers, one by one. -/
def SameWords (Y Y' : List Word) : Prop := List.Forall₂ sameNumber Y Y'

theorem forall₂_set {α β : Type} {R : α → β → Prop} {xs : List α} {ys : List β} (h : List.Forall₂ R xs ys) {a : α}
    {b : β} (hab : R a b) (i : Nat) : List.Forall₂ R (xs.set i a) (ys.set i b) := by
  induction h generalizing i with
  | nil => exact .nil
  | cons hxy hrest ih =>
    cases i with
    | zero => exact .cons hab hrest
    | succ i => exact .cons hxy (ih i)

section

variable {Y Y' : List Word} {tw : Nat → Word × Word}

theorem SameWords.wordOf (h : SameWords Y Y') (i : Nat) :
    sameNumber (wordOf binary64 Y i) (wordOf binary64 Y' i) := by
  induction h generalizing i with
  | nil => exact sameNumber_refl _
  | cons hxy _ ih =>
    cases i with
    | zero => exact hxy
    | succ i => exact ih i

theorem SameWords.sampleOf (h : SameWords Y Y') (i : Nat) :
    SameSample (sampleOf binary64 Y i) (sampleOf binary64 Y' i) := ⟨h.wordOf i, h.wordOf (i + 1)⟩

theorem SameWords.putSample (h : SameWords Y Y') {z z' : Word × Word} (hz : SameSample z z') (i : Nat) :
    SameWords (putSample Y i z) (putSample Y' i z') := forall₂_set (forall₂_set h hz.1 i) hz.2 (i + 1)

theorem SameSample.cmul {z z' : Word × Word} (h : SameSample z z') (k : Nat) (inv : Word) :
    SameSample (cmul binary64 tw z k inv) (cmul binary64 tw z' k inv) := by
  have hfactor : ∀ {x x' : Word} (t : Word), sameNumber x x' → sameNumber (fmul x t) (fmul x' t) :=
    fun t hx => hx.fmul (sameNumber_refl t)
  obtain ⟨hr, hi⟩ := h
  exact ⟨(hfactor _ hr).fsub (hfactor _ hi), (hfactor _ hr).fadd (hfactor _ hi)⟩

/-- The radix-4 kernel on equal numbers (R93). -/
theorem sameSample_radix4 {a a' b b' c c' d d' : Word × Word} (ha : SameSample a a') (hb : SameSample b b')
    (hc : SameSample c c') (hd : SameSample d d') (inv : Word) :
    SameSample (radix4 binary64 a b c d inv).fa (radix4 binary64 a' b' c' d' inv).fa ∧
    SameSample (radix4 binary64 a b c d inv).fb (radix4 binary64 a' b' c' d' inv).fb ∧
    SameSample (radix4 binary64 a b c d inv).fc (radix4 binary64 a' b' c' d' inv).fc ∧
    SameSample (radix4 binary64 a b c d inv).fd (radix4 binary64 a' b' c' d' inv).fd := by
  obtain ⟨har, hai⟩ := ha
  obtain ⟨hbr, hbi⟩ := hb
  obtain ⟨hcr, hci⟩ := hc
  obtain ⟨hdr, hdi⟩ := hd
  have h0r := har.fadd hcr
  have h0i := hai.fadd hci
  have h1r := har.fsub hcr
  have h1i := hai.fsub hci
  have h2r := hbr.fadd hdr
  have h2i := hbi.fadd hdi
  have h3r := (sameNumber_refl inv).fmul (hbr.fsub hdr)
  have h3i := (sameNumber_refl inv).fmul (hbi.fsub hdi)
  exact ⟨⟨h0r.fadd h2r, h0i.fadd h2i⟩, ⟨h1r.fadd h3i, h1i.fsub h3r⟩, ⟨h0r.fsub h2r, h0i.fsub h2i⟩,
    ⟨h1r.fsub h3i, h1i.fadd h3r⟩⟩

theorem SameWords.butterfly (h : SameWords Y Y') (inv : Word) (s q outOff m : Nat) :
    SameWords (butterfly binary64 tw inv s q outOff Y m) (butterfly binary64 tw inv s q outOff Y' m) := by
  obtain ⟨hfa, hfb, hfc, hfd⟩ := sameSample_radix4 (h.sampleOf _) ((h.sampleOf _).cmul (tw := tw) _ inv)
    ((h.sampleOf _).cmul _ inv) ((h.sampleOf _).cmul _ inv) inv
  exact (((h.putSample hfa _).putSample hfb _).putSample hfc _).putSample hfd _

/-- The combining phase keeps buffers equal as numbers. -/
theorem SameWords.phase2 (h : SameWords Y Y') (inv : Word) (N : Nat) :
    SameWords (phase2 binary64 tw inv N Y) (phase2 binary64 tw inv N Y') := by
  refine List.foldl_rel h fun s _ Z Z' hZ => ?_
  refine List.foldl_rel hZ fun blk _ Z Z' hZ => ?_
  exact List.foldl_rel hZ fun m _ Z Z' hZ => hZ.butterfly inv _ _ _ m

end

/-! ### A pass leaves no NaN but CNAN -/

/-- A sample neither of whose words is a NaN other than CNAN. -/
def CanonicalSample (z : Word × Word) : Prop := Canonical z.1 ∧ Canonical z.2

/-- Word `x` of a buffer, where there is one, is no NaN but CNAN. -/
def CanonicalAt (x : Nat) (Y : List Word) : Prop := ∀ w, Y[x]? = some w → Canonical w

/-- A fold reaches a property that one of its steps makes and that every step keeps. -/
theorem foldl_makes {β γ : Type} (P : β → Prop) (f : β → γ → β) (hkeep : ∀ b c, P b → P (f b c)) {xs : List γ}
    {c : γ} (hc : c ∈ xs) (hmake : ∀ b, P (f b c)) (b : β) : P (xs.foldl f b) := by
  obtain ⟨before, after, rfl⟩ := List.append_of_mem hc
  rw [List.foldl_append, List.foldl_cons]
  exact foldl_keeps P f hkeep after _ (hmake _)

section

variable {x : Nat} {tw : Nat → Word × Word} {inv : Word}

theorem canonicalAt_set {Y : List Word} {i : Nat} {v : Word} (hv : Canonical v) (h : x = i ∨ CanonicalAt x Y) :
    CanonicalAt x (Y.set i v) := by
  intro w hw
  rw [List.getElem?_set] at hw
  split at hw
  case isTrue =>
    split at hw
    · exact Option.some.inj hw ▸ hv
    · cases hw
  case isFalse hne => exact h.resolve_left (Ne.symm hne) w hw

theorem canonicalAt_putSample {Y : List Word} {i : Nat} {z : Word × Word} (hz : CanonicalSample z)
    (h : ¬ (x = i ∨ x = i + 1) → CanonicalAt x Y) : CanonicalAt x (putSample Y i z) := by
  obtain ⟨hre, him⟩ := hz
  refine canonicalAt_set him (or_iff_not_imp_left.mpr fun hodd => canonicalAt_set hre ?_)
  exact or_iff_not_imp_left.mpr fun heven => h (not_or.mpr ⟨heven, hodd⟩)

/-- A position makes its eight words canonical, for they are sums and differences, and leaves the others (R96). -/
theorem canonicalAt_butterfly {s q outOff m : Nat} {Y : List Word}
    (h : (∃ r < 4, x = outOff + 2 * m + r * q ∨ x = outOff + 2 * m + r * q + 1) ∨ CanonicalAt x Y) :
    CanonicalAt x (butterfly binary64 tw inv s q outOff Y m) := by
  refine canonicalAt_putSample ⟨canonical_fsub _ _, canonical_fadd _ _⟩ fun hd => ?_
  refine canonicalAt_putSample ⟨canonical_fsub _ _, canonical_fsub _ _⟩ fun hc => ?_
  refine canonicalAt_putSample ⟨canonical_fadd _ _, canonical_fsub _ _⟩ fun hb => ?_
  refine canonicalAt_putSample ⟨canonical_fadd _ _, canonical_fadd _ _⟩ fun ha => h.resolve_left ?_
  rintro ⟨r, hr, hx⟩
  interval_cases r <;> omega

theorem canonicalAt_pass {N s : Nat} {Y : List Word} (h : CanonicalAt x Y) :
    CanonicalAt x (pass binary64 tw inv N Y s) := by
  refine foldl_keeps (CanonicalAt x) _ (fun Z blk hZ => ?_) _ _ h
  exact foldl_keeps (CanonicalAt x) _ (fun Z m hZ => canonicalAt_butterfly (.inr hZ)) _ _ hZ

/-- Every word of `n` blocks of four quarters of `Q` samples is one of the eight of some position (R91, R96). -/
theorem exists_position {n Q : Nat} (hx : x < n * (8 * Q)) :
    ∃ b < n, ∃ m < Q, ∃ r < 4, x = b * (8 * Q) + 2 * m + r * (2 * Q) ∨ x = b * (8 * Q) + 2 * m + r * (2 * Q) + 1 := by
  have hQ : 0 < Q := Nat.pos_of_ne_zero (by rintro rfl; simp at hx)
  have hb : x / (8 * Q) < n := Nat.div_lt_of_lt_mul (by rwa [Nat.mul_comm])
  have hword := Nat.mod_lt x (show 0 < 8 * Q by omega)
  have hr : x % (8 * Q) / (2 * Q) < 4 := Nat.div_lt_of_lt_mul (by omega)
  have hm := Nat.mod_lt (x % (8 * Q)) (show 0 < 2 * Q by omega)
  have hblock := Nat.div_add_mod' x (8 * Q)
  have hquarter := Nat.div_add_mod' (x % (8 * Q)) (2 * Q)
  exact ⟨_, hb, x % (8 * Q) % (2 * Q) / 2, by omega, _, hr, by omega⟩

/-- The passes write every word. -/
theorem canonicalAt_phase2 {p q c : Nat} (h : SizeSplit p q c) (hq : 1 ≤ q) (hx : x < 2 * 2 ^ p) (Y : List Word) :
    CanonicalAt x (phase2 binary64 tw inv (2 ^ p) Y) := by
  have hmem : passStride q 0 ∈ strides (2 ^ p) := by
    rw [h.strides_eq]
    exact List.mem_map_of_mem (List.mem_range.mpr hq)
  have hlen := h.blockLen_eq hq
  have htile : 2 * 2 ^ p = 4 ^ (q - 1) * (8 * quarterLen c 0) := by
    rw [h.size_eq hq, passStride, Nat.sub_zero]
    ring
  have hpos : 0 < 8 * quarterLen c 0 := Nat.pos_of_ne_zero fun h0 => by simp [h0] at htile
  have hblocks : 2 * 2 ^ p / (8 * quarterLen c 0) = 4 ^ (q - 1) := by rw [htile, Nat.mul_div_cancel _ hpos]
  obtain ⟨b, hb, m, hm, hposition⟩ := exists_position (htile ▸ hx)
  refine foldl_makes (CanonicalAt x) _ (fun Z s hZ => canonicalAt_pass hZ) hmem (fun Z => ?_) Y
  simp only [pass, hlen, hblocks, Nat.mul_div_cancel_left (quarterLen c 0) (show 0 < 8 by norm_num)]
  refine foldl_makes (CanonicalAt x) _ (fun Z b hZ => ?_) (List.mem_range.mpr hb) (fun Z => ?_) Z
  · exact foldl_keeps (CanonicalAt x) _ (fun Z m hZ => canonicalAt_butterfly (.inr hZ)) _ _ hZ
  · refine foldl_makes (CanonicalAt x) _ (fun Z m hZ => canonicalAt_butterfly (.inr hZ)) (List.mem_range.mpr hm)
      (fun Z => canonicalAt_butterfly (.inl ?_)) Z
    rwa [show 8 * quarterLen c 0 / 4 = 2 * quarterLen c 0 by omega]

end

end Sys2Proof.Machine

/-! ## The first phase on real words, and the statement (43_real_engine.md R103 to R105, R108) -/

namespace Sys2Proof.Machine

/-- R2C on words (R85): sample `k` is (word `k`, `+0`). -/
def realToComplex (r : List Word) : List Word := r.flatMap fun x => [x, plusZero]

/-- How far the first phases of RFWD and of FWD, of `c` samples a group, may differ (R108): in the sign of a zero and,
by the `fneg` of RADIX4R, in the sign of CNAN. -/
def FirstPhaseAgrees (c : Nat) (a b : Word) : Prop :=
  SameUpToZeroSign a b ∨ (c = 4 ∧ a = 0xFFF8000000000000 ∧ b = 0x7FF8000000000000)

theorem FirstPhaseAgrees.sameNumber {c : Nat} {a b : Word} (h : FirstPhaseAgrees c a b) : sameNumber a b := by
  obtain h | ⟨-, rfl, rfl⟩ := h
  · exact h.sameNumber
  · exact .inl ⟨by decide, by decide⟩

theorem sampleOf_realToComplex (r : List Word) (k : Nat) :
    sampleOf binary64 (realToComplex r) (2 * k) = (wordOf binary64 r k, plusZero) := by
  have hword : ∀ i < 2, (realToComplex r)[2 * k + i]? = r[k]?.bind fun x => [x, plusZero][i]? := fun i hi =>
    flatMap_getElem?_const (f := fun x => [x, plusZero]) (fun _ => rfl) r k hi
  have hre := hword 0 (by norm_num)
  have him := hword 1 (by norm_num)
  rw [Nat.add_zero] at hre
  simp only [sampleOf, wordOf, List.getD_eq_getElem?_getD, hre, him]
  cases r[k]? <;> rfl

/-! ### The kernels -/

theorem fadd_plusZero_plusZero : fadd plusZero plusZero = plusZero := fadd_plusZero (by decide)

theorem fsub_plusZero_plusZero : fsub plusZero plusZero = plusZero := fsub_plusZero (by decide)

/-- RADIX2 on real samples is RADIX2R, bit for bit (R92, R103). -/
theorem radix2_real (e o : Word) : radix2 binary64 (e, plusZero) (o, plusZero) = radix2r binary64 e o := by
  simp only [radix2, radix2r, binary64, fadd_plusZero_plusZero, fsub_plusZero_plusZero]

/-- A NaN's sign is all that `fneg x` and `+0 - x` differ in, but for the sign of a zero. -/
theorem firstPhaseAgrees_fneg {x : Word} (hx : Canonical x) : FirstPhaseAgrees 4 (fneg x) (fsub plusZero x) := by
  cases hn : isNaN x with
  | true =>
    rw [hx hn]
    exact .inr ⟨rfl, by decide, by decide⟩
  | false =>
    refine .inl (sameUpToZeroSign_fadd_zero_left (by decide) fun hnan => ?_)
    rw [isNaN_fneg, hn] at hnan
    exact absurd hnan Bool.false_ne_true

/-- RADIX4 on real samples adds zeros to words of RADIX4R (R93, R104). -/
theorem firstPhaseAgrees_radix4 (a b c d : Word) :
    List.Forall₂ (FirstPhaseAgrees 4) (radix4r binary64 a b c d plusOne)
      (radix4 binary64 (a, plusZero) (b, plusZero) (c, plusZero) (d, plusZero) plusOne).words := by
  have hturn : fmul plusOne plusZero = plusZero := ((directionMultiply plusZero).1 (by decide)).1
  have hsame : ∀ w, FirstPhaseAgrees 4 w w := fun w => .inl (.inl rfl)
  have hleft : ∀ {x}, Canonical x → FirstPhaseAgrees 4 x (fadd plusZero x) := fun hx =>
    .inl (sameUpToZeroSign_fadd_zero_left (by decide) hx)
  have hright : ∀ {z x}, isZeroWord z = true → Canonical x → FirstPhaseAgrees 4 x (fadd x z) := fun hz hx => by
    rw [fadd_comm]
    exact .inl (sameUpToZeroSign_fadd_zero_left hz hx)
  have ht1 := canonical_fsub a c
  have ht3 := canonical_fmul plusOne (fsub b d)
  simp only [radix4, radix4r, Quad.words, binary64, fadd_plusZero_plusZero, fsub_plusZero_plusZero, hturn]
  exact .cons (hsame _) (.cons (hsame _) (.cons (hright (by decide) ht1) (.cons (firstPhaseAgrees_fneg ht3)
    (.cons (hsame _) (.cons (hsame _) (.cons (hright (by decide) ht1) (.cons (hleft ht3) .nil)))))))

/-! ### The first phases -/

theorem SizeSplit.groups_eq {p q c : Nat} (h : SizeSplit p q c) : 2 ^ (width (2 ^ p) - 1) = 4 ^ q := by
  rw [h.width_eq, Nat.add_sub_cancel, pow_mul, show 2 ^ 2 = 4 from rfl]

theorem SizeSplit.step_eq {p q c : Nat} (h : SizeSplit p q c) : 2 ^ width (2 ^ p) = 2 * 4 ^ q := by
  rw [h.width_eq, pow_succ', pow_mul, show 2 ^ 2 = 4 from rfl]

/-- The first phases of RFWD and of FWD on the same real words (R94, R105): group by group, the same samples. -/
theorem firstPhaseAgrees {p q c : Nat} (h : SizeSplit p q c) (r : List Word) :
    List.Forall₂ (FirstPhaseAgrees c) (phase1r binary64 (2 ^ p) plusOne r)
      (phase1 binary64 (2 ^ p) plusOne (realToComplex r)) := by
  have hhalf : ∀ k : Nat, (2 * k) >>> 1 = k := fun k => by omega
  have hoffset : ∀ t j : Nat, 2 * t + j * (2 * 4 ^ q) = 2 * (t + j * 4 ^ q) := fun t j => by ring
  have hoffset1 : ∀ t : Nat, 2 * t + 2 * 4 ^ q = 2 * (t + 4 ^ q) := fun t => by ring
  have hsame : List.Forall₂ (fun t u => t = u ∧ t < 4 ^ q) (List.range (4 ^ q)) (List.range (4 ^ q)) :=
    List.forall₂_same.mpr fun t ht => ⟨rfl, List.mem_range.mp ht⟩
  rw [phase1r, phase1, h.groups_eq, h.step_eq, h.len0_eq]
  refine List.rel_flatMap hsame ?_
  rintro t _ ⟨rfl, ht⟩
  simp only [brt_lower h.width_eq ht, hhalf, hoffset, hoffset1, sampleOf_realToComplex]
  obtain rfl | rfl := h.samples
  · rw [if_pos rfl, if_pos rfl, radix2_real]
    exact List.forall₂_same.mpr fun w _ => .inl (.inl rfl)
  · exact firstPhaseAgrees_radix4 _ _ _ _

/-- At N = 2 and 4 there is no pass (R91). -/
theorem phase2_of_no_passes {p c : Nat} (h : SizeSplit p 0 c) (tw : Nat → Word × Word) (inv : Word) (Y : List Word) :
    phase2 binary64 tw inv (2 ^ p) Y = Y := by
  rw [phase2, h.strides_eq]
  rfl

theorem forall₂_getElem? {α β : Type} {R : α → β → Prop} {xs : List α} {ys : List β} (h : List.Forall₂ R xs ys)
    {i : Nat} {a : α} {b : β} (ha : xs[i]? = some a) (hb : ys[i]? = some b) : R a b := by
  obtain ⟨hi, rfl⟩ := List.getElem?_eq_some_iff.mp ha
  obtain ⟨hi', rfl⟩ := List.getElem?_eq_some_iff.mp hb
  exact h.get hi hi'

/-- Settles O30: the first phases agree on numbers, the passes keep that, and any pass leaves no NaN but CNAN; without
a pass, at N = 2 and 4, the words are those of the first phases. -/
theorem rfwdAgreesWithFwd : Obligations.RfwdAgreesWithFwd := by
  intro p r hp _ _ i a b hi ha hb
  obtain ⟨q, c, h⟩ := exists_sizeSplit hp
  have hfirst := firstPhaseAgrees h r
  obtain rfl | hq := Nat.eq_zero_or_pos q
  · rw [engineR, phase2_of_no_passes h] at ha
    rw [engine, phase2_of_no_passes h] at hb
    have hab := forall₂_getElem? hfirst ha hb
    refine ⟨hab.sameNumber, ?_⟩
    obtain (heq | hzero) | ⟨hc, hnan⟩ := hab
    · exact .inl heq
    · exact .inr (.inl hzero)
    · have hsize : 2 ^ p = 2 ^ 2 := h.size.trans (by rw [hc]; rfl)
      exact .inr (.inr ⟨Nat.pow_right_injective le_rfl hsize, hnan⟩)
  · have hfirstSame : SameWords _ _ := hfirst.imp fun _ _ => FirstPhaseAgrees.sameNumber
    have hab := forall₂_getElem? (hfirstSame.phase2 plusOne (2 ^ p)) ha hb
    refine ⟨hab, ?_⟩
    obtain heq | hzero := sameUpToZeroSign_of_canonical hab (canonicalAt_phase2 h hq hi _ a ha)
      (canonicalAt_phase2 h hq hi _ b hb)
    · exact .inl heq
    · exact .inr (.inl hzero)

end Sys2Proof.Machine

/-! ## The checks of acceptance in their order, and what each outcome leaves (60_exceptions.md R111 to R113) -/

namespace Sys2Proof.Machine

section
variable {s : State} {i : Instr}

/-- The sizes that pass `valid_size` are the plan sizes (R74). -/
theorem validSize_iff_isPlanSize (n : BitVec 32) : validSize n = true ↔ IsPlanSize n.toInt := by
  refine ⟨fun h => ?_, fun ⟨p, hp, hn⟩ => validSize_of_two_pow hp hn⟩
  obtain ⟨p, hp, hn⟩ := exists_two_pow_of_validSize h
  exact ⟨p, hp, by rw [hn, Nat.cast_pow, Nat.cast_ofNat]⟩

/-! ### The checks that can fail, one command class at a time -/

/-- Only NOP and PLAN need no plan (R111). -/
theorem needsPlan_of_ne (hnop : i ≠ .nop) (hplan : i ≠ .plan) : needsPlan i = true := by
  cases i
  case nop => exact absurd rfl hnop
  case plan => exact absurd rfl hplan
  all_goals rfl

theorem ne_plan_of_needsPlan (h : needsPlan i = true) : i ≠ .plan := by
  rintro rfl
  exact Bool.false_ne_true h

/-- The plan is checked before the banks (R111). -/
theorem acceptError_noPlan (hi : needsPlan i = true) (hpv : s.pv = false) :
    acceptError i s = some .noPlan := by
  simp [acceptError, hi, hpv]

/-- The banks are checked before they are compared (R111). -/
theorem acceptError_badBuffer (hpv : s.pv = true)
    (hbank : (∃ d, dstOf i = some d ∧ s.build.nbuf ≤ d) ∨ ∃ x, srcOf i = some x ∧ s.build.nbuf ≤ x) :
    acceptError i s = some .badBuffer := by
  obtain ⟨d, hd, hle⟩ | ⟨x, hx, hle⟩ := hbank
  · simp [acceptError, hpv, hd, hle]
  · simp [acceptError, hpv, hx, hle]

theorem acceptError_aliasing {d : Nat} (hpv : s.pv = true) (hlt : d < s.build.nbuf)
    (hi : isTransform i = true) (hd : dstOf i = some d) (hx : srcOf i = some d) :
    acceptError i s = some .aliasing := by
  simp [acceptError, hpv, hi, hd, hx, Nat.not_le.mpr hlt]

/-- PLAN has no bank operand and needs no plan: only its size is checked (R74, R111). -/
theorem acceptError_plan (s : State) : acceptError .plan s =
    if validSize s.arg = false then some .invalidSize
    else if (s.build.nmax : Int) < s.arg.toInt then some .sizeUnsupported else none := by
  simp [acceptError, needsPlan, dstOf, srcOf, isTransform, sizeOperand]

/-- A command of format F2 none of whose checks fails (R65, R111). -/
theorem acceptError_formatF2 {d x : Nat} (hpv : s.pv = true) (hi : needsPlan i = true)
    (hdst : dstOf i = some d) (hsrc : srcOf i = some x) (hd : d < s.build.nbuf) (hx : x < s.build.nbuf)
    (hne : isTransform i = true → d ≠ x) : acceptError i s = none := by
  simpa [acceptError, hpv, ne_plan_of_needsPlan hi, hdst, hsrc, Nat.not_le.mpr hd, Nat.not_le.mpr hx] using hne

/-- A command of format F1 none of whose checks fails (R65, R111). -/
theorem acceptError_formatF1 {d : Nat} (hpv : s.pv = true) (hi : needsPlan i = true)
    (hdst : dstOf i = some d) (hsrc : srcOf i = none) (hd : d < s.build.nbuf) : acceptError i s = none := by
  simp [acceptError, hpv, ne_plan_of_needsPlan hi, hdst, hsrc, Nat.not_le.mpr hd]

/-! ### What acceptance and rejection leave -/

/-- A command that passes every check and has an engine operation runs (R111). -/
theorem exec_accepted {op : Op} (hturn : s.turn = .host) (hidle : s.seq = .idle)
    (hop : opOf i = some op) (herr : acceptError i s = none) :
    exec i s = .next { s.beginCheck i.opcode with seq := .running (ctxOf op i s) } := by
  rw [exec_host i hturn, State.issue_idle (State.busy_idle hidle), State.accept_runs herr hop]

/-- A command that fails a check is rejected with that check's code (R112, R113). -/
theorem exec_rejected {e : ErrCode} (hturn : s.turn = .host) (hidle : s.seq = .idle)
    (herr : acceptError i s = some e) : ∃ t, exec i s = .next t ∧ RejectedWith s t i.opcode e := by
  rw [exec_host i hturn, State.issue_idle (State.busy_idle hidle), State.accept_error herr]
  exact ⟨_, rfl, rfl⟩

end

/-! ### The statements -/

/-- Settles O13: PLAN's size is legal, and the banks of the others exist and differ where they must. -/
theorem acceptedCommandRuns : Obligations.AcceptedCommandRuns := by
  refine fun s hturn hidle => ⟨fun p hp hmax harg => ?_, fun hpv d x hd hx => ?_⟩
  · have hsize : s.arg.toInt ≤ (s.build.nmax : Int) := by
      rw [harg, Build.nmax]
      exact_mod_cast Nat.pow_le_pow_right Nat.two_pos hmax
    have herr : acceptError .plan s = none := by
      simp [acceptError_plan, validSize_of_two_pow hp harg, hsize]
    have hn : (sizeOperand s).toNat = 2 ^ p := by
      rw [sizeOperand, harg]
      exact Int.toNat_natCast (2 ^ p)
    rw [exec_accepted hturn hidle rfl herr, ctxOf, if_pos rfl, hn]
    rfl
  · have hF2 : ∀ {i : Instr} {op : Op}, opOf i = some op → needsPlan i = true → dstOf i = some d →
        srcOf i = some x → (isTransform i = true → d ≠ x) →
        exec i s = .next { s.beginCheck i.opcode with seq := .running (ctxOf op i s) } :=
      fun hop hi hdst hsrc hne => exec_accepted hturn hidle hop (acceptError_formatF2 hpv hi hdst hsrc hd hx hne)
    have hF1 : ∀ {i : Instr} {op : Op}, opOf i = some op → needsPlan i = true → dstOf i = some d →
        srcOf i = none → exec i s = .next { s.beginCheck i.opcode with seq := .running (ctxOf op i s) } :=
      fun hop hi hdst hsrc => exec_accepted hturn hidle hop (acceptError_formatF1 hpv hi hdst hsrc hd)
    refine ⟨fun hne => ?_, fun hne => ?_, fun hne => ?_, ?_, ?_, ?_, ?_⟩
    · exact hF2 (i := .fwd d x) rfl rfl rfl rfl fun _ => hne
    · exact hF2 (i := .inv d x) rfl rfl rfl rfl fun _ => hne
    · exact hF2 (i := .rfwd d x) rfl rfl rfl rfl fun _ => hne
    · exact hF2 (i := .r2c d x) rfl rfl rfl rfl fun h => nomatch h
    · exact hF2 (i := .c2r d x) rfl rfl rfl rfl fun h => nomatch h
    · exact hF1 (i := .clr d) rfl rfl rfl rfl
    · exact hF1 (i := .cspec d) rfl rfl rfl rfl

/-- Settles O14: under each clause the checks before the one named pass, and that one fails. -/
theorem firstFailedCheckIsReported : Obligations.FirstFailedCheckIsReported := by
  refine ⟨fun s w hb hidle hill => ⟨_, illegalWordsAreRejected.2.2 s w hb hidle hill, rfl⟩, fun s hturn hidle =>
    ⟨fun i hnop hplan hpv => ?_, fun d x hpv hbank i hi => ?_, fun d hpv hbank i hi => ?_,
      fun d hpv hlt i hi => ?_, fun hsize => ?_, fun hsize hmax => ?_⟩⟩
  · exact exec_rejected hturn hidle (acceptError_noPlan (needsPlan_of_ne hnop hplan) hpv)
  · have hops : dstOf i = some d ∧ srcOf i = some x := by
      fin_cases hi <;> exact ⟨rfl, rfl⟩
    obtain ⟨hdst, hsrc⟩ := hops
    exact exec_rejected hturn hidle (acceptError_badBuffer hpv
      (hbank.imp (fun h => ⟨d, hdst, h⟩) fun h => ⟨x, hsrc, h⟩))
  · have hdst : dstOf i = some d := by
      fin_cases hi <;> rfl
    exact exec_rejected hturn hidle (acceptError_badBuffer hpv (.inl ⟨d, hdst, hbank⟩))
  · have hops : isTransform i = true ∧ dstOf i = some d ∧ srcOf i = some d := by
      fin_cases hi <;> exact ⟨rfl, rfl, rfl⟩
    obtain ⟨htrans, hdst, hsrc⟩ := hops
    exact exec_rejected hturn hidle (acceptError_aliasing hpv hlt htrans hdst hsrc)
  · rw [← validSize_iff_isPlanSize, Bool.not_eq_true] at hsize
    exact exec_rejected hturn hidle (by simp [acceptError_plan, hsize])
  · rw [← validSize_iff_isPlanSize] at hsize
    exact exec_rejected hturn hidle (by simp [acceptError_plan, hsize, hmax])

end Sys2Proof.Machine

/-! ## Completions, and what raises irq (60_exceptions.md R114 to R116) -/

namespace Sys2Proof.Machine

section
variable {s u : State}

/-- Only NOP completes at acceptance (R73). -/
theorem eq_nop_of_opOf_eq_none {i : Instr} (h : opOf i = none) : i = .nop := by
  cases i
  case nop => rfl
  all_goals exact nomatch h

/-- A word written to CMD while idle that starts no command was rejected or is NOP's (R111, R113). -/
theorem err_or_nop_of_issueInput {w : Word} (hb : s.build.Legal) (hturn : s.turn = .host)
    (hidle : s.seq = .idle) (h : serve (issueInput s.build w) s = .next u) (hu : u.seq = .idle) :
    u.err = true ∨ decode w = .ok .nop := by
  rw [serve_issueInput hb, writeCmd] at h
  split at h
  case h_1 i hdec =>
    rw [exec_host (s := s.reply .okay) i hturn, State.issue_idle (s := s.reply .okay) (State.busy_idle hidle)] at h
    cases h
    cases herr : acceptError i (s.reply .okay) with
    | some e => exact .inl (by rw [State.accept_error herr]; rfl)
    | none =>
      cases hop : opOf i with
      | none => exact .inr (by rw [hdec, eq_nop_of_opOf_eq_none hop])
      | some op =>
        rw [State.accept_runs herr hop] at hu
        cases hu
  case h_2 =>
    rw [State.issueIllegal_idle (s := s.reply .okay) hidle] at h
    cases h
    exact .inl rfl

/-- An input that takes irq from 0 to 1: a command word that starts nothing, or a CTRL write that sets IRQ_EN while
DONE = 1 (R42, R115). -/
theorem Served.irq_rises {i : Input} (h : Served s i u) (hs : s.irq = false) (hu : u.irq = true) :
    (∃ w, i = issueInput s.build w ∧ s.seq = .idle ∧ u.seq = .idle) ∨
    (∃ w, i = .write (s.build.base + 0x08) 8 w ∧ w.toNat / 2 % 2 = 0 ∧ w.toNat % 2 = 1 ∧ s.done = true) := by
  rw [State.irq, Bool.and_eq_true] at hu
  obtain ⟨hen, hdone⟩ := hu
  have hold : ¬ (s.irqEn = true ∧ s.done = true) := by
    rw [← Bool.and_eq_true, Bool.not_eq_true]
    exact hs
  cases h with
  | unnoticed i h =>
    rw [h] at hen hdone
    exact absurd ⟨hen, hdone⟩ hold
  | ctrl w =>
    cases hw : w.getLsbD 1 with
    | true =>
      rw [State.writeCtrl_reset hw] at hen
      cases hen
    | false =>
      rw [State.writeCtrl_irqEn hw] at hen hdone
      have h1 : ¬ w.toNat / 2 % 2 = 1 := by
        rw [← getLsbD_one_iff, hw]
        exact Bool.false_ne_true
      exact .inr ⟨w, rfl, by omega, (getLsbD_zero_iff w).mp hen, hdone⟩
  | status w =>
    rw [State.writeStatus, Bool.and_eq_true] at hdone
    exact absurd ⟨hen, hdone.1⟩ hold
  | rejected w op hidle hc => exact .inl ⟨w, rfl, hidle, hidle⟩
  | nop w op hidle => exact .inl ⟨w, rfl, hidle, hidle⟩
  | powerOn => cases hen
  | runs w hidle herr hop => cases hdone
  | arg w => exact absurd ⟨hen, hdone⟩ hold
  | bank k i v hidle hk hi => exact absurd ⟨hen, hdone⟩ hold

end

/-- Settles O6: `step_engine`, at the engine's turn. -/
theorem stepCompletesTheRunningCommand : Obligations.StepCompletesTheRunningCommand :=
  fun _ _ => step_engine

/-- Settles O54: a completion is the first cause, and of the served inputs only two kinds make irq rise. -/
theorem irqRisesOnlyBy : Obligations.IrqRisesOnlyBy := by
  intro s t hb h hs ht
  have hdone : t.done = true := by
    rw [State.irq, Bool.and_eq_true] at ht
    exact ht.2
  obtain ⟨-, -, rfl⟩ | ⟨i, rest, u, hin, -, hu, rfl⟩ | ⟨c, hc, hturn, rfl⟩ := step_cases h
  · exact absurd ht (by simp [hs])
  · obtain ⟨w, rfl, hidle, hstay⟩ | ⟨w, rfl, hreset, hen, hold⟩ := (served_of_serve rfl hu).irq_rises hs ht
    · exact .inr (.inl ⟨rest, w, hin, hidle, hstay, hdone,
        err_or_nop_of_issueInput (s := s.atHost rest) (u := u) hb rfl hidle hu hstay⟩)
    · exact .inr (.inr ⟨rest, w, hin, hreset, hen, hold⟩)
  · exact .inl ⟨c, hc, rfl, hdone, hturn⟩

end Sys2Proof.Machine

/-! ## Resets, the busy engine and unspecified words (70_reset_and_hazards.md R122 to R131) -/

namespace Sys2Proof.Machine

section
variable {s u : State} {c : Ctx} {i : Instr}

/-! ### A running command ends -/

/-- No served input puts anything at the port or takes anything from it. -/
theorem Served.inputs_eq {x : Input} (h : Served s x u) : u.inputs = s.inputs := by
  cases h with
  | unnoticed x h => rw [h]
  | ctrl w =>
    rw [State.writeCtrl]
    split
    case isTrue => rw [State.softReset_frame]; rfl
    case isFalse => rfl
  | _ => rfl

/-- A step that does not leave FFTE idle takes the oldest input from the port. -/
theorem step_idle_or_takes_input (h : step s = .next u) : u.seq = .idle ∨ ∃ x, s.inputs = x :: u.inputs := by
  obtain ⟨-, hidle, rfl⟩ | ⟨x, rest, v, hin, -, hv, rfl⟩ | ⟨c, -, -, rfl⟩ := step_cases h
  · exact .inl hidle
  · have hrest : v.settle.inputs = rest := (served_of_serve rfl hv).inputs_eq
    exact .inr ⟨x, by rw [hin, hrest]⟩
  · exact .inl rfl

/-- From every state a run is idle after at most one step more than the inputs that wait (R131). -/
theorem exists_run_idle (s : State) : ∃ k ≤ s.inputs.length + 1, ∃ t,
    Host.Core.run Sys2Proof.core k s = .next t ∧ t.seq = .idle := by
  obtain ⟨u, hu⟩ := everyStepAnswersNext s
  obtain hidle | ⟨x, hin⟩ := step_idle_or_takes_input hu
  · exact ⟨1, Nat.le_add_left 1 _, u, run_succ hu 0, hidle⟩
  · obtain ⟨k, hk, t, ht, hidle⟩ := exists_run_idle u
    have hlen : s.inputs.length = u.inputs.length + 1 := by rw [hin, List.length_cons]
    exact ⟨k + 1, by omega, t, (run_succ hu k).trans ht, hidle⟩
termination_by s.inputs.length
decreasing_by rw [hin, List.length_cons]; exact Nat.lt_succ_self _

/-! ### Unspecified input words -/

/-- The completion of a transform: a missing input word makes every output word missing, and only that does
(R126). -/
theorem exec_engine_transform_spreads {n : Nat} {f : List Word → List Word} (ht : s.turn = .engine)
    (hs : s.seq = .running c) (hc : c.instr = i) (hbody : bodyOf i c s = transform c s n f)
    (hlen : ∀ X, (f X).length = 2 * s.pn) :
    ∃ t, exec i s = .next t ∧ CompletedWriting s t c.dst 0 (2 * s.pn) ∧
      ((∃ k < n, s.bankWord c.src k = none) → ∀ k < 2 * s.pn, t.bankWord c.dst k = none) ∧
      ((∀ k < n, s.bankWord c.src k ≠ none) → ∀ k < 2 * s.pn, t.bankWord c.dst k ≠ none) := by
  refine ⟨_, exec_engine ht hs hc, ?_⟩
  rw [hbody, ← State.allSome_snapshot_none]
  cases hin : allSome (s.snapshot c.src n) with
  | none =>
    obtain ⟨hframe, hword⟩ := transform_completed_none (f := f) hin
    obtain ⟨j, hj, hnone⟩ := State.allSome_snapshot_none.mp hin
    exact ⟨hframe, fun _ => hword, fun hall => absurd hnone (hall j hj)⟩
  | some X =>
    obtain ⟨hframe, hword⟩ := transform_completed hin (hlen X)
    refine ⟨hframe, nofun, fun _ k hk => ?_⟩
    rw [hword k hk, ne_eq, List.getElem?_eq_none_iff, hlen X, Nat.not_le]
    exact hk

/-! ### Resets -/

/-- A soft reset of a running command makes exactly the words of its write footprint unspecified (R123, R125). -/
theorem State.softReset_unspecifies {lo len : Nat} (hs : s.seq = .running c)
    (hspan : writeSpan c s.pn = ⟨c.dst, lo, len⟩) : KeepsBytesOutside s s.softReset c.dst lo len ∧
      ∀ k, lo ≤ k → k < lo + len → s.softReset.bankWord c.dst k = none := by
  have hmem : s.softReset.mem = (s.storeBank c.dst lo (List.replicate len none)).mem := by
    rw [State.softReset_mem, State.abortWrites_running hs, hspan]
  refine ⟨fun a ha => ?_, fun k hlo hhi => ?_⟩
  · rw [hmem]
    exact State.readByte_storeBank_outside _ _ _ _ _ (by rwa [List.length_replicate])
  · obtain ⟨j, rfl⟩ := Nat.exists_eq_add_of_le hlo
    have hj : j < (List.replicate len (none : Option Word)).length := by
      rw [List.length_replicate]
      omega
    have hbuild : s.softReset.build = (s.storeBank c.dst lo (List.replicate len none)).build :=
      State.softReset_build s
    rw [State.bankWord_congr hbuild hmem, State.bankWord_storeBank _ _ _ _ _ hj, List.getElem_replicate]

/-- The commands that write a whole complex buffer (R125). -/
theorem writeSpan_complexBuffer (hop : c.op ∈ [Op.fwd, .inv, .rfwd, .r2c, .clr]) (N : Nat) :
    writeSpan c N = ⟨c.dst, 0, 2 * N⟩ := by
  simp only [List.mem_cons, List.not_mem_nil, or_false] at hop
  obtain hop | hop | hop | hop | hop := hop <;> simp [writeSpan, hop]

/-- An unlisted word has no value (R39). -/
theorem Memory.readWord_nil (a : Nat) : Memory.readWord [] a = none := rfl

theorem State.bankWord_powerOn (s : State) (b k : Nat) : s.powerOn.bankWord b k = none :=
  Memory.readWord_nil _

/-- Every register but ID reads 0 after power-on reset (R43, R122). -/
theorem State.readRegister_powerOn {a : Nat} (ha : a ∈ [0x08, 0x10, 0x18, 0x20, 0x28, 0x30]) (s : State) :
    s.powerOn.readRegister a = 0 := by
  simp only [List.mem_cons, List.not_mem_nil, or_false] at ha
  obtain rfl | rfl | rfl | rfl | rfl | rfl := ha
  · exact BitVec.eq_of_toNat_eq ((ctrlReg_toNat _).trans rfl)
  · exact BitVec.eq_of_toNat_eq ((statusReg_toNat _).trans rfl)
  · exact BitVec.eq_of_toNat_eq ((argReg_toNat _).trans rfl)
  all_goals rfl

/-- The state after reset is one that power-on reset leaves. -/
theorem State.powerOn_reset : State.reset.powerOn = State.reset := rfl

/-! ### A command word while busy -/

/-- A CMD write while busy sets OVERRUN, legal word or not (R127). -/
theorem writeCmd_busy (ht : s.turn = .host) (hbusy : s.busy = true) (w : Word) :
    writeCmd w s = .next s.setOverrun := by
  rw [writeCmd]
  split
  case h_1 j _ => rw [exec_host j ht, State.issue_busy hbusy]
  case h_2 => rw [State.issueIllegal, if_pos hbusy]

end

/-! ### The statements -/

/-- Settles O8: each step either leaves FFTE idle or takes one of the waiting inputs. -/
theorem runningCommandEnds : Obligations.RunningCommandEnds := fun s _ => exists_run_idle s

/-- Settles O28: each of the three pseudocodes is a transform that makes `2N` words of the words it reads. -/
theorem unspecifiedInputSpreads : Obligations.UnspecifiedInputSpreads := by
  intro s c d x p i nIn ht hs hc hp hpn hi
  obtain ⟨hdst, hsrc⟩ : dstOf i = some d ∧ srcOf i = some x := by
    obtain ⟨rfl, -⟩ | ⟨rfl, -⟩ | ⟨rfl, -⟩ := hi <;> exact ⟨rfl, rfl⟩
  obtain rfl := Ctx.dst_of_instr hc hdst
  obtain rfl := Ctx.src_of_instr hc hsrc
  obtain ⟨rfl, rfl⟩ | ⟨rfl, rfl⟩ | ⟨rfl, rfl⟩ := hi
  · exact exec_engine_transform_spreads ht hs hc rfl (hpn ▸ fwdWords_length hp _)
  · exact exec_engine_transform_spreads ht hs hc rfl (hpn ▸ invWords_length hp _)
  · exact exec_engine_transform_spreads ht hs hc rfl (hpn ▸ rfwdWords_length hp _)

/-- Settles O50: the abort stores missing words over the write footprint, and the plan it clears is the first
thing acceptance checks. -/
theorem softReset : Obligations.SoftReset := by
  intro s w hb hw
  refine ⟨(s.reply .okay).softReset, ?_, State.softReset_frame _, fun hidle => ?_, fun c hs => ?_,
    fun i hnop hplan => ?_, fun i c u hs hturn hpower hreset hu => ?_⟩
  · rw [serve_write_ctrl hb, State.writeCtrl_reset ((getLsbD_one_iff w).mpr hw)]
  · rw [State.softReset_mem, State.abortWrites_idle (s := s.reply .okay) hidle]
    rfl
  · have hfoot {lo len : Nat} (hspan : writeSpan c s.pn = ⟨c.dst, lo, len⟩) :=
      State.softReset_unspecifies (s := s.reply .okay) hs hspan
    refine ⟨fun hop a => ?_, fun hop => ?_, fun hop => ?_, fun hop => ?_⟩
    · exact (hfoot (lo := 0) (len := 0) (by simp [writeSpan, hop])).1 a (Nat.lt_or_ge a _)
    · obtain ⟨hbytes, hwords⟩ := hfoot (writeSpan_complexBuffer hop s.pn)
      exact ⟨hbytes, fun k hk => hwords k (Nat.zero_le k) (by omega)⟩
    · obtain ⟨hbytes, hwords⟩ := hfoot (lo := 0) (len := s.pn) (by simp [writeSpan, hop])
      exact ⟨hbytes, fun k hk => hwords k (Nat.zero_le k) (by omega)⟩
    · exact hfoot (by simp [writeSpan, hop])
  · obtain ⟨v, hv, hrejected⟩ := exec_rejected (s := { (s.reply .okay).softReset with turn := .host }) rfl rfl
      (acceptError_noPlan (needsPlan_of_ne hnop hplan) rfl)
    rw [hrejected] at hv
    exact ⟨_, hv, rfl, rfl, rfl⟩
  · exact (hostCannotDisturbARunningCommand s u c i hb hs hturn hpower hreset hu).1

/-- Settles O9: the state after reset is the case of the default parameters. -/
theorem powerOnResetState : Obligations.PowerOnResetState := by
  refine ⟨fun s _ => ⟨s.powerOn, rfl, fun a ha => s.readRegister_powerOn ha, rfl, rfl, rfl, rfl, rfl, rfl,
    s.bankWord_powerOn⟩, fun a ha => ?_, rfl, rfl, rfl, rfl, rfl, rfl, fun b k => ?_⟩
  · rw [← State.powerOn_reset, State.readRegister_powerOn ha]
  · rw [← State.powerOn_reset, State.bankWord_powerOn]

/-- Settles O16: a legal word and an ILLEGAL one are discarded alike. -/
theorem overrunDiscardsTheCommand : Obligations.OverrunDiscardsTheCommand := by
  intro s w hb hbusy hturn
  rw [serve_issueInput hb, writeCmd_busy (s := s.reply .okay) hturn hbusy]
  rfl

end Sys2Proof.Machine
